-- ==== Sys2Proof/Word.lean ====
section
/-! DEFINITION. The two word types of the 6502 core (spec 00 R9): the 8-bit byte and the 16-bit address. -/

namespace Sys2Proof

/-- A byte: every register but PC and every memory cell (00 R9, R12). -/
abbrev Byte := BitVec 8

/-- A 16-bit word: PC and CPU addresses, and the PPU's address register (00 R9, 10 R57). -/
abbrev Word := BitVec 16

end Sys2Proof
end

