-- ==== Sys2Proof/Config.lean ====
section
/-! DEFINITION. What an implementation fixes and the spec leaves open (00 R10): constants with no body, so that no proof can see a
value of one and a statement about them holds for every value. The power-on memories and the cartridge, the other open parameters,
are arguments of the construction (Machine/Reset.lean). -/

namespace Sys2Proof

/-- `OAM_DMA_CYCLES`, CPU cycles charged for an OAM DMA: an open parameter (60 R571, D9). Log 4. -/
opaque Config.oamDmaCycles : Nat

/-- `ANE_CONST`, the constant of the unstable opcode `$8B`: an open parameter (46 R443, D27). Log 5. -/
opaque Config.aneConst : Byte

/-- `LXA_CONST`, the constant of the unstable opcode `$AB`: an open parameter (46 R444, D27). Log 5. -/
opaque Config.lxaConst : Byte

/-- `draw(open_bus_draw)`: the byte the n-th read of a write-only PPU register gives, an unconstrained value (60 R553, D11). Log 6. -/
opaque Config.openBusDraw : Nat → Byte

end Sys2Proof
end

