-- ==== Sys2Proof/Machine/Memory.lean ====
section
/-! DEFINITION. A memory as plain data: address and byte pairs in one canonical form, the addresses strictly rising and no entry equal
to what an unlisted address reads as. RAM, video RAM, OAM, palette, PRG and CHR are each one such memory (10 R55-R71). -/

namespace Sys2Proof.Machine

/-- A memory array, listed by address. -/
abbrev Memory := List Host.Cell

/-- What an unlisted address reads as: `$00`, D24's reference value and the blank cartridge's byte. DESIGN CHOICE, unsafe, log 1. -/
def Memory.unlisted : Byte := 0x00

/-- The byte at an address. -/
def Memory.read : Memory → Nat → Byte
  | [], _ => Memory.unlisted
  | (k, v) :: rest, a => if k = a then v else Memory.read rest a

/-- The list of one entry put before `rest`, or `rest` where the byte is the one an unlisted address reads as. -/
def Memory.entry (a : Nat) (v : Byte) (rest : Memory) : Memory :=
  if v = Memory.unlisted then rest else (a, v) :: rest

/-- The memory with the byte at one address replaced; the canonical form is kept. -/
def Memory.write : Memory → Nat → Byte → Memory
  | [], a, v => Memory.entry a v []
  | (k, u) :: rest, a, v =>
    if a < k then Memory.entry a v ((k, u) :: rest)
    else if a = k then Memory.entry a v rest
    else (k, u) :: Memory.write rest a v

/-- The canonical form: addresses strictly rising, no entry that reads as an unlisted address does. -/
def Memory.wf : Memory → Bool
  | [] => true
  | (k, v) :: rest => v != Memory.unlisted && rest.all (fun c => decide (k < c.1)) && Memory.wf rest

/-- Every listed address lies below a size. -/
def Memory.below (n : Nat) (m : Memory) : Bool := m.all (fun c => decide (c.1 < n))

/-- The memory holding a byte array from address `a` on. -/
def Memory.ofBytesFrom : Nat → List Byte → Memory
  | _, [] => []
  | a, v :: vs => Memory.entry a v (Memory.ofBytesFrom (a + 1) vs)

/-- The memory holding a byte array. -/
def Memory.ofBytes (bs : List Byte) : Memory := Memory.ofBytesFrom 0 bs

end Sys2Proof.Machine
end

