-- ==== Sys2Proof/Machine/State.lean ====
section
/-! DEFINITION. The state of the core as plain data: the CPU, the PPU, the Bus and the controller port (10_state.md), and the model's
own fields for the host's side. What a step can stop with, and the state after reset. -/

namespace Sys2Proof.Machine

/-- Nametable mirroring, supplied at construction and constant (10 R63, 20 R132). -/
inductive Mirroring where
  | horizontal | vertical
deriving DecidableEq, Repr

/-- The two legal lengths of the PRG image, 16384 and 32768 bytes (10 R71, 20 R108, D18). -/
inductive PrgSize where
  | k16 | k32
deriving DecidableEq, Repr

/-- The kinds of a fault record (60 R500, R502). -/
inductive FaultKind where
  | jam | undecodable | modeMismatch
deriving DecidableEq, Repr

/-- A fault record `{kind, opcode, pc}` (10 R45, 60 R501). -/
structure FaultRecord where
  kind : FaultKind
  opcode : Byte
  pc : Word
deriving DecidableEq, Repr

/-- The CPU's run state (10 R45). -/
inductive RunState where
  | running
  | faulted (r : FaultRecord)
deriving DecidableEq, Repr

/-- The CPU (10 sections 1-3): `A`, `X`, `Y`, `S` (here `sp`), `P`, `PC`, the run state, and the transient cycle count (R46, log 12). -/
structure Cpu where
  a : Byte
  x : Byte
  y : Byte
  sp : Byte
  p : Byte
  pc : Word
  run : RunState
  cyc : Nat
deriving DecidableEq, Repr

/-- The PPU (10 R50-R66). -/
structure Ppu where
  ctrl : Byte
  mask : Byte
  status : Byte
  oamAddr : Byte
  oam : Memory
  scrollX : Byte
  scrollY : Byte
  v : Word
  w : Bool
  buf : Byte
  vram : Memory
  palette : Memory
  chr : Memory
  mirroring : Mirroring
  scanline : Nat
  cycle : Nat
  nmiPending : Bool
deriving DecidableEq, Repr

/-- The Bus: RAM, the PRG image with its length, and the master cycle counter (10 R70-R72). -/
structure Bus where
  ram : Memory
  prg : Memory
  prgSize : PrgSize
  cycles : Nat
deriving DecidableEq, Repr

/-- The controller collaborator (10 R75). -/
structure Pad where
  strobe : Bool
  index : Nat
  buttons : Byte
deriving DecidableEq, Repr

/-- The read-only view the frame callback receives (60 R566). -/
structure FrameView where
  vram : Memory
  oam : Memory
  palette : Memory
  scrollX : Byte
  scrollY : Byte
  mirroring : Mirroring
  chr : Memory
  ctrl : Byte
  mask : Byte
deriving DecidableEq, Repr

/-- The MODEL'S OWN fields, the host's side of the machine: the index of the next open-bus draw (log 6), how often the frame callback
has fired and the view it last received (log 10), and the buttons the host sets inside the next callbacks (log 11). -/
structure HostPort where
  draws : Nat
  frames : Nat
  view : Option FrameView
  inputs : List Byte
deriving DecidableEq, Repr

/-- The whole machine. -/
structure State where
  cpu : Cpu
  ppu : Ppu
  bus : Bus
  pad : Pad
  host : HostPort
deriving DecidableEq, Repr

/-- Why a step gives no next state. -/
inductive Fault where
  /-- Raised by `step` on a machine whose run state is Faulted: "a faulted CPU takes no further step" (10 R45, 60 R501). Safe: the
  spec gives that machine no step. Log 7. -/
  | halted (r : FaultRecord)
  /-- Raised by a meaning that needs an address or value and is given an operand mode that has none (40 R219). Safe: no row of the
  opcode table pairs the two, so no step raises it. Log 14. -/
  | modeMismatch (pc : Word)
deriving DecidableEq, Repr

/-- Why the machine gives no meaning. -/
inductive Refusal where
  /-- Raised by an arm of `exec` whose instruction has no meaning yet; no arm is so. Safe. -/
  | notModelled (mnemonic : String)
  /-- Raised by `construct` for a cartridge of the wrong sizes, for which the spec builds no machine (60 R502, D18). Safe. Log 15. -/
  | badCartridge
deriving DecidableEq, Repr

/-- The state after reset (10 R90, 70 R600-R603) of a core built from a blank 32 KiB cartridge with horizontal mirroring (log 2) and
power-on memories of `$00` (log 1): PC is the word at `$FFFC`, here `$0000`, and the reset's 7 cycles have ticked the PPU to cycle 21. -/
def State.reset : State where
  cpu := { a := 0x00, x := 0x00, y := 0x00, sp := 0xFD, p := 0x24, pc := 0x0000, run := .running, cyc := 0 }
  ppu := { ctrl := 0x00, mask := 0x00, status := 0x00, oamAddr := 0x00, oam := [], scrollX := 0x00, scrollY := 0x00, v := 0x0000,
           w := false, buf := 0x00, vram := [], palette := [], chr := [], mirroring := .horizontal, scanline := 0, cycle := 21,
           nmiPending := false }
  bus := { ram := [], prg := [], prgSize := .k32, cycles := 7 }
  pad := { strobe := false, index := 0, buttons := 0x00 }
  host := { draws := 0, frames := 0, view := none, inputs := [] }

end Sys2Proof.Machine
end

