-- ==== Sys2Proof/Machine/Flags.lean ====
section
/-! DEFINITION. The status byte P and its flags (10 R36-R42), and the flag-setting arithmetic (42 R300, R301, 43 R350) as functions of
bytes. -/

namespace Sys2Proof.Machine

/-- The eight fields of P (10 R36). -/
inductive Flag where
  | c | z | i | d | b | u | v | n
deriving DecidableEq, Repr

/-- A flag's bit of P (10 R36). -/
def flagBit : Flag → Nat
  | .c => 0
  | .z => 1
  | .i => 2
  | .d => 3
  | .b => 4
  | .u => 5
  | .v => 6
  | .n => 7

/-- Reading a flag of P (10 R36). -/
def getFlag (p : Byte) (f : Flag) : Bool := p.getLsbD (flagBit f)

/-- P with one flag written (10 R36). -/
def setFlag (p : Byte) (f : Flag) (b : Bool) : Byte :=
  if b then p ||| (1#8 <<< flagBit f) else p &&& ~~~(1#8 <<< flagBit f)

/-- `SetZN(v)` on P (10 R40). -/
def setZN (p v : Byte) : Byte := setFlag (setFlag p .z (v == 0)) .n v.msb

/-- `PushImage(brk)` (10 R41). -/
def pushImage (p : Byte) (brk : Bool) : Byte := (p &&& 0xCF) ||| 0x20 ||| (if brk then 0x10 else 0x00)

/-- P as loaded from a pulled byte: bit 5 forced to 1, bit 4 to 0 (10 R42). -/
def pulledStatus (b : Byte) : Byte := (b &&& 0xCF) ||| 0x20

/-- The 9-bit sum of the adder (42 R300). -/
def sum9 (a m : Byte) (c : Bool) : BitVec 9 := a.setWidth 9 + m.setWidth 9 + (BitVec.ofBool c).setWidth 9

/-- The adder's 8-bit result (42 R300). -/
def addResult (a m : Byte) (c : Bool) : Byte := (sum9 a m c).setWidth 8

/-- The adder's carry out: the sum exceeds 8 bits (42 R300). -/
def addCarry (a m : Byte) (c : Bool) : Bool := (sum9 a m c).getLsbD 8

/-- The adder's overflow, `((m ^ r) & (r ^ A) & $80) != 0` with the old A (42 R300). -/
def addOverflow (a m : Byte) (c : Bool) : Bool :=
  ((m ^^^ addResult a m c) &&& (addResult a m c ^^^ a)).msb

/-- P after `ADD8(m)`: C, V, Z and N (42 R300). -/
def addFlags (p a m : Byte) : Byte :=
  let c := getFlag p .c
  setZN (setFlag (setFlag p .c (addCarry a m c)) .v (addOverflow a m c)) (addResult a m c)

/-- P after `COMPARE(r, m)`: C, Z and N (42 R301). -/
def compareFlags (p r m : Byte) : Byte := setZN (setFlag p .c (decide (m ≤ r))) (r - m)

/-- A shifted byte and the bit shifted off (43 R350). -/
structure Shifted where
  value : Byte
  carry : Bool
deriving DecidableEq, Repr

/-- `ASL8(v)` (43 R350); the old carry is not used. -/
def asl8 (v : Byte) (_c : Bool) : Shifted := ⟨v <<< 1, v.getLsbD 7⟩

/-- `LSR8(v)` (43 R350); the old carry is not used. -/
def lsr8 (v : Byte) (_c : Bool) : Shifted := ⟨v >>> 1, v.getLsbD 0⟩

/-- `ROL8(v, c)` (43 R350). -/
def rol8 (v : Byte) (c : Bool) : Shifted := ⟨(v <<< 1) ||| (BitVec.ofBool c).setWidth 8, v.getLsbD 7⟩

/-- `ROR8(v, c)` (43 R350). -/
def ror8 (v : Byte) (c : Bool) : Shifted := ⟨(v >>> 1) ||| ((BitVec.ofBool c).setWidth 8 <<< 7), v.getLsbD 0⟩

/-- P after a shift: `P.C <- carry_out; SetZN(r)` (43 R350). -/
def shiftFlags (p : Byte) (r : Shifted) : Byte := setZN (setFlag p .c r.carry) r.value

end Sys2Proof.Machine
end

