-- ==== Sys2Proof/Machine/Bits.lean ====
section
/-! DEFINITION. The bit-field, extension and byte-order helpers of the notation (00 R11, R12). -/

namespace Sys2Proof

/-- `w[15:8]` (00 R11). -/
def hiByte (w : Word) : Byte := w.extractLsb' 8 8

/-- `w[7:0]` (00 R11). -/
def loByte (w : Word) : Byte := w.extractLsb' 0 8

/-- `hi:lo`, the first byte being bits 15-8 (00 R11, 20 R110). -/
def joinBytes (hi lo : Byte) : Word := hi ++ lo

/-- `zext_16` (00 R12). -/
def zext16 (b : Byte) : Word := b.setWidth 16

/-- `sext_16` (00 R12). -/
def sext16 (b : Byte) : Word := b.signExtend 16

end Sys2Proof
end

