-- ==== Sys2Proof/Machine/Ppu.lean ====
section
/-! DEFINITION. The PPU: its own address space (20 R130-R135), its registers as the CPU sees them (60 R540-R552), and its timing state
machine (60 R560-R564). -/

namespace Sys2Proof.Machine

/-- The eight PPU registers, by `addr & 7` (60 R540, 10 R80). -/
inductive PpuReg where
  | ctrl | mask | status | oamAddr | oamData | scroll | addr | data
deriving DecidableEq, Repr

/-- Register select (60 R540, 20 R103): only the low three bits of the address count. -/
def ppuRegOf (a : Word) : PpuReg :=
  match (a &&& 0x0007).toNat with
  | 0 => .ctrl
  | 1 => .mask
  | 2 => .status
  | 3 => .oamAddr
  | 4 => .oamData
  | 5 => .scroll
  | 6 => .addr
  | _ => .data

/-! ### The PPU's address space -/

/-- `NtIndex(p)`, the video-RAM offset of a nametable address: 12-bit reduction (20 R131), then folding by mirroring (20 R132).
Bit 10 of the index tells odd quadrants, bit 11 the lower pair. -/
def ntIndex (m : Mirroring) (p : Word) : Nat :=
  let bankB := match m with
    | .horizontal => p.getLsbD 11
    | .vertical => p.getLsbD 10
  (p &&& 0x03FF).toNat + (if bankB then 0x400 else 0)

/-- The palette entry of an address: `k = p & $1F`, with `$10 $14 $18 $1C` mirrored down (20 R133). -/
def paletteIndex (p : Word) : Nat :=
  let k := (p &&& 0x001F).toNat
  if k = 0x10 ∨ k = 0x14 ∨ k = 0x18 ∨ k = 0x1C then k - 0x10 else k

/-- `PpuRead(p)` (20 R130, R135). -/
def ppuRead (q : Ppu) (p : Word) : Byte :=
  if p < 0x2000 then q.chr.read p.toNat
  else if p < 0x3F00 then q.vram.read (ntIndex q.mirroring p)
  else q.palette.read (paletteIndex p)

/-- `PpuWrite(p, v)` (20 R130, R135); a write to the pattern tables is ignored (20 R134). -/
def ppuWrite (q : Ppu) (p : Word) (v : Byte) : Ppu :=
  if p < 0x2000 then q
  else if p < 0x3F00 then { q with vram := q.vram.write (ntIndex q.mirroring p) v }
  else { q with palette := q.palette.write (paletteIndex p) v }

/-- `increment()` after a PPUDATA access (60 R552). -/
def ppuIncrement (q : Ppu) : Ppu :=
  { q with v := (q.v + (if q.ctrl.getLsbD 2 then 32 else 1)) &&& 0x3FFF }

/-! ### Registers -/

/-- Write PPUCTRL: an NMI is requested when `nmi_enable` goes from 0 to 1 during vblank (60 R541). -/
def writePpuCtrl (q : Ppu) (v : Byte) : Ppu :=
  { q with
    ctrl := v
    nmiPending := q.nmiPending || (!q.ctrl.getLsbD 7 && v.getLsbD 7 && q.status.getLsbD 7) }

/-- Write PPUMASK (60 R542). -/
def writePpuMask (q : Ppu) (v : Byte) : Ppu := { q with mask := v }

/-- Read PPUSTATUS: the status byte, then vblank and `w` cleared (60 R543). -/
def readPpuStatus (q : Ppu) : Byte × Ppu :=
  (q.status, { q with status := q.status &&& 0x7F, w := false })

/-- Write OAMADDR (60 R545). -/
def writeOamAddr (q : Ppu) (v : Byte) : Ppu := { q with oamAddr := v }

/-- Write OAMDATA: store, then the cursor advances modulo 256 (60 R546). -/
def writeOamData (q : Ppu) (v : Byte) : Ppu :=
  { q with oam := q.oam.write q.oamAddr.toNat v, oamAddr := q.oamAddr + 1 }

/-- Read OAMDATA: no side effect (60 R547). -/
def readOamData (q : Ppu) : Byte := q.oam.read q.oamAddr.toNat

/-- Write PPUSCROLL: first `scroll_x`, then `scroll_y`, by the shared toggle (60 R548). -/
def writePpuScroll (q : Ppu) (v : Byte) : Ppu :=
  if q.w then { q with scrollY := v, w := false } else { q with scrollX := v, w := true }

/-- Write PPUADDR: high byte first, masked to 14 bits, then the low byte (60 R549). -/
def writePpuAddr (q : Ppu) (v : Byte) : Ppu :=
  if q.w then { q with v := (q.v &&& 0xFF00) ||| zext16 v, w := false }
  else { q with v := ((zext16 v <<< 8) ||| (q.v &&& 0x00FF)) &&& 0x3FFF, w := true }

/-- Read PPUDATA: buffered below the palette, direct in it, and the buffer refilled in both cases (60 R550). -/
def readPpuData (q : Ppu) : Byte × Ppu :=
  if q.v < 0x3F00 then
    (q.buf, ppuIncrement { q with buf := ppuRead q q.v })
  else
    (ppuRead q q.v, ppuIncrement { q with buf := ppuRead q (q.v - 0x1000) })

/-- Write PPUDATA (60 R551). -/
def writePpuData (q : Ppu) (v : Byte) : Ppu := ppuIncrement (ppuWrite q q.v v)

/-- A CPU write to a PPU register (60 R541-R551); PPUSTATUS ignores it (60 R544). -/
def writePpuReg (r : PpuReg) (v : Byte) (q : Ppu) : Ppu :=
  match r with
  | .ctrl => writePpuCtrl q v
  | .mask => writePpuMask q v
  | .status => q
  | .oamAddr => writeOamAddr q v
  | .oamData => writeOamData q v
  | .scroll => writePpuScroll q v
  | .addr => writePpuAddr q v
  | .data => writePpuData q v

/-! ### Timing -/

/-- PPU cycles per scanline (00 R9). -/
def dotsPerLine : Nat := 341

/-- Scanlines per frame (00 R9). -/
def linesPerFrame : Nat := 262

/-- The scanline vblank begins on (00 R9, 60 R562). -/
def vblankLine : Nat := 241

/-- `sprite0_check()` (60 R561). -/
def sprite0Check (q : Ppu) : Ppu :=
  if (q.oam.read 0).toNat = q.scanline ∧ (q.oam.read 3).toNat ≤ q.cycle ∧ q.mask.getLsbD 4 = true then
    { q with status := q.status ||| 0x40 }
  else q

/-- `enter_vblank()` (60 R562). -/
def enterVblank (q : Ppu) : Ppu :=
  { q with status := (q.status ||| 0x80) &&& 0xBF, nmiPending := q.nmiPending || q.ctrl.getLsbD 7 }

/-- `end_frame()` (60 R564). -/
def endFrame (q : Ppu) : Ppu :=
  { q with scanline := 0, status := q.status &&& 0x3F, nmiPending := false }

/-- One turn of the wrap loop (60 R560): the next scanline, with vblank and frame end on the way; true where the frame ended. -/
def nextScanline (q : Ppu) : Ppu × Bool :=
  let q1 := { q with cycle := q.cycle - dotsPerLine, scanline := q.scanline + 1 }
  let q2 := if q1.scanline = vblankLine then enterVblank q1 else q1
  if q2.scanline = linesPerFrame then (endFrame q2, true) else (q2, false)

/-- The wrap loop, `n` turns (60 R560, D20); true where a frame ended in one of them. -/
def wrapScanlines : Nat → Ppu → Ppu × Bool
  | 0, q => (q, false)
  | n + 1, q =>
    let r := nextScanline q
    let t := wrapScanlines n r.1
    (t.1, r.2 || t.2)

/-- `PPU.tick(n)` (60 R560). "while cycle >= 341" turns exactly `cycle / 341` times, since each turn takes 341 off. Log 16. -/
def ppuTick (n : Nat) (q : Ppu) : Ppu × Bool :=
  let q1 := sprite0Check { q with cycle := q.cycle + n }
  wrapScanlines (q1.cycle / dotsPerLine) q1

/-- The read-only view handed to the frame callback (60 R566). -/
def frameView (q : Ppu) : FrameView where
  vram := q.vram
  oam := q.oam
  palette := q.palette
  scrollX := q.scrollX
  scrollY := q.scrollY
  mirroring := q.mirroring
  chr := q.chr
  ctrl := q.ctrl
  mask := q.mask

end Sys2Proof.Machine
end

