-- ==== Sys2Proof/Machine/Ops.lean ====
section
/-! DEFINITION. The named operations over the state: register writes, Bus reads and writes with every side effect of their address
(20_memory.md, 60 sections 9 and 10), the stack, taking an interrupt and returning from one (60 R507, 44 R383, R384), raising a fault
(60 R501), and the Bus's clock forwarding with the frame callback (60 R565, R566). -/

namespace Sys2Proof.Machine

/-! ### Registers -/

/-- `A <- v` (10 R31). -/
def State.setA (s : State) (v : Byte) : State := { s with cpu := { s.cpu with a := v } }

/-- `X <- v` (10 R32). -/
def State.setX (s : State) (v : Byte) : State := { s with cpu := { s.cpu with x := v } }

/-- `Y <- v` (10 R33). -/
def State.setY (s : State) (v : Byte) : State := { s with cpu := { s.cpu with y := v } }

/-- `S <- v` (10 R34). -/
def State.setSp (s : State) (v : Byte) : State := { s with cpu := { s.cpu with sp := v } }

/-- `P <- v` (10 R36). -/
def State.setP (s : State) (v : Byte) : State := { s with cpu := { s.cpu with p := v } }

/-- `PC <- w` (10 R35). -/
def State.setPc (s : State) (w : Word) : State := { s with cpu := { s.cpu with pc := w } }

/-- `cpu.run <- r` (10 R45). -/
def State.setRun (s : State) (r : RunState) : State := { s with cpu := { s.cpu with run := r } }

/-- The cycle count of the instruction set to `n` (10 R46). -/
def State.setCyc (s : State) (n : Nat) : State := { s with cpu := { s.cpu with cyc := n } }

/-- `charge(n)` (10 R46, 40 R230). -/
def State.charge (s : State) (n : Nat) : State := s.setCyc (s.cpu.cyc + n)

/-- `SetZN(v)` (10 R40). -/
def State.setZN (s : State) (v : Byte) : State := s.setP (Machine.setZN s.cpu.p v)

/-- One flag of P written (10 R36). -/
def State.setFlag (s : State) (f : Flag) (b : Bool) : State := s.setP (Machine.setFlag s.cpu.p f b)

/-- The PPU replaced. -/
def State.setPpu (s : State) (q : Ppu) : State := { s with ppu := q }

/-- `bus.ram[i] <- v` (10 R70). -/
def State.writeRam (s : State) (i : Nat) (v : Byte) : State := { s with bus := { s.bus with ram := s.bus.ram.write i v } }

/-- The controller's state replaced. -/
def State.setPad (s : State) (d : Pad) : State := { s with pad := d }

/-- The next draw of `open_bus_draw` (60 R553): one draw further on. Log 6. -/
def State.nextDraw (s : State) : State := { s with host := { s.host with draws := s.host.draws + 1 } }

/-- `pc <- next` for an instruction of `n` bytes (10 R35, 40 R202). -/
def State.advance (s : State) (n : Nat) : State := s.setPc (s.cpu.pc + BitVec.ofNat 16 n)

/-- `ADD8(m)` (42 R300). -/
def State.add8 (s : State) (m : Byte) : State :=
  (s.setA (addResult s.cpu.a m (getFlag s.cpu.p .c))).setP (addFlags s.cpu.p s.cpu.a m)

/-- `COMPARE(r, m)` (42 R301). -/
def State.compare (s : State) (r m : Byte) : State := s.setP (compareFlags s.cpu.p r m)

/-! ### The Bus -/

/-- What a CPU address selects (20 R101). -/
inductive BusTarget where
  /-- internal RAM at an offset (20 R102) -/
  | ram (i : Nat)
  /-- a PPU register (20 R103) -/
  | ppu (r : PpuReg)
  /-- `$4014` (20 R104) -/
  | oamDma
  /-- `$4016` (20 R106) -/
  | controller
  /-- `$4000`-`$4013`, `$4015`, `$4017` (20 R105) -/
  | reserved
  /-- `$4018`-`$7FFF` (20 R107) -/
  | unmapped
  /-- PRG ROM (20 R108, R109) -/
  | prg
deriving DecidableEq, Repr

/-- Bus dispatch, the first matching row (20 R101). -/
def busTarget (a : Word) : BusTarget :=
  if a < 0x2000 then .ram (a &&& 0x07FF).toNat
  else if a < 0x4000 then .ppu (ppuRegOf a)
  else if a = 0x4014 then .oamDma
  else if a = 0x4016 then .controller
  else if a < 0x4018 then .reserved
  else if a < 0x8000 then .unmapped
  else .prg

/-- The length of the PRG image (10 R71). -/
def prgLength : PrgSize → Nat
  | .k16 => 16384
  | .k32 => 32768

/-- The PRG image offset of an address in `$8000`-`$FFFF`, a 16 KiB image mirrored (20 R108). -/
def prgOffset (z : PrgSize) (a : Word) : Nat :=
  match z with
  | .k16 => (a &&& 0x3FFF).toNat
  | .k32 => (a &&& 0x7FFF).toNat

/-- The PRG ROM byte at an address (20 R108). -/
def Bus.prgByte (b : Bus) (a : Word) : Byte := b.prg.read (prgOffset b.prgSize a)

/-- The bit a controller read reports: the next button, 1 past bit 7; bits 7-1 are 0 (60 R577). -/
def padBit (d : Pad) : Byte :=
  if 7 < d.index then 0x01 else (d.buttons >>> d.index) &&& 0x01

/-- The controller after a read: the index advances while the strobe is inactive, up to 8 (60 R577). -/
def padAfterRead (d : Pad) : Pad :=
  if d.strobe = false ∧ d.index < 8 then { d with index := d.index + 1 } else d

/-- The controller after a write of `v` (60 R576). -/
def padAfterWrite (d : Pad) (v : Byte) : Pad :=
  { d with strobe := v.getLsbD 0, index := if v.getLsbD 0 then 0 else d.index }

/-- A CPU read of a PPU register (60 R540-R553). The write-only registers give a draw and have no side effect (60 R553, log 6). -/
def readPpuReg (r : PpuReg) (s : State) : Byte × State :=
  match r with
  | .status => ((readPpuStatus s.ppu).1, s.setPpu (readPpuStatus s.ppu).2)
  | .oamData => (readOamData s.ppu, s)
  | .data => ((readPpuData s.ppu).1, s.setPpu (readPpuData s.ppu).2)
  | .ctrl | .mask | .oamAddr | .scroll | .addr => (Config.openBusDraw s.host.draws, s.nextDraw)

/-- `MemRead(a, 1)`, one bus read with every side effect of its address (20 R101, 00 R14). -/
def memRead (a : Word) (s : State) : Byte × State :=
  match busTarget a with
  | .ram i => (s.bus.ram.read i, s)
  | .ppu r => readPpuReg r s
  | .oamDma => (0x00, s)
  | .controller => (padBit s.pad, s.setPad (padAfterRead s.pad))
  | .reserved => (0x00, s)
  | .unmapped => (0x00, s)
  | .prg => (s.bus.prgByte a, s)

/-- One byte of an OAM DMA from page `v`: an ordinary bus read, then a store through the OAM cursor (60 R570). -/
def dmaByte (v : Byte) (s : State) (i : Nat) : State :=
  let r := memRead (joinBytes v (BitVec.ofNat 8 i)) s
  r.2.setPpu (writeOamData r.2.ppu r.1)

/-- The OAM DMA of a write of `v` to `$4014`, run to completion, and its charge (60 R570, R571, D9). Log 4. -/
def oamDma (v : Byte) (s : State) : State :=
  ((List.range 256).foldl (dmaByte v) s).charge Config.oamDmaCycles

/-- `MemWrite(a, 1, v)`, one bus write with every side effect of its address (20 R101). PRG ROM writes change nothing (20 R109, log 9). -/
def memWrite (a : Word) (v : Byte) (s : State) : State :=
  match busTarget a with
  | .ram i => s.writeRam i v
  | .ppu r => s.setPpu (writePpuReg r v s.ppu)
  | .oamDma => oamDma v s
  | .controller => s.setPad (padAfterWrite s.pad v)
  | .reserved => s
  | .unmapped => s
  | .prg => s

/-- `peek(s, a)` (70 R630): the byte a read would give, without side effects, where the address is RAM or PRG ROM. -/
def peek (s : State) (a : Word) : Option Byte :=
  match busTarget a with
  | .ram i => some (s.bus.ram.read i)
  | .prg => some (s.bus.prgByte a)
  | .ppu _ | .oamDma | .controller | .reserved | .unmapped => none

/-- `Read16(a)`: low byte first, the second address wrapping (20 R111). -/
def read16 (a : Word) (s : State) : Word × State :=
  let lo := memRead a s
  let hi := memRead (a + 1) lo.2
  (joinBytes hi.1 lo.1, hi.2)

/-- `Read16ZP(z)`: the second address wraps in page zero (20 R112). -/
def read16ZP (z : Byte) (s : State) : Word × State :=
  let lo := memRead (zext16 z) s
  let hi := memRead (zext16 (z + 1)) lo.2
  (joinBytes hi.1 lo.1, hi.2)

/-- The word at a pointer whose second byte is read from the same page (40 R214, 44 R380). -/
def read16InPage (p : Word) (s : State) : Word × State :=
  let lo := memRead p s
  let hi := memRead (joinBytes (hiByte p) (loByte p + 1)) lo.2
  (joinBytes hi.1 lo.1, hi.2)

/-! ### The stack -/

/-- The stack byte's address `$0100 + S` (10 R34). -/
def stackAddr (sp : Byte) : Word := joinBytes 0x01 sp

/-- `Push(v)` (20 R125). -/
def push (v : Byte) (s : State) : State :=
  let t := memWrite (stackAddr s.cpu.sp) v s
  t.setSp (t.cpu.sp - 1)

/-- `Pull()` (20 R126). -/
def pull (s : State) : Byte × State :=
  let t := s.setSp (s.cpu.sp + 1)
  memRead (stackAddr t.cpu.sp) t

/-- `Push16(w)`: high byte first (20 R127). -/
def push16 (w : Word) (s : State) : State := push (loByte w) (push (hiByte w) s)

/-- `Pull16()`: low byte first (20 R127). -/
def pull16 (s : State) : Word × State :=
  let lo := pull s
  let hi := pull lo.2
  (joinBytes hi.1 lo.1, hi.2)

/-! ### Interrupts and faults -/

/-- NMI, reset and BRK vectors (60 R509, 20 R118). -/
def nmiVector : Word := 0xFFFA
/-- The reset vector (60 R509, 70 R603). -/
def resetVector : Word := 0xFFFC
/-- The BRK vector (60 R509, 44 R383). -/
def brkVector : Word := 0xFFFE

/-- Taking an interrupt, shared by BRK (44 R383) and NMI (60 R507): push the return address, push P's image with the break bit of the
entry, set I, and go to the word at the vector (60 R515). -/
def enterInterrupt (ret : Word) (brk : Bool) (vector : Word) (s : State) : State :=
  let t := push (pushImage s.cpu.p brk) (push16 ret s)
  let r := read16 vector (t.setFlag .i true)
  r.2.setPc r.1

/-- Returning from an interrupt: P with B forced 0 and U forced 1, then PC (44 R384, 60 R513). -/
def returnFromInterrupt (s : State) : State :=
  let p := pull s
  let w := pull16 (p.2.setP (pulledStatus p.1))
  w.2.setPc w.1

/-- `raise Fault(kind, {opcode, pc})`: the run state becomes Faulted with the record, nothing else changes (60 R501). Log 7. -/
def raiseFault (kind : FaultKind) (op : Byte) (s : State) : State :=
  s.setRun (.faulted ⟨kind, op, s.cpu.pc⟩)

/-! ### The Bus clock -/

/-- The host's input inside the frame callback: the next value it stores in `pad.buttons`, if it stores one (60 R566, R575, R584). Log 11. -/
def hostInput (s : State) : State :=
  match s.host.inputs with
  | [] => s
  | b :: rest => { s with pad := { s.pad with buttons := b }, host := { s.host with inputs := rest } }

/-- The frame-ready callback: the host receives the view, and may set the buttons (60 R566). Log 10. -/
def frameCallback (s : State) : State :=
  hostInput { s with host := { s.host with frames := s.host.frames + 1, view := some (frameView s.ppu) } }

/-- PPU cycles per CPU cycle (00 R9). -/
def ppuRatio : Nat := 3

/-- `Bus.tick(c)` (60 R565). -/
def busTick (c : Nat) (s : State) : State :=
  let r := ppuTick (ppuRatio * c) s.ppu
  let t := { s with ppu := r.1, bus := { s.bus with cycles := s.bus.cycles + c } }
  if r.2 then frameCallback t else t

/-- The host sets the controller's buttons between two steps (60 R575, R584). Log 11. -/
def setButtons (b : Byte) (s : State) : State := s.setPad { s.pad with buttons := b }

end Sys2Proof.Machine
end

