-- ==== Sys2Proof/Syntax/Operand.lean ====
section
/-! DEFINITION. The 13 addressing modes (40 R204) and an operand: a mode together with the operand bytes its format carries
(30 R150, R153-R156). Absolute operands are held as the assembled word, high byte `b2` and low byte `b1` (30 R155). -/

namespace Sys2Proof

/-- The addressing-mode tags, "a closed tag set (13 variants)" (40 R204, C5). -/
inductive Mode where
  | impl | acc | imm | zp | zpx | zpy | abs | absx | absy | ind | indx | indy | rel
deriving DecidableEq, Repr

/-- An operand in one of the 13 modes, with the bytes that follow the opcode (30 R150). -/
inductive Operand where
  /-- no operand (40 R205) -/
  | impl
  /-- the accumulator itself (40 R206) -/
  | acc
  /-- the byte `b1` is the value (30 R153, 40 R207) -/
  | imm (b1 : Byte)
  /-- zero page (40 R208) -/
  | zp (b1 : Byte)
  /-- zero page indexed by X (40 R209) -/
  | zpx (b1 : Byte)
  /-- zero page indexed by Y (40 R210) -/
  | zpy (b1 : Byte)
  /-- absolute (40 R211) -/
  | abs (addr : Word)
  /-- absolute indexed by X (40 R212) -/
  | absx (base : Word)
  /-- absolute indexed by Y (40 R213) -/
  | absy (base : Word)
  /-- indirect, JMP only (40 R214) -/
  | ind (ptr : Word)
  /-- indexed indirect, `(zp,X)` (40 R215) -/
  | indx (b1 : Byte)
  /-- indirect indexed, `(zp),Y` (40 R216) -/
  | indy (b1 : Byte)
  /-- signed branch offset (30 R156, 40 R217) -/
  | rel (b1 : Byte)
deriving DecidableEq, Repr

/-- The mode tag of an operand. -/
def Operand.mode : Operand → Mode
  | .impl => .impl
  | .acc => .acc
  | .imm _ => .imm
  | .zp _ => .zp
  | .zpx _ => .zpx
  | .zpy _ => .zpy
  | .abs _ => .abs
  | .absx _ => .absx
  | .absy _ => .absy
  | .ind _ => .ind
  | .indx _ => .indx
  | .indy _ => .indy
  | .rel _ => .rel

/-- The instruction length a mode decides (30 R150); BRK's length of 2 is its descriptor's own (D5). -/
def Mode.length : Mode → Nat
  | .impl => 1
  | .acc => 1
  | .imm => 2
  | .zp => 2
  | .zpx => 2
  | .zpy => 2
  | .indx => 2
  | .indy => 2
  | .rel => 2
  | .abs => 3
  | .absx => 3
  | .absy => 3
  | .ind => 3

end Sys2Proof
end

