-- ==== Sys2Proof/Syntax.lean ====
section
/-! DEFINITION. The instruction set as syntax: one constructor per mnemonic of the opcode table (30 R158), the rows of one mnemonic
being the operand forms of its constructor (WellFormed says which). Every one of the 256 rows is exactly one well-formed form: where two
rows share mnemonic and mode (NOP, ANC, JAM; 30 R160, R162) the constructor carries the opcode byte. -/

namespace Sys2Proof

/-- An instruction of the 6502 core (30 R157, R158). -/
inductive Instr where
  /-- LDA, load accumulator (R250) -/
  | lda (o : Operand)
  /-- LDX, load X (R251) -/
  | ldx (o : Operand)
  /-- LDY, load Y (R252) -/
  | ldy (o : Operand)
  /-- STA, store accumulator (R253) -/
  | sta (o : Operand)
  /-- STX, store X (R254) -/
  | stx (o : Operand)
  /-- STY, store Y (R255) -/
  | sty (o : Operand)
  /-- TAX, A to X (R256) -/
  | tax
  /-- TAY, A to Y (R257) -/
  | tay
  /-- TXA, X to A (R258) -/
  | txa
  /-- TYA, Y to A (R259) -/
  | tya
  /-- TSX, S to X (R260) -/
  | tsx
  /-- TXS, X to S (R261) -/
  | txs
  /-- ADC, add with carry (R302) -/
  | adc (o : Operand)
  /-- SBC, subtract with borrow (R303) -/
  | sbc (o : Operand)
  /-- AND, logical and (R304) -/
  | and (o : Operand)
  /-- ORA, inclusive or (R305) -/
  | ora (o : Operand)
  /-- EOR, exclusive or (R306) -/
  | eor (o : Operand)
  /-- BIT, test bits (R307) -/
  | bit (o : Operand)
  /-- CMP, compare with A (R308) -/
  | cmp (o : Operand)
  /-- CPX, compare with X (R309) -/
  | cpx (o : Operand)
  /-- CPY, compare with Y (R310) -/
  | cpy (o : Operand)
  /-- INC, increment memory (R311) -/
  | inc (o : Operand)
  /-- DEC, decrement memory (R312) -/
  | dec (o : Operand)
  /-- INX, increment X (R313) -/
  | inx
  /-- INY, increment Y (R314) -/
  | iny
  /-- DEX, decrement X (R315) -/
  | dex
  /-- DEY, decrement Y (R316) -/
  | dey
  /-- ASL, arithmetic shift left (R351) -/
  | asl (o : Operand)
  /-- LSR, logical shift right (R352) -/
  | lsr (o : Operand)
  /-- ROL, rotate left (R353) -/
  | rol (o : Operand)
  /-- ROR, rotate right (R354) -/
  | ror (o : Operand)
  /-- BPL, branch if N = 0 (R371) -/
  | bpl (off : Byte)
  /-- BMI, branch if N = 1 (R372) -/
  | bmi (off : Byte)
  /-- BVC, branch if V = 0 (R373) -/
  | bvc (off : Byte)
  /-- BVS, branch if V = 1 (R374) -/
  | bvs (off : Byte)
  /-- BCC, branch if C = 0 (R375) -/
  | bcc (off : Byte)
  /-- BCS, branch if C = 1 (R376) -/
  | bcs (off : Byte)
  /-- BNE, branch if Z = 0 (R377) -/
  | bne (off : Byte)
  /-- BEQ, branch if Z = 1 (R378) -/
  | beq (off : Byte)
  /-- JMP, jump, absolute or indirect (R379, R380) -/
  | jmp (o : Operand)
  /-- JSR, jump to subroutine (R381) -/
  | jsr (target : Word)
  /-- RTS, return from subroutine (R382) -/
  | rts
  /-- BRK, software interrupt (R383) -/
  | brk
  /-- RTI, return from interrupt (R384) -/
  | rti
  /-- PHA, push A (R400) -/
  | pha
  /-- PLA, pull A (R401) -/
  | pla
  /-- PHP, push P (R402) -/
  | php
  /-- PLP, pull P (R403) -/
  | plp
  /-- CLC, clear carry (R404) -/
  | clc
  /-- SEC, set carry (R405) -/
  | sec
  /-- CLI, clear interrupt-disable (R406) -/
  | cli
  /-- SEI, set interrupt-disable (R407) -/
  | sei
  /-- CLV, clear overflow (R408) -/
  | clv
  /-- CLD, clear decimal (R409) -/
  | cld
  /-- SED, set decimal (R410) -/
  | sed
  /-- NOP, no operation, official and unofficial forms, with the opcode byte (R453, R451, R452, R411) -/
  | nop (op : Byte) (o : Operand)
  /-- SLO, shift left then OR (R431) -/
  | slo (o : Operand)
  /-- RLA, rotate left then AND (R432) -/
  | rla (o : Operand)
  /-- SRE, shift right then EOR (R433) -/
  | sre (o : Operand)
  /-- RRA, rotate right then ADC (R434) -/
  | rra (o : Operand)
  /-- SAX, store A AND X (R435) -/
  | sax (o : Operand)
  /-- LAX, load A and X (R436) -/
  | lax (o : Operand)
  /-- DCP, decrement then compare (R437) -/
  | dcp (o : Operand)
  /-- ISB, increment then subtract (R438) -/
  | isb (o : Operand)
  /-- ANC, AND then copy N to C, with the opcode byte (R439) -/
  | anc (op : Byte) (b1 : Byte)
  /-- ALR, AND then LSR (R440) -/
  | alr (b1 : Byte)
  /-- ARR, AND then ROR with special flags (R441) -/
  | arr (b1 : Byte)
  /-- SBX, (A AND X) minus immediate into X (R442) -/
  | sbx (b1 : Byte)
  /-- ANE, unstable AND of A, X and immediate (R443) -/
  | ane (b1 : Byte)
  /-- LXA, unstable load of A and X (R444) -/
  | lxa (b1 : Byte)
  /-- USBC, second encoding of SBC immediate (R450) -/
  | usbc (b1 : Byte)
  /-- LAS, AND memory with S into A, X, S (R445) -/
  | las (base : Word)
  /-- TAS, A AND X into S, high-byte store (R446) -/
  | tas (base : Word)
  /-- SHA, high-byte store of A AND X (R447) -/
  | sha (o : Operand)
  /-- SHX, high-byte store of X (R448) -/
  | shx (base : Word)
  /-- SHY, high-byte store of Y (R449) -/
  | shy (base : Word)
  /-- JAM, halts the CPU, with the opcode byte (R454) -/
  | jam (op : Byte)
deriving DecidableEq, Repr

end Sys2Proof
end

