-- ==== Sys2Proof/Machine/Operands.lean ====
section
/-! DEFINITION. The address decoder and the operand forms (40 R204-R218), and the three shapes an instruction has over them: read its
operand, store to it, read and write it (40 R218, R222). -/

namespace Sys2Proof.Machine

/-- What the address decoder answers: `(effective_address, page_crossed)` (40 R204), the base address before indexing (46 R446, R447),
and the state after the pointer reads of the mode (40 R220). -/
structure Resolved where
  ea : Word
  base : Word
  crossed : Bool
  st : State
deriving DecidableEq, Repr

/-- An indexed address: base plus index, and whether its page is another than the base's (40 R212, R213, R216). -/
def indexed (base : Word) (index : Byte) (s : State) : Resolved :=
  ⟨base + zext16 index, base, hiByte base != hiByte (base + zext16 index), s⟩

/-- An unindexed address. -/
def direct (ea : Word) (s : State) : Resolved := ⟨ea, ea, false, s⟩

/-- The address decoder (40 R205-R217); none for the modes that have no effective address (40 R219). -/
def resolve (o : Operand) (s : State) : Option Resolved :=
  match o with
  | .zp b1 => some (direct (zext16 b1) s)
  | .zpx b1 => some (direct (zext16 (b1 + s.cpu.x)) s)
  | .zpy b1 => some (direct (zext16 (b1 + s.cpu.y)) s)
  | .abs w => some (direct w s)
  | .absx base => some (indexed base s.cpu.x s)
  | .absy base => some (indexed base s.cpu.y s)
  | .ind ptr => some (direct (read16InPage ptr s).1 (read16InPage ptr s).2)
  | .indx b1 => some (direct (read16ZP (b1 + s.cpu.x) s).1 (read16ZP (b1 + s.cpu.x) s).2)
  | .indy b1 => some (indexed (read16ZP b1 s).1 s.cpu.y (read16ZP b1 s).2)
  | .impl | .acc | .imm _ | .rel _ => none

/-- The page-cross penalty of a read instruction: one cycle when the page was crossed (40 R231). -/
def chargePage (crossed : Bool) (s : State) : State := if crossed then s.charge 1 else s

/-- The operand value `M` of a read instruction, read exactly once, with the page-cross penalty (40 R218, R231). -/
def readOperand (o : Operand) (s : State) : Option (Byte × State) :=
  match o with
  | .imm b1 => some (b1, s)
  | .acc => some (s.cpu.a, s)
  | _ =>
    match resolve o s with
    | some r => some (memRead r.ea (chargePage r.crossed r.st))
    | none => none

/-- What a meaning answers. -/
abbrev Answer := Host.Outcome State Fault Refusal

/-- A read instruction: `M` read, then `k` on it, then `pc <- next` (40 R202, R218). -/
def readThen (o : Operand) (s : State) (k : Byte → State → State) : Answer :=
  match readOperand o s with
  | some r => .next ((k r.1 r.2).advance o.mode.length)
  | none => .fault (.modeMismatch s.cpu.pc)

/-- A store instruction: `v` written to EA, which is not read, then `pc <- next` (40 R218, 41 R253). -/
def storeThen (o : Operand) (s : State) (v : Byte) : Answer :=
  match resolve o s with
  | some r => .next ((memWrite r.ea v r.st).advance o.mode.length)
  | none => .fault (.modeMismatch s.cpu.pc)

/-- A read-modify-write instruction: `M` read once, `f M` written once, then `k M` on the state, then `pc <- next` (40 R222). `f` also
sees P, for the rotates' old carry. -/
def modifyThen (o : Operand) (s : State) (f : Byte → Byte → Byte) (k : Byte → State → State) : Answer :=
  match resolve o s with
  | some r =>
    let m := memRead r.ea r.st
    .next ((k m.1 (memWrite r.ea (f m.2.cpu.p m.1) m.2)).advance o.mode.length)
  | none => .fault (.modeMismatch s.cpu.pc)

/-- The branch target `next + sext_16(b1)` (30 R156, 40 R217). -/
def branchTarget (off : Byte) (s : State) : Word := s.cpu.pc + 2 + sext16 off

/-- The common branch rule (44 R370). -/
def branchIf (taken : Bool) (off : Byte) (s : State) : State :=
  if taken then
    ((s.charge 1).charge (if hiByte (s.cpu.pc + 2) = hiByte (branchTarget off s) then 0 else 1)).setPc (branchTarget off s)
  else s.advance 2

/-- The store of the high-byte composites SHA, SHX, SHY and TAS (46 R446-R449, D28): the value is `reg & (H + 1)` with `H` the base's
high byte, and on a page cross the value replaces the address's high byte. -/
def storeHigh (r : Resolved) (reg : Byte) : State :=
  let v := reg &&& (hiByte r.base + 1)
  memWrite (if r.crossed then joinBytes v (loByte r.ea) else r.ea) v r.st

end Sys2Proof.Machine
end

