-- ==== Sys2Proof/Machine/Arith.lean ====
section
/-! DEFINITION. Arithmetic, logical, compare, increment and decrement (42_arithmetic_logic.md). -/

namespace Sys2Proof.Machine

/-- ADC: `ADD8(M)` (42 R302). -/
def execAdc (o : Operand) (s : State) : Answer := readThen o s fun m t => t.add8 m

/-- SBC: `ADD8(~M & $FF)` (42 R303). -/
def execSbc (o : Operand) (s : State) : Answer := readThen o s fun m t => t.add8 (~~~m)

/-- AND: `A <- A & M; SetZN(A)` (42 R304). -/
def execAnd (o : Operand) (s : State) : Answer :=
  readThen o s fun m t => (t.setA (t.cpu.a &&& m)).setZN (t.cpu.a &&& m)

/-- ORA: `A <- A | M; SetZN(A)` (42 R305). -/
def execOra (o : Operand) (s : State) : Answer :=
  readThen o s fun m t => (t.setA (t.cpu.a ||| m)).setZN (t.cpu.a ||| m)

/-- EOR: `A <- A ^ M; SetZN(A)` (42 R306). -/
def execEor (o : Operand) (s : State) : Answer :=
  readThen o s fun m t => (t.setA (t.cpu.a ^^^ m)).setZN (t.cpu.a ^^^ m)

/-- BIT: Z from `A & M`, N and V from bits 7 and 6 of M (42 R307). -/
def execBit (o : Operand) (s : State) : Answer :=
  readThen o s fun m t => ((t.setFlag .z (t.cpu.a &&& m == 0)).setFlag .n (m.getLsbD 7)).setFlag .v (m.getLsbD 6)

/-- CMP: `COMPARE(A, M)` (42 R308). -/
def execCmp (o : Operand) (s : State) : Answer := readThen o s fun m t => t.compare t.cpu.a m

/-- CPX: `COMPARE(X, M)` (42 R309). -/
def execCpx (o : Operand) (s : State) : Answer := readThen o s fun m t => t.compare t.cpu.x m

/-- CPY: `COMPARE(Y, M)` (42 R310). -/
def execCpy (o : Operand) (s : State) : Answer := readThen o s fun m t => t.compare t.cpu.y m

/-- INC: `M <- (M + 1) & $FF; SetZN(r)` (42 R311). -/
def execInc (o : Operand) (s : State) : Answer := modifyThen o s (fun _ m => m + 1) fun m t => t.setZN (m + 1)

/-- DEC: `M <- (M - 1) & $FF; SetZN(r)` (42 R312). -/
def execDec (o : Operand) (s : State) : Answer := modifyThen o s (fun _ m => m - 1) fun m t => t.setZN (m - 1)

/-- INX: `X <- (X + 1) & $FF; SetZN(X)` (42 R313). -/
def execInx (s : State) : Answer := .next (((s.setX (s.cpu.x + 1)).setZN (s.cpu.x + 1)).advance 1)

/-- INY: `Y <- (Y + 1) & $FF; SetZN(Y)` (42 R314). -/
def execIny (s : State) : Answer := .next (((s.setY (s.cpu.y + 1)).setZN (s.cpu.y + 1)).advance 1)

/-- DEX: `X <- (X - 1) & $FF; SetZN(X)` (42 R315). -/
def execDex (s : State) : Answer := .next (((s.setX (s.cpu.x - 1)).setZN (s.cpu.x - 1)).advance 1)

/-- DEY: `Y <- (Y - 1) & $FF; SetZN(Y)` (42 R316). -/
def execDey (s : State) : Answer := .next (((s.setY (s.cpu.y - 1)).setZN (s.cpu.y - 1)).advance 1)

end Sys2Proof.Machine
end

