-- ==== Sys2Proof/Machine/Control.lean ====
section
/-! DEFINITION. Branches, jumps, calls, returns and BRK (44_control_flow.md). -/

namespace Sys2Proof.Machine

/-- BPL: branch if `P.N = 0` (44 R371). -/
def execBpl (off : Byte) (s : State) : Answer := .next (branchIf (!getFlag s.cpu.p .n) off s)

/-- BMI: branch if `P.N = 1` (44 R372). -/
def execBmi (off : Byte) (s : State) : Answer := .next (branchIf (getFlag s.cpu.p .n) off s)

/-- BVC: branch if `P.V = 0` (44 R373). -/
def execBvc (off : Byte) (s : State) : Answer := .next (branchIf (!getFlag s.cpu.p .v) off s)

/-- BVS: branch if `P.V = 1` (44 R374). -/
def execBvs (off : Byte) (s : State) : Answer := .next (branchIf (getFlag s.cpu.p .v) off s)

/-- BCC: branch if `P.C = 0` (44 R375). -/
def execBcc (off : Byte) (s : State) : Answer := .next (branchIf (!getFlag s.cpu.p .c) off s)

/-- BCS: branch if `P.C = 1` (44 R376). -/
def execBcs (off : Byte) (s : State) : Answer := .next (branchIf (getFlag s.cpu.p .c) off s)

/-- BNE: branch if `P.Z = 0` (44 R377). -/
def execBne (off : Byte) (s : State) : Answer := .next (branchIf (!getFlag s.cpu.p .z) off s)

/-- BEQ: branch if `P.Z = 1` (44 R378). -/
def execBeq (off : Byte) (s : State) : Answer := .next (branchIf (getFlag s.cpu.p .z) off s)

/-- JMP: `pc <- EA`, absolute or through a pointer that wraps in its page (44 R379, R380). -/
def execJmp (o : Operand) (s : State) : Answer :=
  match resolve o s with
  | some r => .next (r.st.setPc r.ea)
  | none => .fault (.modeMismatch s.cpu.pc)

/-- JSR: `Push16(PC + 2); pc <- b2:b1` (44 R381). -/
def execJsr (target : Word) (s : State) : Answer := .next ((push16 (s.cpu.pc + 2) s).setPc target)

/-- RTS: `pc <- Pull16() + 1` (44 R382). -/
def execRts (s : State) : Answer := .next ((pull16 s).2.setPc ((pull16 s).1 + 1))

/-- BRK: the software interrupt, with return address `PC + 2` and the break bit set in the pushed image (44 R383). -/
def execBrk (s : State) : Answer := .next (enterInterrupt (s.cpu.pc + 2) true brkVector s)

/-- RTI (44 R384). -/
def execRti (s : State) : Answer := .next (returnFromInterrupt s)

end Sys2Proof.Machine
end

