-- ==== Sys2Proof/Machine/LoadStore.lean ====
section
/-! DEFINITION. Loads, stores and register transfers (41_load_store_transfer.md). -/

namespace Sys2Proof.Machine

/-- LDA: `A <- M; SetZN(A)` (41 R250). -/
def execLda (o : Operand) (s : State) : Answer := readThen o s fun m t => (t.setA m).setZN m

/-- LDX: `X <- M; SetZN(X)` (41 R251). -/
def execLdx (o : Operand) (s : State) : Answer := readThen o s fun m t => (t.setX m).setZN m

/-- LDY: `Y <- M; SetZN(Y)` (41 R252). -/
def execLdy (o : Operand) (s : State) : Answer := readThen o s fun m t => (t.setY m).setZN m

/-- STA: `MemWrite(EA, 1, A)` (41 R253). -/
def execSta (o : Operand) (s : State) : Answer := storeThen o s s.cpu.a

/-- STX: `MemWrite(EA, 1, X)` (41 R254). -/
def execStx (o : Operand) (s : State) : Answer := storeThen o s s.cpu.x

/-- STY: `MemWrite(EA, 1, Y)` (41 R255). -/
def execSty (o : Operand) (s : State) : Answer := storeThen o s s.cpu.y

/-- TAX: `X <- A; SetZN(X)` (41 R256). -/
def execTax (s : State) : Answer := .next (((s.setX s.cpu.a).setZN s.cpu.a).advance 1)

/-- TAY: `Y <- A; SetZN(Y)` (41 R257). -/
def execTay (s : State) : Answer := .next (((s.setY s.cpu.a).setZN s.cpu.a).advance 1)

/-- TXA: `A <- X; SetZN(A)` (41 R258). -/
def execTxa (s : State) : Answer := .next (((s.setA s.cpu.x).setZN s.cpu.x).advance 1)

/-- TYA: `A <- Y; SetZN(A)` (41 R259). -/
def execTya (s : State) : Answer := .next (((s.setA s.cpu.y).setZN s.cpu.y).advance 1)

/-- TSX: `X <- S; SetZN(X)` (41 R260). -/
def execTsx (s : State) : Answer := .next (((s.setX s.cpu.sp).setZN s.cpu.sp).advance 1)

/-- TXS: `S <- X`, and no flag (41 R261). -/
def execTxs (s : State) : Answer := .next ((s.setSp s.cpu.x).advance 1)

end Sys2Proof.Machine
end

