-- ==== Sys2Proof/Machine/Shift.lean ====
section
/-! DEFINITION. Shifts and rotates (43_shift_rotate.md). -/

namespace Sys2Proof.Machine

/-- A shift of the accumulator or of memory: the result to the target, then `P.C <- carry_out; SetZN(r)` (43 R350). -/
def shiftThen (o : Operand) (s : State) (f : Byte → Bool → Shifted) : Answer :=
  match o with
  | .acc =>
    let r := f s.cpu.a (getFlag s.cpu.p .c)
    .next (((s.setA r.value).setP (shiftFlags s.cpu.p r)).advance 1)
  | _ =>
    modifyThen o s (fun p m => (f m (getFlag p .c)).value) fun m t =>
      t.setP (shiftFlags t.cpu.p (f m (getFlag t.cpu.p .c)))

/-- ASL on A or on memory: `(r, c) <- ASL8`, then `P.C <- c; SetZN(r)` (43 R351). -/
def execAsl (o : Operand) (s : State) : Answer := shiftThen o s asl8

/-- LSR on A or on memory: `(r, c) <- LSR8`, then `P.C <- c; SetZN(r)` (43 R352). -/
def execLsr (o : Operand) (s : State) : Answer := shiftThen o s lsr8

/-- ROL on A or on memory: `(r, c) <- ROL8`, then `P.C <- c; SetZN(r)` (43 R353). -/
def execRol (o : Operand) (s : State) : Answer := shiftThen o s rol8

/-- ROR on A or on memory: `(r, c) <- ROR8`, then `P.C <- c; SetZN(r)` (43 R354). -/
def execRor (o : Operand) (s : State) : Answer := shiftThen o s ror8

end Sys2Proof.Machine
end

