-- ==== Sys2Proof/Machine/Stack.lean ====
section
/-! DEFINITION. Stack, flag and no-operation instructions (45_stack_flag_misc.md; the unofficial NOPs, 46 R451-R453). -/

namespace Sys2Proof.Machine

/-- PHA: `Push(A)` (45 R400). -/
def execPha (s : State) : Answer := .next ((push s.cpu.a s).advance 1)

/-- PLA: `A <- Pull(); SetZN(A)` (45 R401). -/
def execPla (s : State) : Answer := .next ((((pull s).2.setA (pull s).1).setZN (pull s).1).advance 1)

/-- PHP: `Push(PushImage(true))` (45 R402). -/
def execPhp (s : State) : Answer := .next ((push (pushImage s.cpu.p true) s).advance 1)

/-- PLP: `P <- (Pull() & $CF) | $20` (45 R403). -/
def execPlp (s : State) : Answer := .next (((pull s).2.setP (pulledStatus (pull s).1)).advance 1)

/-- CLC: `P.C <- 0` (45 R404). -/
def execClc (s : State) : Answer := .next ((s.setFlag .c false).advance 1)

/-- SEC: `P.C <- 1` (45 R405). -/
def execSec (s : State) : Answer := .next ((s.setFlag .c true).advance 1)

/-- CLI: `P.I <- 0` (45 R406). -/
def execCli (s : State) : Answer := .next ((s.setFlag .i false).advance 1)

/-- SEI: `P.I <- 1` (45 R407). -/
def execSei (s : State) : Answer := .next ((s.setFlag .i true).advance 1)

/-- CLV: `P.V <- 0` (45 R408). -/
def execClv (s : State) : Answer := .next ((s.setFlag .v false).advance 1)

/-- CLD: `P.D <- 0` (45 R409). -/
def execCld (s : State) : Answer := .next ((s.setFlag .d false).advance 1)

/-- SED: `P.D <- 1` (45 R410). -/
def execSed (s : State) : Answer := .next ((s.setFlag .d true).advance 1)

/-- NOP in every form: one byte (45 R411, 46 R451), an immediate that is discarded (46 R452), or a memory operand whose read is
performed with its side effects and its page penalty (46 R453, D30). -/
def execNop (_op : Byte) (o : Operand) (s : State) : Answer :=
  match o with
  | .impl => .next (s.advance 1)
  | _ => readThen o s fun _ t => t

end Sys2Proof.Machine
end

