-- ==== Sys2Proof/Machine/Unofficial.lean ====
section
/-! DEFINITION. The unofficial opcodes (46_unofficial.md); the unofficial NOPs stand with NOP in Stack.lean. -/

namespace Sys2Proof.Machine

/-- SLO: shift left, then OR into A (46 R431). -/
def execSlo (o : Operand) (s : State) : Answer :=
  modifyThen o s (fun _ m => (asl8 m false).value) fun m t =>
    let r := asl8 m false
    ((t.setFlag .c r.carry).setA (t.cpu.a ||| r.value)).setZN (t.cpu.a ||| r.value)

/-- RLA: rotate left, then AND into A (46 R432). -/
def execRla (o : Operand) (s : State) : Answer :=
  modifyThen o s (fun p m => (rol8 m (getFlag p .c)).value) fun m t =>
    let r := rol8 m (getFlag t.cpu.p .c)
    ((t.setFlag .c r.carry).setA (t.cpu.a &&& r.value)).setZN (t.cpu.a &&& r.value)

/-- SRE: shift right, then exclusive-or into A (46 R433). -/
def execSre (o : Operand) (s : State) : Answer :=
  modifyThen o s (fun _ m => (lsr8 m false).value) fun m t =>
    let r := lsr8 m false
    ((t.setFlag .c r.carry).setA (t.cpu.a ^^^ r.value)).setZN (t.cpu.a ^^^ r.value)

/-- RRA: rotate right, then add with the rotate's carry out (46 R434). -/
def execRra (o : Operand) (s : State) : Answer :=
  modifyThen o s (fun p m => (ror8 m (getFlag p .c)).value) fun m t =>
    let r := ror8 m (getFlag t.cpu.p .c)
    (t.setFlag .c r.carry).add8 r.value

/-- DCP: decrement, then compare with A (46 R437). -/
def execDcp (o : Operand) (s : State) : Answer :=
  modifyThen o s (fun _ m => m - 1) fun m t =>
    t.compare t.cpu.a (m - 1)

/-- ISB: increment, then subtract with borrow (46 R438). -/
def execIsb (o : Operand) (s : State) : Answer :=
  modifyThen o s (fun _ m => m + 1) fun m t =>
    t.add8 (~~~(m + 1))

/-- SAX: `MemWrite(EA, 1, A & X)` (46 R435). -/
def execSax (o : Operand) (s : State) : Answer := storeThen o s (s.cpu.a &&& s.cpu.x)

/-- LAX: `A <- M; X <- M; SetZN(M)` (46 R436). -/
def execLax (o : Operand) (s : State) : Answer := readThen o s fun m t => ((t.setA m).setX m).setZN m

/-- ANC: `A <- A & b1; SetZN(A); P.C <- A[7]` (46 R439). -/
def execAnc (_op : Byte) (b1 : Byte) (s : State) : Answer :=
  let r := s.cpu.a &&& b1
  .next ((((s.setA r).setZN r).setFlag .c (r.getLsbD 7)).advance 2)

/-- ALR: `A & b1` shifted right into A, with its carry (46 R440). -/
def execAlr (b1 : Byte) (s : State) : Answer :=
  let r := lsr8 (s.cpu.a &&& b1) false
  .next (((s.setA r.value).setP (shiftFlags s.cpu.p r)).advance 2)

/-- ARR: `A & b1` rotated right into A, C from bit 6 and V from bits 6 and 5 of the result (46 R441). -/
def execArr (b1 : Byte) (s : State) : Answer :=
  let r := (ror8 (s.cpu.a &&& b1) (getFlag s.cpu.p .c)).value
  .next (((((s.setA r).setZN r).setFlag .c (r.getLsbD 6)).setFlag .v (r.getLsbD 6 ^^ r.getLsbD 5)).advance 2)

/-- SBX: `X <- (A & X) - b1`, C as in a compare, no borrow in (46 R442). -/
def execSbx (b1 : Byte) (s : State) : Answer :=
  let t := s.cpu.a &&& s.cpu.x
  .next (((s.setX (t - b1)).setP (compareFlags s.cpu.p t b1)).advance 2)

/-- ANE: `A <- (A | ANE_CONST) & X & b1; SetZN(A)` (46 R443, D27). Log 5. -/
def execAne (b1 : Byte) (s : State) : Answer :=
  let r := (s.cpu.a ||| Config.aneConst) &&& s.cpu.x &&& b1
  .next (((s.setA r).setZN r).advance 2)

/-- LXA: `A <- X <- (A | LXA_CONST) & b1; SetZN(v)` (46 R444, D27). Log 5. -/
def execLxa (b1 : Byte) (s : State) : Answer :=
  let v := (s.cpu.a ||| Config.lxaConst) &&& b1
  .next ((((s.setA v).setX v).setZN v).advance 2)

/-- USBC: SBC immediate in its second encoding (46 R450). -/
def execUsbc (b1 : Byte) (s : State) : Answer := .next ((s.add8 (~~~b1)).advance 2)

/-- LAS: `M & S` into A, X and S; SetZN (46 R445). -/
def execLas (base : Word) (s : State) : Answer :=
  readThen (.absy base) s fun m t =>
    let v := m &&& t.cpu.sp
    (((t.setA v).setX v).setSp v).setZN v

/-- TAS: `S <- A & X`, then the high-byte store of `A & X` (46 R446, D28). -/
def execTas (base : Word) (s : State) : Answer :=
  let t := s.setSp (s.cpu.a &&& s.cpu.x)
  .next ((storeHigh (indexed base t.cpu.y t) (t.cpu.a &&& t.cpu.x)).advance 3)

/-- SHA: the high-byte store of `A & X` (46 R447, D28). -/
def execSha (o : Operand) (s : State) : Answer :=
  match resolve o s with
  | some r => .next ((storeHigh r (s.cpu.a &&& s.cpu.x)).advance o.mode.length)
  | none => .fault (.modeMismatch s.cpu.pc)

/-- SHX: the high-byte store of X, indexed by Y (46 R448, D28). -/
def execShx (base : Word) (s : State) : Answer :=
  .next ((storeHigh (indexed base s.cpu.y s) s.cpu.x).advance 3)

/-- SHY: the high-byte store of Y, indexed by X (46 R449, D28). -/
def execShy (base : Word) (s : State) : Answer :=
  .next ((storeHigh (indexed base s.cpu.x s) s.cpu.y).advance 3)

/-- JAM: `raise Fault(JAM, {opcode, pc})`: the run state holds the record and the machine takes no further step (46 R454, 60 R501).
Log 7. -/
def execJam (op : Byte) (s : State) : Answer := .next (raiseFault .jam op s)

end Sys2Proof.Machine
end

