-- ==== Sys2Proof/Machine/Dispatch.lean ====
section
/-! DEFINITION. One arm per instruction, each a direct call of the instruction's meaning. -/

namespace Sys2Proof.Machine

def exec (i : Instr) (s : State) : Host.Outcome State Fault Refusal :=
  match i with
  | .lda o => Sys2Proof.Machine.execLda o s
  | .ldx o => Sys2Proof.Machine.execLdx o s
  | .ldy o => Sys2Proof.Machine.execLdy o s
  | .sta o => Sys2Proof.Machine.execSta o s
  | .stx o => Sys2Proof.Machine.execStx o s
  | .sty o => Sys2Proof.Machine.execSty o s
  | .tax => Sys2Proof.Machine.execTax s
  | .tay => Sys2Proof.Machine.execTay s
  | .txa => Sys2Proof.Machine.execTxa s
  | .tya => Sys2Proof.Machine.execTya s
  | .tsx => Sys2Proof.Machine.execTsx s
  | .txs => Sys2Proof.Machine.execTxs s
  | .adc o => Sys2Proof.Machine.execAdc o s
  | .sbc o => Sys2Proof.Machine.execSbc o s
  | .and o => Sys2Proof.Machine.execAnd o s
  | .ora o => Sys2Proof.Machine.execOra o s
  | .eor o => Sys2Proof.Machine.execEor o s
  | .bit o => Sys2Proof.Machine.execBit o s
  | .cmp o => Sys2Proof.Machine.execCmp o s
  | .cpx o => Sys2Proof.Machine.execCpx o s
  | .cpy o => Sys2Proof.Machine.execCpy o s
  | .inc o => Sys2Proof.Machine.execInc o s
  | .dec o => Sys2Proof.Machine.execDec o s
  | .inx => Sys2Proof.Machine.execInx s
  | .iny => Sys2Proof.Machine.execIny s
  | .dex => Sys2Proof.Machine.execDex s
  | .dey => Sys2Proof.Machine.execDey s
  | .asl o => Sys2Proof.Machine.execAsl o s
  | .lsr o => Sys2Proof.Machine.execLsr o s
  | .rol o => Sys2Proof.Machine.execRol o s
  | .ror o => Sys2Proof.Machine.execRor o s
  | .bpl off => Sys2Proof.Machine.execBpl off s
  | .bmi off => Sys2Proof.Machine.execBmi off s
  | .bvc off => Sys2Proof.Machine.execBvc off s
  | .bvs off => Sys2Proof.Machine.execBvs off s
  | .bcc off => Sys2Proof.Machine.execBcc off s
  | .bcs off => Sys2Proof.Machine.execBcs off s
  | .bne off => Sys2Proof.Machine.execBne off s
  | .beq off => Sys2Proof.Machine.execBeq off s
  | .jmp o => Sys2Proof.Machine.execJmp o s
  | .jsr target => Sys2Proof.Machine.execJsr target s
  | .rts => Sys2Proof.Machine.execRts s
  | .brk => Sys2Proof.Machine.execBrk s
  | .rti => Sys2Proof.Machine.execRti s
  | .pha => Sys2Proof.Machine.execPha s
  | .pla => Sys2Proof.Machine.execPla s
  | .php => Sys2Proof.Machine.execPhp s
  | .plp => Sys2Proof.Machine.execPlp s
  | .clc => Sys2Proof.Machine.execClc s
  | .sec => Sys2Proof.Machine.execSec s
  | .cli => Sys2Proof.Machine.execCli s
  | .sei => Sys2Proof.Machine.execSei s
  | .clv => Sys2Proof.Machine.execClv s
  | .cld => Sys2Proof.Machine.execCld s
  | .sed => Sys2Proof.Machine.execSed s
  | .nop op o => Sys2Proof.Machine.execNop op o s
  | .slo o => Sys2Proof.Machine.execSlo o s
  | .rla o => Sys2Proof.Machine.execRla o s
  | .sre o => Sys2Proof.Machine.execSre o s
  | .rra o => Sys2Proof.Machine.execRra o s
  | .sax o => Sys2Proof.Machine.execSax o s
  | .lax o => Sys2Proof.Machine.execLax o s
  | .dcp o => Sys2Proof.Machine.execDcp o s
  | .isb o => Sys2Proof.Machine.execIsb o s
  | .anc op b1 => Sys2Proof.Machine.execAnc op b1 s
  | .alr b1 => Sys2Proof.Machine.execAlr b1 s
  | .arr b1 => Sys2Proof.Machine.execArr b1 s
  | .sbx b1 => Sys2Proof.Machine.execSbx b1 s
  | .ane b1 => Sys2Proof.Machine.execAne b1 s
  | .lxa b1 => Sys2Proof.Machine.execLxa b1 s
  | .usbc b1 => Sys2Proof.Machine.execUsbc b1 s
  | .las base => Sys2Proof.Machine.execLas base s
  | .tas base => Sys2Proof.Machine.execTas base s
  | .sha o => Sys2Proof.Machine.execSha o s
  | .shx base => Sys2Proof.Machine.execShx base s
  | .shy base => Sys2Proof.Machine.execShy base s
  | .jam op => Sys2Proof.Machine.execJam op s

end Sys2Proof.Machine
end

