-- ==== Sys2Proof/Syntax/Mnemonic.lean ====
section
/-! DEFINITION. The mnemonic tags of the opcode table's descriptors (30 R157, R158). -/

namespace Sys2Proof

/-- The 77 mnemonics of the opcode table (30 R158). -/
inductive Mnemonic where
  | lda | ldx | ldy | sta | stx | sty | tax | tay | txa | tya | tsx
  | txs | adc | sbc | and | ora | eor | bit | cmp | cpx | cpy | inc
  | dec | inx | iny | dex | dey | asl | lsr | rol | ror | bpl | bmi
  | bvc | bvs | bcc | bcs | bne | beq | jmp | jsr | rts | brk | rti
  | pha | pla | php | plp | clc | sec | cli | sei | clv | cld | sed
  | nop | slo | rla | sre | rra | sax | lax | dcp | isb | anc | alr
  | arr | sbx | ane | lxa | usbc | las | tas | sha | shx | shy | jam
deriving DecidableEq, Repr

end Sys2Proof
end

