-- ==== Sys2Proof/WellFormed.lean ====
section
/-! DEFINITION. Which forms of an instruction the opcode table has (30 R158): the addressing modes each instruction rule of 41-46 lists,
and the opcode bytes of the three mnemonics whose rows share a mode (46 R439, R451-R454, 45 R411). -/

namespace Sys2Proof

/-- The eight modes of LDA, ADC, SBC, AND, ORA, EOR and CMP (41 R250, 42 R302-R308). -/
def Modes.read : List Mode := [.imm, .zp, .zpx, .abs, .absx, .absy, .indx, .indy]

/-- The seven modes of STA (41 R253). -/
def Modes.store : List Mode := [.zp, .zpx, .abs, .absx, .absy, .indx, .indy]

/-- The four memory modes of INC and DEC (42 R311, R312). -/
def Modes.rmw : List Mode := [.zp, .zpx, .abs, .absx]

/-- The five modes of the shifts and rotates (43 R351-R354). -/
def Modes.shift : List Mode := [.acc, .zp, .zpx, .abs, .absx]

/-- The seven modes of the read-modify-write composites (46 section 1). -/
def Modes.composite : List Mode := [.indx, .zp, .abs, .indy, .zpx, .absy, .absx]

/-- The three modes of CPX and CPY (42 R309, R310). -/
def Modes.compareIndex : List Mode := [.imm, .zp, .abs]

/-- The 28 NOP rows: opcode and mode (45 R411, 46 R451-R453). -/
def nopForms : List (Byte × Mode) :=
  [(0xEA, .impl), (0x1A, .impl), (0x3A, .impl), (0x5A, .impl), (0x7A, .impl), (0xDA, .impl), (0xFA, .impl)] ++
  [(0x80, .imm), (0x82, .imm), (0x89, .imm), (0xC2, .imm), (0xE2, .imm)] ++
  [(0x04, .zp), (0x44, .zp), (0x64, .zp), (0x14, .zpx), (0x34, .zpx), (0x54, .zpx), (0x74, .zpx), (0xD4, .zpx), (0xF4, .zpx)] ++
  [(0x0C, .abs), (0x1C, .absx), (0x3C, .absx), (0x5C, .absx), (0x7C, .absx), (0xDC, .absx), (0xFC, .absx)]

/-- The twelve JAM bytes (30 R160, 46 R454). -/
def jamOpcodes : List Byte := [0x02, 0x12, 0x22, 0x32, 0x42, 0x52, 0x62, 0x72, 0x92, 0xB2, 0xD2, 0xF2]

/-- The two ANC bytes (46 R439). -/
def ancOpcodes : List Byte := [0x0B, 0x2B]

/-- Is the instruction a row of the opcode table? Each arm is the opcode list of the instruction's rule. -/
def Instr.wf : Instr → Bool
  | .lda o => Modes.read.contains o.mode
  | .ldx o => [Mode.imm, .zp, .zpy, .abs, .absy].contains o.mode
  | .ldy o => [Mode.imm, .zp, .zpx, .abs, .absx].contains o.mode
  | .sta o => Modes.store.contains o.mode
  | .stx o => [Mode.zp, .zpy, .abs].contains o.mode
  | .sty o => [Mode.zp, .zpx, .abs].contains o.mode
  | .adc o => Modes.read.contains o.mode
  | .sbc o => Modes.read.contains o.mode
  | .and o => Modes.read.contains o.mode
  | .ora o => Modes.read.contains o.mode
  | .eor o => Modes.read.contains o.mode
  | .bit o => [Mode.zp, .abs].contains o.mode
  | .cmp o => Modes.read.contains o.mode
  | .cpx o => Modes.compareIndex.contains o.mode
  | .cpy o => Modes.compareIndex.contains o.mode
  | .inc o => Modes.rmw.contains o.mode
  | .dec o => Modes.rmw.contains o.mode
  | .asl o => Modes.shift.contains o.mode
  | .lsr o => Modes.shift.contains o.mode
  | .rol o => Modes.shift.contains o.mode
  | .ror o => Modes.shift.contains o.mode
  | .jmp o => [Mode.abs, .ind].contains o.mode
  | .nop op o => nopForms.contains (op, o.mode)
  | .slo o => Modes.composite.contains o.mode
  | .rla o => Modes.composite.contains o.mode
  | .sre o => Modes.composite.contains o.mode
  | .rra o => Modes.composite.contains o.mode
  | .dcp o => Modes.composite.contains o.mode
  | .isb o => Modes.composite.contains o.mode
  | .sax o => [Mode.indx, .zp, .abs, .zpy].contains o.mode
  | .lax o => [Mode.indx, .zp, .abs, .indy, .zpy, .absy].contains o.mode
  | .anc op _ => ancOpcodes.contains op
  | .sha o => [Mode.indy, .absy].contains o.mode
  | .jam op => jamOpcodes.contains op
  | .tax | .tay | .txa | .tya | .tsx | .txs => true
  | .inx | .iny | .dex | .dey => true
  | .bpl _ | .bmi _ | .bvc _ | .bvs _ | .bcc _ | .bcs _ | .bne _ | .beq _ => true
  | .jsr _ | .rts | .brk | .rti => true
  | .pha | .pla | .php | .plp => true
  | .clc | .sec | .cli | .sei | .clv | .cld | .sed => true
  | .alr _ | .arr _ | .sbx _ | .ane _ | .lxa _ | .usbc _ => true
  | .las _ | .tas _ | .shx _ | .shy _ => true

end Sys2Proof
end

