-- ==== Sys2Proof/Decode.lean ====
section
/-! DEFINITION. The opcode table (30 R157, R158), the decoder read from it, and the encoder, written apart from the table out of the
opcode lists of the instruction rules (41-46), so that the round trip checks one transcription against the other. -/

namespace Sys2Proof

/-- The class column of the table (30 R158-R161). -/
inductive OpcodeClass where
  | official | unofficial | unstable | jam
deriving DecidableEq, Repr

/-- "exactly one descriptor" per opcode byte: mnemonic and mode tags, length, base cycle cost, page-cross flag, class (30 R157, R158). -/
structure Descriptor where
  mnemonic : Mnemonic
  mode : Mode
  length : Nat
  baseCycles : Nat
  pagePenalty : Bool
  cls : OpcodeClass
deriving DecidableEq, Repr

/-- Rows `$00`-`$0F` of the table (30 R158). -/
def opcodeRows0 : List Descriptor := [
  ⟨.brk, .impl, 2, 7, false, .official⟩,  -- $00
  ⟨.ora, .indx, 2, 6, false, .official⟩,  -- $01
  ⟨.jam, .impl, 1, 2, false, .jam⟩,  -- $02
  ⟨.slo, .indx, 2, 8, false, .unofficial⟩,  -- $03
  ⟨.nop, .zp, 2, 3, false, .unofficial⟩,  -- $04
  ⟨.ora, .zp, 2, 3, false, .official⟩,  -- $05
  ⟨.asl, .zp, 2, 5, false, .official⟩,  -- $06
  ⟨.slo, .zp, 2, 5, false, .unofficial⟩,  -- $07
  ⟨.php, .impl, 1, 3, false, .official⟩,  -- $08
  ⟨.ora, .imm, 2, 2, false, .official⟩,  -- $09
  ⟨.asl, .acc, 1, 2, false, .official⟩,  -- $0A
  ⟨.anc, .imm, 2, 2, false, .unofficial⟩,  -- $0B
  ⟨.nop, .abs, 3, 4, false, .unofficial⟩,  -- $0C
  ⟨.ora, .abs, 3, 4, false, .official⟩,  -- $0D
  ⟨.asl, .abs, 3, 6, false, .official⟩,  -- $0E
  ⟨.slo, .abs, 3, 6, false, .unofficial⟩]  -- $0F

/-- Rows `$10`-`$1F` of the table (30 R158). -/
def opcodeRows1 : List Descriptor := [
  ⟨.bpl, .rel, 2, 2, false, .official⟩,  -- $10
  ⟨.ora, .indy, 2, 5, true, .official⟩,  -- $11
  ⟨.jam, .impl, 1, 2, false, .jam⟩,  -- $12
  ⟨.slo, .indy, 2, 8, false, .unofficial⟩,  -- $13
  ⟨.nop, .zpx, 2, 4, false, .unofficial⟩,  -- $14
  ⟨.ora, .zpx, 2, 4, false, .official⟩,  -- $15
  ⟨.asl, .zpx, 2, 6, false, .official⟩,  -- $16
  ⟨.slo, .zpx, 2, 6, false, .unofficial⟩,  -- $17
  ⟨.clc, .impl, 1, 2, false, .official⟩,  -- $18
  ⟨.ora, .absy, 3, 4, true, .official⟩,  -- $19
  ⟨.nop, .impl, 1, 2, false, .unofficial⟩,  -- $1A
  ⟨.slo, .absy, 3, 7, false, .unofficial⟩,  -- $1B
  ⟨.nop, .absx, 3, 4, true, .unofficial⟩,  -- $1C
  ⟨.ora, .absx, 3, 4, true, .official⟩,  -- $1D
  ⟨.asl, .absx, 3, 7, false, .official⟩,  -- $1E
  ⟨.slo, .absx, 3, 7, false, .unofficial⟩]  -- $1F

/-- Rows `$20`-`$2F` of the table (30 R158). -/
def opcodeRows2 : List Descriptor := [
  ⟨.jsr, .abs, 3, 6, false, .official⟩,  -- $20
  ⟨.and, .indx, 2, 6, false, .official⟩,  -- $21
  ⟨.jam, .impl, 1, 2, false, .jam⟩,  -- $22
  ⟨.rla, .indx, 2, 8, false, .unofficial⟩,  -- $23
  ⟨.bit, .zp, 2, 3, false, .official⟩,  -- $24
  ⟨.and, .zp, 2, 3, false, .official⟩,  -- $25
  ⟨.rol, .zp, 2, 5, false, .official⟩,  -- $26
  ⟨.rla, .zp, 2, 5, false, .unofficial⟩,  -- $27
  ⟨.plp, .impl, 1, 4, false, .official⟩,  -- $28
  ⟨.and, .imm, 2, 2, false, .official⟩,  -- $29
  ⟨.rol, .acc, 1, 2, false, .official⟩,  -- $2A
  ⟨.anc, .imm, 2, 2, false, .unofficial⟩,  -- $2B
  ⟨.bit, .abs, 3, 4, false, .official⟩,  -- $2C
  ⟨.and, .abs, 3, 4, false, .official⟩,  -- $2D
  ⟨.rol, .abs, 3, 6, false, .official⟩,  -- $2E
  ⟨.rla, .abs, 3, 6, false, .unofficial⟩]  -- $2F

/-- Rows `$30`-`$3F` of the table (30 R158). -/
def opcodeRows3 : List Descriptor := [
  ⟨.bmi, .rel, 2, 2, false, .official⟩,  -- $30
  ⟨.and, .indy, 2, 5, true, .official⟩,  -- $31
  ⟨.jam, .impl, 1, 2, false, .jam⟩,  -- $32
  ⟨.rla, .indy, 2, 8, false, .unofficial⟩,  -- $33
  ⟨.nop, .zpx, 2, 4, false, .unofficial⟩,  -- $34
  ⟨.and, .zpx, 2, 4, false, .official⟩,  -- $35
  ⟨.rol, .zpx, 2, 6, false, .official⟩,  -- $36
  ⟨.rla, .zpx, 2, 6, false, .unofficial⟩,  -- $37
  ⟨.sec, .impl, 1, 2, false, .official⟩,  -- $38
  ⟨.and, .absy, 3, 4, true, .official⟩,  -- $39
  ⟨.nop, .impl, 1, 2, false, .unofficial⟩,  -- $3A
  ⟨.rla, .absy, 3, 7, false, .unofficial⟩,  -- $3B
  ⟨.nop, .absx, 3, 4, true, .unofficial⟩,  -- $3C
  ⟨.and, .absx, 3, 4, true, .official⟩,  -- $3D
  ⟨.rol, .absx, 3, 7, false, .official⟩,  -- $3E
  ⟨.rla, .absx, 3, 7, false, .unofficial⟩]  -- $3F

/-- Rows `$40`-`$4F` of the table (30 R158). -/
def opcodeRows4 : List Descriptor := [
  ⟨.rti, .impl, 1, 6, false, .official⟩,  -- $40
  ⟨.eor, .indx, 2, 6, false, .official⟩,  -- $41
  ⟨.jam, .impl, 1, 2, false, .jam⟩,  -- $42
  ⟨.sre, .indx, 2, 8, false, .unofficial⟩,  -- $43
  ⟨.nop, .zp, 2, 3, false, .unofficial⟩,  -- $44
  ⟨.eor, .zp, 2, 3, false, .official⟩,  -- $45
  ⟨.lsr, .zp, 2, 5, false, .official⟩,  -- $46
  ⟨.sre, .zp, 2, 5, false, .unofficial⟩,  -- $47
  ⟨.pha, .impl, 1, 3, false, .official⟩,  -- $48
  ⟨.eor, .imm, 2, 2, false, .official⟩,  -- $49
  ⟨.lsr, .acc, 1, 2, false, .official⟩,  -- $4A
  ⟨.alr, .imm, 2, 2, false, .unofficial⟩,  -- $4B
  ⟨.jmp, .abs, 3, 3, false, .official⟩,  -- $4C
  ⟨.eor, .abs, 3, 4, false, .official⟩,  -- $4D
  ⟨.lsr, .abs, 3, 6, false, .official⟩,  -- $4E
  ⟨.sre, .abs, 3, 6, false, .unofficial⟩]  -- $4F

/-- Rows `$50`-`$5F` of the table (30 R158). -/
def opcodeRows5 : List Descriptor := [
  ⟨.bvc, .rel, 2, 2, false, .official⟩,  -- $50
  ⟨.eor, .indy, 2, 5, true, .official⟩,  -- $51
  ⟨.jam, .impl, 1, 2, false, .jam⟩,  -- $52
  ⟨.sre, .indy, 2, 8, false, .unofficial⟩,  -- $53
  ⟨.nop, .zpx, 2, 4, false, .unofficial⟩,  -- $54
  ⟨.eor, .zpx, 2, 4, false, .official⟩,  -- $55
  ⟨.lsr, .zpx, 2, 6, false, .official⟩,  -- $56
  ⟨.sre, .zpx, 2, 6, false, .unofficial⟩,  -- $57
  ⟨.cli, .impl, 1, 2, false, .official⟩,  -- $58
  ⟨.eor, .absy, 3, 4, true, .official⟩,  -- $59
  ⟨.nop, .impl, 1, 2, false, .unofficial⟩,  -- $5A
  ⟨.sre, .absy, 3, 7, false, .unofficial⟩,  -- $5B
  ⟨.nop, .absx, 3, 4, true, .unofficial⟩,  -- $5C
  ⟨.eor, .absx, 3, 4, true, .official⟩,  -- $5D
  ⟨.lsr, .absx, 3, 7, false, .official⟩,  -- $5E
  ⟨.sre, .absx, 3, 7, false, .unofficial⟩]  -- $5F

/-- Rows `$60`-`$6F` of the table (30 R158). -/
def opcodeRows6 : List Descriptor := [
  ⟨.rts, .impl, 1, 6, false, .official⟩,  -- $60
  ⟨.adc, .indx, 2, 6, false, .official⟩,  -- $61
  ⟨.jam, .impl, 1, 2, false, .jam⟩,  -- $62
  ⟨.rra, .indx, 2, 8, false, .unofficial⟩,  -- $63
  ⟨.nop, .zp, 2, 3, false, .unofficial⟩,  -- $64
  ⟨.adc, .zp, 2, 3, false, .official⟩,  -- $65
  ⟨.ror, .zp, 2, 5, false, .official⟩,  -- $66
  ⟨.rra, .zp, 2, 5, false, .unofficial⟩,  -- $67
  ⟨.pla, .impl, 1, 4, false, .official⟩,  -- $68
  ⟨.adc, .imm, 2, 2, false, .official⟩,  -- $69
  ⟨.ror, .acc, 1, 2, false, .official⟩,  -- $6A
  ⟨.arr, .imm, 2, 2, false, .unofficial⟩,  -- $6B
  ⟨.jmp, .ind, 3, 5, false, .official⟩,  -- $6C
  ⟨.adc, .abs, 3, 4, false, .official⟩,  -- $6D
  ⟨.ror, .abs, 3, 6, false, .official⟩,  -- $6E
  ⟨.rra, .abs, 3, 6, false, .unofficial⟩]  -- $6F

/-- Rows `$70`-`$7F` of the table (30 R158). -/
def opcodeRows7 : List Descriptor := [
  ⟨.bvs, .rel, 2, 2, false, .official⟩,  -- $70
  ⟨.adc, .indy, 2, 5, true, .official⟩,  -- $71
  ⟨.jam, .impl, 1, 2, false, .jam⟩,  -- $72
  ⟨.rra, .indy, 2, 8, false, .unofficial⟩,  -- $73
  ⟨.nop, .zpx, 2, 4, false, .unofficial⟩,  -- $74
  ⟨.adc, .zpx, 2, 4, false, .official⟩,  -- $75
  ⟨.ror, .zpx, 2, 6, false, .official⟩,  -- $76
  ⟨.rra, .zpx, 2, 6, false, .unofficial⟩,  -- $77
  ⟨.sei, .impl, 1, 2, false, .official⟩,  -- $78
  ⟨.adc, .absy, 3, 4, true, .official⟩,  -- $79
  ⟨.nop, .impl, 1, 2, false, .unofficial⟩,  -- $7A
  ⟨.rra, .absy, 3, 7, false, .unofficial⟩,  -- $7B
  ⟨.nop, .absx, 3, 4, true, .unofficial⟩,  -- $7C
  ⟨.adc, .absx, 3, 4, true, .official⟩,  -- $7D
  ⟨.ror, .absx, 3, 7, false, .official⟩,  -- $7E
  ⟨.rra, .absx, 3, 7, false, .unofficial⟩]  -- $7F

/-- Rows `$80`-`$8F` of the table (30 R158). -/
def opcodeRows8 : List Descriptor := [
  ⟨.nop, .imm, 2, 2, false, .unofficial⟩,  -- $80
  ⟨.sta, .indx, 2, 6, false, .official⟩,  -- $81
  ⟨.nop, .imm, 2, 2, false, .unofficial⟩,  -- $82
  ⟨.sax, .indx, 2, 6, false, .unofficial⟩,  -- $83
  ⟨.sty, .zp, 2, 3, false, .official⟩,  -- $84
  ⟨.sta, .zp, 2, 3, false, .official⟩,  -- $85
  ⟨.stx, .zp, 2, 3, false, .official⟩,  -- $86
  ⟨.sax, .zp, 2, 3, false, .unofficial⟩,  -- $87
  ⟨.dey, .impl, 1, 2, false, .official⟩,  -- $88
  ⟨.nop, .imm, 2, 2, false, .unofficial⟩,  -- $89
  ⟨.txa, .impl, 1, 2, false, .official⟩,  -- $8A
  ⟨.ane, .imm, 2, 2, false, .unstable⟩,  -- $8B
  ⟨.sty, .abs, 3, 4, false, .official⟩,  -- $8C
  ⟨.sta, .abs, 3, 4, false, .official⟩,  -- $8D
  ⟨.stx, .abs, 3, 4, false, .official⟩,  -- $8E
  ⟨.sax, .abs, 3, 4, false, .unofficial⟩]  -- $8F

/-- Rows `$90`-`$9F` of the table (30 R158). -/
def opcodeRows9 : List Descriptor := [
  ⟨.bcc, .rel, 2, 2, false, .official⟩,  -- $90
  ⟨.sta, .indy, 2, 6, false, .official⟩,  -- $91
  ⟨.jam, .impl, 1, 2, false, .jam⟩,  -- $92
  ⟨.sha, .indy, 2, 6, false, .unstable⟩,  -- $93
  ⟨.sty, .zpx, 2, 4, false, .official⟩,  -- $94
  ⟨.sta, .zpx, 2, 4, false, .official⟩,  -- $95
  ⟨.stx, .zpy, 2, 4, false, .official⟩,  -- $96
  ⟨.sax, .zpy, 2, 4, false, .unofficial⟩,  -- $97
  ⟨.tya, .impl, 1, 2, false, .official⟩,  -- $98
  ⟨.sta, .absy, 3, 5, false, .official⟩,  -- $99
  ⟨.txs, .impl, 1, 2, false, .official⟩,  -- $9A
  ⟨.tas, .absy, 3, 5, false, .unstable⟩,  -- $9B
  ⟨.shy, .absx, 3, 5, false, .unstable⟩,  -- $9C
  ⟨.sta, .absx, 3, 5, false, .official⟩,  -- $9D
  ⟨.shx, .absy, 3, 5, false, .unstable⟩,  -- $9E
  ⟨.sha, .absy, 3, 5, false, .unstable⟩]  -- $9F

/-- Rows `$A0`-`$AF` of the table (30 R158). -/
def opcodeRowsA : List Descriptor := [
  ⟨.ldy, .imm, 2, 2, false, .official⟩,  -- $A0
  ⟨.lda, .indx, 2, 6, false, .official⟩,  -- $A1
  ⟨.ldx, .imm, 2, 2, false, .official⟩,  -- $A2
  ⟨.lax, .indx, 2, 6, false, .unofficial⟩,  -- $A3
  ⟨.ldy, .zp, 2, 3, false, .official⟩,  -- $A4
  ⟨.lda, .zp, 2, 3, false, .official⟩,  -- $A5
  ⟨.ldx, .zp, 2, 3, false, .official⟩,  -- $A6
  ⟨.lax, .zp, 2, 3, false, .unofficial⟩,  -- $A7
  ⟨.tay, .impl, 1, 2, false, .official⟩,  -- $A8
  ⟨.lda, .imm, 2, 2, false, .official⟩,  -- $A9
  ⟨.tax, .impl, 1, 2, false, .official⟩,  -- $AA
  ⟨.lxa, .imm, 2, 2, false, .unstable⟩,  -- $AB
  ⟨.ldy, .abs, 3, 4, false, .official⟩,  -- $AC
  ⟨.lda, .abs, 3, 4, false, .official⟩,  -- $AD
  ⟨.ldx, .abs, 3, 4, false, .official⟩,  -- $AE
  ⟨.lax, .abs, 3, 4, false, .unofficial⟩]  -- $AF

/-- Rows `$B0`-`$BF` of the table (30 R158). -/
def opcodeRowsB : List Descriptor := [
  ⟨.bcs, .rel, 2, 2, false, .official⟩,  -- $B0
  ⟨.lda, .indy, 2, 5, true, .official⟩,  -- $B1
  ⟨.jam, .impl, 1, 2, false, .jam⟩,  -- $B2
  ⟨.lax, .indy, 2, 5, true, .unofficial⟩,  -- $B3
  ⟨.ldy, .zpx, 2, 4, false, .official⟩,  -- $B4
  ⟨.lda, .zpx, 2, 4, false, .official⟩,  -- $B5
  ⟨.ldx, .zpy, 2, 4, false, .official⟩,  -- $B6
  ⟨.lax, .zpy, 2, 4, false, .unofficial⟩,  -- $B7
  ⟨.clv, .impl, 1, 2, false, .official⟩,  -- $B8
  ⟨.lda, .absy, 3, 4, true, .official⟩,  -- $B9
  ⟨.tsx, .impl, 1, 2, false, .official⟩,  -- $BA
  ⟨.las, .absy, 3, 4, true, .unofficial⟩,  -- $BB
  ⟨.ldy, .absx, 3, 4, true, .official⟩,  -- $BC
  ⟨.lda, .absx, 3, 4, true, .official⟩,  -- $BD
  ⟨.ldx, .absy, 3, 4, true, .official⟩,  -- $BE
  ⟨.lax, .absy, 3, 4, true, .unofficial⟩]  -- $BF

/-- Rows `$C0`-`$CF` of the table (30 R158). -/
def opcodeRowsC : List Descriptor := [
  ⟨.cpy, .imm, 2, 2, false, .official⟩,  -- $C0
  ⟨.cmp, .indx, 2, 6, false, .official⟩,  -- $C1
  ⟨.nop, .imm, 2, 2, false, .unofficial⟩,  -- $C2
  ⟨.dcp, .indx, 2, 8, false, .unofficial⟩,  -- $C3
  ⟨.cpy, .zp, 2, 3, false, .official⟩,  -- $C4
  ⟨.cmp, .zp, 2, 3, false, .official⟩,  -- $C5
  ⟨.dec, .zp, 2, 5, false, .official⟩,  -- $C6
  ⟨.dcp, .zp, 2, 5, false, .unofficial⟩,  -- $C7
  ⟨.iny, .impl, 1, 2, false, .official⟩,  -- $C8
  ⟨.cmp, .imm, 2, 2, false, .official⟩,  -- $C9
  ⟨.dex, .impl, 1, 2, false, .official⟩,  -- $CA
  ⟨.sbx, .imm, 2, 2, false, .unofficial⟩,  -- $CB
  ⟨.cpy, .abs, 3, 4, false, .official⟩,  -- $CC
  ⟨.cmp, .abs, 3, 4, false, .official⟩,  -- $CD
  ⟨.dec, .abs, 3, 6, false, .official⟩,  -- $CE
  ⟨.dcp, .abs, 3, 6, false, .unofficial⟩]  -- $CF

/-- Rows `$D0`-`$DF` of the table (30 R158). -/
def opcodeRowsD : List Descriptor := [
  ⟨.bne, .rel, 2, 2, false, .official⟩,  -- $D0
  ⟨.cmp, .indy, 2, 5, true, .official⟩,  -- $D1
  ⟨.jam, .impl, 1, 2, false, .jam⟩,  -- $D2
  ⟨.dcp, .indy, 2, 8, false, .unofficial⟩,  -- $D3
  ⟨.nop, .zpx, 2, 4, false, .unofficial⟩,  -- $D4
  ⟨.cmp, .zpx, 2, 4, false, .official⟩,  -- $D5
  ⟨.dec, .zpx, 2, 6, false, .official⟩,  -- $D6
  ⟨.dcp, .zpx, 2, 6, false, .unofficial⟩,  -- $D7
  ⟨.cld, .impl, 1, 2, false, .official⟩,  -- $D8
  ⟨.cmp, .absy, 3, 4, true, .official⟩,  -- $D9
  ⟨.nop, .impl, 1, 2, false, .unofficial⟩,  -- $DA
  ⟨.dcp, .absy, 3, 7, false, .unofficial⟩,  -- $DB
  ⟨.nop, .absx, 3, 4, true, .unofficial⟩,  -- $DC
  ⟨.cmp, .absx, 3, 4, true, .official⟩,  -- $DD
  ⟨.dec, .absx, 3, 7, false, .official⟩,  -- $DE
  ⟨.dcp, .absx, 3, 7, false, .unofficial⟩]  -- $DF

/-- Rows `$E0`-`$EF` of the table (30 R158). -/
def opcodeRowsE : List Descriptor := [
  ⟨.cpx, .imm, 2, 2, false, .official⟩,  -- $E0
  ⟨.sbc, .indx, 2, 6, false, .official⟩,  -- $E1
  ⟨.nop, .imm, 2, 2, false, .unofficial⟩,  -- $E2
  ⟨.isb, .indx, 2, 8, false, .unofficial⟩,  -- $E3
  ⟨.cpx, .zp, 2, 3, false, .official⟩,  -- $E4
  ⟨.sbc, .zp, 2, 3, false, .official⟩,  -- $E5
  ⟨.inc, .zp, 2, 5, false, .official⟩,  -- $E6
  ⟨.isb, .zp, 2, 5, false, .unofficial⟩,  -- $E7
  ⟨.inx, .impl, 1, 2, false, .official⟩,  -- $E8
  ⟨.sbc, .imm, 2, 2, false, .official⟩,  -- $E9
  ⟨.nop, .impl, 1, 2, false, .official⟩,  -- $EA
  ⟨.usbc, .imm, 2, 2, false, .unofficial⟩,  -- $EB
  ⟨.cpx, .abs, 3, 4, false, .official⟩,  -- $EC
  ⟨.sbc, .abs, 3, 4, false, .official⟩,  -- $ED
  ⟨.inc, .abs, 3, 6, false, .official⟩,  -- $EE
  ⟨.isb, .abs, 3, 6, false, .unofficial⟩]  -- $EF

/-- Rows `$F0`-`$FF` of the table (30 R158). -/
def opcodeRowsF : List Descriptor := [
  ⟨.beq, .rel, 2, 2, false, .official⟩,  -- $F0
  ⟨.sbc, .indy, 2, 5, true, .official⟩,  -- $F1
  ⟨.jam, .impl, 1, 2, false, .jam⟩,  -- $F2
  ⟨.isb, .indy, 2, 8, false, .unofficial⟩,  -- $F3
  ⟨.nop, .zpx, 2, 4, false, .unofficial⟩,  -- $F4
  ⟨.sbc, .zpx, 2, 4, false, .official⟩,  -- $F5
  ⟨.inc, .zpx, 2, 6, false, .official⟩,  -- $F6
  ⟨.isb, .zpx, 2, 6, false, .unofficial⟩,  -- $F7
  ⟨.sed, .impl, 1, 2, false, .official⟩,  -- $F8
  ⟨.sbc, .absy, 3, 4, true, .official⟩,  -- $F9
  ⟨.nop, .impl, 1, 2, false, .unofficial⟩,  -- $FA
  ⟨.isb, .absy, 3, 7, false, .unofficial⟩,  -- $FB
  ⟨.nop, .absx, 3, 4, true, .unofficial⟩,  -- $FC
  ⟨.sbc, .absx, 3, 4, true, .official⟩,  -- $FD
  ⟨.inc, .absx, 3, 7, false, .official⟩,  -- $FE
  ⟨.isb, .absx, 3, 7, false, .unofficial⟩]  -- $FF

/-- The 256-row table, indexed by the opcode byte (30 R157, R158). -/
def opcodeTable : List Descriptor :=
  opcodeRows0 ++ opcodeRows1 ++ opcodeRows2 ++ opcodeRows3 ++
  opcodeRows4 ++ opcodeRows5 ++ opcodeRows6 ++ opcodeRows7 ++
  opcodeRows8 ++ opcodeRows9 ++ opcodeRowsA ++ opcodeRowsB ++
  opcodeRowsC ++ opcodeRowsD ++ opcodeRowsE ++ opcodeRowsF

/-- `TABLE[op]` (40 R203); the table is total, so the answer is always `some` (30 R163). -/
def descriptor (op : Byte) : Option Descriptor := opcodeTable[op.toNat]?

/-- How many bytes a step reads for an opcode: the descriptor's length, but BRK's signature byte is not read (40 R202, D5). -/
def fetchLength (op : Byte) : Nat :=
  if op = 0x00 then 1 else
    match descriptor op with
    | some d => d.length
    | none => 1

/-- The operand a mode reads from the bytes after the opcode (30 R153-R156), with the bytes that remain;
none where there are too few. -/
def operandOf : Mode → List Byte → Option (Operand × List Byte)
  | .impl, bs => some (.impl, bs)
  | .acc, bs => some (.acc, bs)
  | .imm, b1 :: bs => some (.imm b1, bs)
  | .zp, b1 :: bs => some (.zp b1, bs)
  | .zpx, b1 :: bs => some (.zpx b1, bs)
  | .zpy, b1 :: bs => some (.zpy b1, bs)
  | .indx, b1 :: bs => some (.indx b1, bs)
  | .indy, b1 :: bs => some (.indy b1, bs)
  | .rel, b1 :: bs => some (.rel b1, bs)
  | .abs, b1 :: b2 :: bs => some (.abs (joinBytes b2 b1), bs)
  | .absx, b1 :: b2 :: bs => some (.absx (joinBytes b2 b1), bs)
  | .absy, b1 :: b2 :: bs => some (.absy (joinBytes b2 b1), bs)
  | .ind, b1 :: b2 :: bs => some (.ind (joinBytes b2 b1), bs)
  | .imm, [] | .zp, [] | .zpx, [] | .zpy, [] | .indx, [] | .indy, [] | .rel, [] => none
  | .abs, [] | .absx, [] | .absy, [] | .ind, [] => none
  | .abs, [_] | .absx, [_] | .absy, [_] | .ind, [_] => none

/-- Why a byte string is no instruction. -/
inductive DecodeError where
  /-- there is no opcode byte -/
  | noBytes
  /-- the operand bytes the descriptor asks for are missing -/
  | truncated (op : Byte)
  /-- no table entry (40 R203); unreachable, the table is total -/
  | undecodable (op : Byte)
  /-- the row's mode does not fit its mnemonic (40 R219); unreachable with this table -/
  | modeMismatch (op : Byte)
deriving DecidableEq, Repr

/-- What the decoder answers: an instruction and the bytes after it, or why there is none. -/
inductive Decoded where
  | ok (i : Instr) (rest : List Byte)
  | error (e : DecodeError)
deriving DecidableEq, Repr

/-- The instruction of a table row: the mnemonic's constructor over the operand the row's mode reads.
None where an operand does not fit the constructor (40 R219). -/
def assemble (op : Byte) : Mnemonic → Operand → Option Instr
  | .lda, o => some (.lda o)
  | .ldx, o => some (.ldx o)
  | .ldy, o => some (.ldy o)
  | .sta, o => some (.sta o)
  | .stx, o => some (.stx o)
  | .sty, o => some (.sty o)
  | .tax, .impl => some .tax
  | .tax, _ => none
  | .tay, .impl => some .tay
  | .tay, _ => none
  | .txa, .impl => some .txa
  | .txa, _ => none
  | .tya, .impl => some .tya
  | .tya, _ => none
  | .tsx, .impl => some .tsx
  | .tsx, _ => none
  | .txs, .impl => some .txs
  | .txs, _ => none
  | .adc, o => some (.adc o)
  | .sbc, o => some (.sbc o)
  | .and, o => some (.and o)
  | .ora, o => some (.ora o)
  | .eor, o => some (.eor o)
  | .bit, o => some (.bit o)
  | .cmp, o => some (.cmp o)
  | .cpx, o => some (.cpx o)
  | .cpy, o => some (.cpy o)
  | .inc, o => some (.inc o)
  | .dec, o => some (.dec o)
  | .inx, .impl => some .inx
  | .inx, _ => none
  | .iny, .impl => some .iny
  | .iny, _ => none
  | .dex, .impl => some .dex
  | .dex, _ => none
  | .dey, .impl => some .dey
  | .dey, _ => none
  | .asl, o => some (.asl o)
  | .lsr, o => some (.lsr o)
  | .rol, o => some (.rol o)
  | .ror, o => some (.ror o)
  | .bpl, .rel b1 => some (.bpl b1)
  | .bpl, _ => none
  | .bmi, .rel b1 => some (.bmi b1)
  | .bmi, _ => none
  | .bvc, .rel b1 => some (.bvc b1)
  | .bvc, _ => none
  | .bvs, .rel b1 => some (.bvs b1)
  | .bvs, _ => none
  | .bcc, .rel b1 => some (.bcc b1)
  | .bcc, _ => none
  | .bcs, .rel b1 => some (.bcs b1)
  | .bcs, _ => none
  | .bne, .rel b1 => some (.bne b1)
  | .bne, _ => none
  | .beq, .rel b1 => some (.beq b1)
  | .beq, _ => none
  | .jmp, o => some (.jmp o)
  | .jsr, .abs w => some (.jsr w)
  | .jsr, _ => none
  | .rts, .impl => some .rts
  | .rts, _ => none
  | .brk, .impl => some .brk
  | .brk, _ => none
  | .rti, .impl => some .rti
  | .rti, _ => none
  | .pha, .impl => some .pha
  | .pha, _ => none
  | .pla, .impl => some .pla
  | .pla, _ => none
  | .php, .impl => some .php
  | .php, _ => none
  | .plp, .impl => some .plp
  | .plp, _ => none
  | .clc, .impl => some .clc
  | .clc, _ => none
  | .sec, .impl => some .sec
  | .sec, _ => none
  | .cli, .impl => some .cli
  | .cli, _ => none
  | .sei, .impl => some .sei
  | .sei, _ => none
  | .clv, .impl => some .clv
  | .clv, _ => none
  | .cld, .impl => some .cld
  | .cld, _ => none
  | .sed, .impl => some .sed
  | .sed, _ => none
  | .nop, o => some (.nop op o)
  | .slo, o => some (.slo o)
  | .rla, o => some (.rla o)
  | .sre, o => some (.sre o)
  | .rra, o => some (.rra o)
  | .sax, o => some (.sax o)
  | .lax, o => some (.lax o)
  | .dcp, o => some (.dcp o)
  | .isb, o => some (.isb o)
  | .anc, .imm b1 => some (.anc op b1)
  | .anc, _ => none
  | .alr, .imm b1 => some (.alr b1)
  | .alr, _ => none
  | .arr, .imm b1 => some (.arr b1)
  | .arr, _ => none
  | .sbx, .imm b1 => some (.sbx b1)
  | .sbx, _ => none
  | .ane, .imm b1 => some (.ane b1)
  | .ane, _ => none
  | .lxa, .imm b1 => some (.lxa b1)
  | .lxa, _ => none
  | .usbc, .imm b1 => some (.usbc b1)
  | .usbc, _ => none
  | .las, .absy w => some (.las w)
  | .las, _ => none
  | .tas, .absy w => some (.tas w)
  | .tas, _ => none
  | .sha, o => some (.sha o)
  | .shx, .absy w => some (.shx w)
  | .shx, _ => none
  | .shy, .absx w => some (.shy w)
  | .shy, _ => none
  | .jam, .impl => some (.jam op)
  | .jam, _ => none

/-- The decoder, total on any bytes (30 R151, R163): the opcode byte alone selects the descriptor, the descriptor's mode reads the
operand bytes. The rest is what follows the instruction's length, so BRK's ignored signature byte is skipped where there is one. -/
def decode : List Byte → Decoded
  | [] => .error .noBytes
  | op :: bs =>
    match descriptor op with
    | none => .error (.undecodable op)
    | some d =>
      match operandOf d.mode bs with
      | none => .error (.truncated op)
      | some (o, _) =>
        match assemble op d.mnemonic o with
        | none => .error (.modeMismatch op)
        | some i => .ok i ((op :: bs).drop d.length)

/-- The operand bytes of an operand, low byte first (30 R153-R156). -/
def Operand.bytes : Operand → List Byte
  | .impl => []
  | .acc => []
  | .imm b1 => [b1]
  | .zp b1 => [b1]
  | .zpx b1 => [b1]
  | .zpy b1 => [b1]
  | .abs w => [loByte w, hiByte w]
  | .absx w => [loByte w, hiByte w]
  | .absy w => [loByte w, hiByte w]
  | .ind w => [loByte w, hiByte w]
  | .indx b1 => [b1]
  | .indy b1 => [b1]
  | .rel b1 => [b1]

/-- An operand's opcode in an instruction rule's list of modes and opcodes. -/
def pick (rows : List (Mode × Byte)) (o : Operand) : Option Byte := rows.lookup o.mode

/-- The opcode byte of an instruction, from the opcode list of its rule (41-46); none for a form no rule lists. -/
def Instr.opcode : Instr → Option Byte
  | .lda o => pick [(Mode.imm, 0xA9), (.zp, 0xA5), (.zpx, 0xB5), (.abs, 0xAD), (.absx, 0xBD), (.absy, 0xB9), (.indx, 0xA1), (.indy, 0xB1)] o
  | .ldx o => pick [(Mode.imm, 0xA2), (.zp, 0xA6), (.zpy, 0xB6), (.abs, 0xAE), (.absy, 0xBE)] o
  | .ldy o => pick [(Mode.imm, 0xA0), (.zp, 0xA4), (.zpx, 0xB4), (.abs, 0xAC), (.absx, 0xBC)] o
  | .sta o => pick [(Mode.zp, 0x85), (.zpx, 0x95), (.abs, 0x8D), (.absx, 0x9D), (.absy, 0x99), (.indx, 0x81), (.indy, 0x91)] o
  | .stx o => pick [(Mode.zp, 0x86), (.zpy, 0x96), (.abs, 0x8E)] o
  | .sty o => pick [(Mode.zp, 0x84), (.zpx, 0x94), (.abs, 0x8C)] o
  | .tax => some 0xAA
  | .tay => some 0xA8
  | .txa => some 0x8A
  | .tya => some 0x98
  | .tsx => some 0xBA
  | .txs => some 0x9A
  | .adc o => pick [(Mode.imm, 0x69), (.zp, 0x65), (.zpx, 0x75), (.abs, 0x6D), (.absx, 0x7D), (.absy, 0x79), (.indx, 0x61), (.indy, 0x71)] o
  | .sbc o => pick [(Mode.imm, 0xE9), (.zp, 0xE5), (.zpx, 0xF5), (.abs, 0xED), (.absx, 0xFD), (.absy, 0xF9), (.indx, 0xE1), (.indy, 0xF1)] o
  | .and o => pick [(Mode.imm, 0x29), (.zp, 0x25), (.zpx, 0x35), (.abs, 0x2D), (.absx, 0x3D), (.absy, 0x39), (.indx, 0x21), (.indy, 0x31)] o
  | .ora o => pick [(Mode.imm, 0x09), (.zp, 0x05), (.zpx, 0x15), (.abs, 0x0D), (.absx, 0x1D), (.absy, 0x19), (.indx, 0x01), (.indy, 0x11)] o
  | .eor o => pick [(Mode.imm, 0x49), (.zp, 0x45), (.zpx, 0x55), (.abs, 0x4D), (.absx, 0x5D), (.absy, 0x59), (.indx, 0x41), (.indy, 0x51)] o
  | .bit o => pick [(Mode.zp, 0x24), (.abs, 0x2C)] o
  | .cmp o => pick [(Mode.imm, 0xC9), (.zp, 0xC5), (.zpx, 0xD5), (.abs, 0xCD), (.absx, 0xDD), (.absy, 0xD9), (.indx, 0xC1), (.indy, 0xD1)] o
  | .cpx o => pick [(Mode.imm, 0xE0), (.zp, 0xE4), (.abs, 0xEC)] o
  | .cpy o => pick [(Mode.imm, 0xC0), (.zp, 0xC4), (.abs, 0xCC)] o
  | .inc o => pick [(Mode.zp, 0xE6), (.zpx, 0xF6), (.abs, 0xEE), (.absx, 0xFE)] o
  | .dec o => pick [(Mode.zp, 0xC6), (.zpx, 0xD6), (.abs, 0xCE), (.absx, 0xDE)] o
  | .inx => some 0xE8
  | .iny => some 0xC8
  | .dex => some 0xCA
  | .dey => some 0x88
  | .asl o => pick [(Mode.acc, 0x0A), (.zp, 0x06), (.zpx, 0x16), (.abs, 0x0E), (.absx, 0x1E)] o
  | .lsr o => pick [(Mode.acc, 0x4A), (.zp, 0x46), (.zpx, 0x56), (.abs, 0x4E), (.absx, 0x5E)] o
  | .rol o => pick [(Mode.acc, 0x2A), (.zp, 0x26), (.zpx, 0x36), (.abs, 0x2E), (.absx, 0x3E)] o
  | .ror o => pick [(Mode.acc, 0x6A), (.zp, 0x66), (.zpx, 0x76), (.abs, 0x6E), (.absx, 0x7E)] o
  | .bpl _ => some 0x10
  | .bmi _ => some 0x30
  | .bvc _ => some 0x50
  | .bvs _ => some 0x70
  | .bcc _ => some 0x90
  | .bcs _ => some 0xB0
  | .bne _ => some 0xD0
  | .beq _ => some 0xF0
  | .jmp o => pick [(Mode.abs, 0x4C), (.ind, 0x6C)] o
  | .jsr _ => some 0x20
  | .rts => some 0x60
  | .brk => some 0x00
  | .rti => some 0x40
  | .pha => some 0x48
  | .pla => some 0x68
  | .php => some 0x08
  | .plp => some 0x28
  | .clc => some 0x18
  | .sec => some 0x38
  | .cli => some 0x58
  | .sei => some 0x78
  | .clv => some 0xB8
  | .cld => some 0xD8
  | .sed => some 0xF8
  | .nop op o => if nopForms.contains (op, o.mode) then some op else none
  | .slo o => pick [(Mode.indx, 0x03), (.zp, 0x07), (.abs, 0x0F), (.indy, 0x13), (.zpx, 0x17), (.absy, 0x1B), (.absx, 0x1F)] o
  | .rla o => pick [(Mode.indx, 0x23), (.zp, 0x27), (.abs, 0x2F), (.indy, 0x33), (.zpx, 0x37), (.absy, 0x3B), (.absx, 0x3F)] o
  | .sre o => pick [(Mode.indx, 0x43), (.zp, 0x47), (.abs, 0x4F), (.indy, 0x53), (.zpx, 0x57), (.absy, 0x5B), (.absx, 0x5F)] o
  | .rra o => pick [(Mode.indx, 0x63), (.zp, 0x67), (.abs, 0x6F), (.indy, 0x73), (.zpx, 0x77), (.absy, 0x7B), (.absx, 0x7F)] o
  | .sax o => pick [(Mode.indx, 0x83), (.zp, 0x87), (.abs, 0x8F), (.zpy, 0x97)] o
  | .lax o => pick [(Mode.indx, 0xA3), (.zp, 0xA7), (.abs, 0xAF), (.indy, 0xB3), (.zpy, 0xB7), (.absy, 0xBF)] o
  | .dcp o => pick [(Mode.indx, 0xC3), (.zp, 0xC7), (.abs, 0xCF), (.indy, 0xD3), (.zpx, 0xD7), (.absy, 0xDB), (.absx, 0xDF)] o
  | .isb o => pick [(Mode.indx, 0xE3), (.zp, 0xE7), (.abs, 0xEF), (.indy, 0xF3), (.zpx, 0xF7), (.absy, 0xFB), (.absx, 0xFF)] o
  | .anc op _ => if ancOpcodes.contains op then some op else none
  | .alr _ => some 0x4B
  | .arr _ => some 0x6B
  | .sbx _ => some 0xCB
  | .ane _ => some 0x8B
  | .lxa _ => some 0xAB
  | .usbc _ => some 0xEB
  | .las _ => some 0xBB
  | .tas _ => some 0x9B
  | .sha o => pick [(Mode.indy, 0x93), (.absy, 0x9F)] o
  | .shx _ => some 0x9E
  | .shy _ => some 0x9C
  | .jam op => if jamOpcodes.contains op then some op else none

/-- The operand bytes an instruction's words carry; BRK's signature byte is written as `$00` (D5 leaves it free). Log 13. -/
def Instr.operandBytes : Instr → List Byte
  | .lda o => o.bytes
  | .ldx o => o.bytes
  | .ldy o => o.bytes
  | .sta o => o.bytes
  | .stx o => o.bytes
  | .sty o => o.bytes
  | .tax => []
  | .tay => []
  | .txa => []
  | .tya => []
  | .tsx => []
  | .txs => []
  | .adc o => o.bytes
  | .sbc o => o.bytes
  | .and o => o.bytes
  | .ora o => o.bytes
  | .eor o => o.bytes
  | .bit o => o.bytes
  | .cmp o => o.bytes
  | .cpx o => o.bytes
  | .cpy o => o.bytes
  | .inc o => o.bytes
  | .dec o => o.bytes
  | .inx => []
  | .iny => []
  | .dex => []
  | .dey => []
  | .asl o => o.bytes
  | .lsr o => o.bytes
  | .rol o => o.bytes
  | .ror o => o.bytes
  | .bpl b1 => [b1]
  | .bmi b1 => [b1]
  | .bvc b1 => [b1]
  | .bvs b1 => [b1]
  | .bcc b1 => [b1]
  | .bcs b1 => [b1]
  | .bne b1 => [b1]
  | .beq b1 => [b1]
  | .jmp o => o.bytes
  | .jsr w => [loByte w, hiByte w]
  | .rts => []
  | .brk => [0x00]
  | .rti => []
  | .pha => []
  | .pla => []
  | .php => []
  | .plp => []
  | .clc => []
  | .sec => []
  | .cli => []
  | .sei => []
  | .clv => []
  | .cld => []
  | .sed => []
  | .nop _ o => o.bytes
  | .slo o => o.bytes
  | .rla o => o.bytes
  | .sre o => o.bytes
  | .rra o => o.bytes
  | .sax o => o.bytes
  | .lax o => o.bytes
  | .dcp o => o.bytes
  | .isb o => o.bytes
  | .anc _ b1 => [b1]
  | .alr b1 => [b1]
  | .arr b1 => [b1]
  | .sbx b1 => [b1]
  | .ane b1 => [b1]
  | .lxa b1 => [b1]
  | .usbc b1 => [b1]
  | .las w => [loByte w, hiByte w]
  | .tas w => [loByte w, hiByte w]
  | .sha o => o.bytes
  | .shx w => [loByte w, hiByte w]
  | .shy w => [loByte w, hiByte w]
  | .jam _ => []

/-- The bytes of a well-formed instruction (30 R150); none for a form the table does not have. -/
def encode (i : Instr) : List Byte :=
  match i.opcode with
  | some op => op :: i.operandBytes
  | none => []

/-- The instruction the decoder reads from the bits `w` of a table row: bit 0 is the lowest bit of the opcode byte, the operand
bytes count on from it, and every bit at or above `nbits` is 0. -/
def decodeTableWord (nbits w : Nat) : Option Instr :=
  let v := w % 2 ^ nbits
  match decode [BitVec.ofNat 8 v, BitVec.ofNat 8 (v / 256), BitVec.ofNat 8 (v / 65536)] with
  | .ok i _ => some i
  | .error _ => none

end Sys2Proof
end

