-- ==== Sys2Proof/Machine/Fetch.lean ====
section
/-! DEFINITION. What a step does around the instruction's own rule (40 R200): the NMI poll and entry, the fetch of the opcode and
operand bytes, and the end of the step; and how a test places an instruction where a step fetches it. -/

namespace Sys2Proof.Machine

/-- `NMI_CYCLES` (60 R508, D4). -/
def nmiCycles : Nat := 7

/-- `nmi_entry()` and its 7 cycles, once the request is taken (60 R507, R508). -/
def nmiEntry (s : State) : State :=
  busTick nmiCycles (enterInterrupt s.cpu.pc false nmiVector s)

/-- The poll at the top of a step: the pending request is read and cleared, and serviced when it was set (60 R506, 40 R200). -/
def serviceNmi (s : State) : State :=
  if s.ppu.nmiPending then nmiEntry (s.setPpu { s.ppu with nmiPending := false }) else s

/-- `n` bytes read through the Bus from `a` on, in order (40 R201, R202). -/
def readBytes : Nat → Word → State → List Byte × State
  | 0, _, s => ([], s)
  | n + 1, a, s =>
    let b := memRead a s
    let r := readBytes n (a + 1) b.2
    (b.1 :: r.1, r.2)

/-- What a fetch gives: the opcode byte, the decoded instruction, and the state after the reads with the base cycles charged. -/
structure Fetched where
  op : Byte
  decoded : Decoded
  st : State
deriving DecidableEq, Repr

/-- The base cycle cost of an opcode (30 R158, 40 R232). -/
def baseCycles (op : Byte) : Nat :=
  match descriptor op with
  | some d => d.baseCycles
  | none => 0

/-- The fetch at PC: opcode byte, then the operand bytes its descriptor asks for, decoded; `cyc <- d.base_cycles` (40 R200-R203). -/
def fetch (s : State) : Fetched :=
  let op := memRead s.cpu.pc s
  let bs := readBytes (fetchLength op.1 - 1) (s.cpu.pc + 1) op.2
  ⟨op.1, decode (op.1 :: bs.1), bs.2.setCyc (baseCycles op.1)⟩

/-- The kind of fault a decode error is (60 R502): both are unreachable with the total table (30 R163, log 14). -/
def decodeFault : DecodeError → FaultKind
  | .modeMismatch _ => .modeMismatch
  | .noBytes | .truncated _ | .undecodable _ => .undecodable

/-- The end of a step. A completed instruction reports its cycles to the Bus (40 R233). A faulting one changes nothing but the run
state: the machine is left at `b`, the boundary before the instruction, with the record (60 R501, R512). Log 8. -/
def complete (b u : State) : State :=
  match u.cpu.run with
  | .running => busTick u.cpu.cyc (u.setCyc 0)
  | .faulted r => b.setRun (.faulted r)

/-! ### Placing an instruction -/

/-- Can a byte be placed at the address: RAM or PRG ROM? -/
def placeable (a : Word) : Bool := decide (a < 0x2000) || decide (0x8000 ≤ a)

/-- The state with the byte an address of RAM or PRG ROM names replaced, as loading a program from outside does. -/
def placeByte (s : State) (a : Word) (v : Byte) : State :=
  match busTarget a with
  | .ram i => s.writeRam i v
  | .prg => { s with bus := { s.bus with prg := s.bus.prg.write (prgOffset s.bus.prgSize a) v } }
  | .ppu _ | .oamDma | .controller | .reserved | .unmapped => s

/-- The state in which the next step fetches the three bytes: they stand at PC, or at `$0200` where PC names no byte that can be
placed; the CPU runs and no NMI is pending. Log 3. -/
def placeInstruction (s : State) (b0 b1 b2 : Byte) : State :=
  let pc := s.cpu.pc
  let at3 := if placeable pc && placeable (pc + 1) && placeable (pc + 2) then pc else 0x0200
  let t := (s.setRun .running).setPc at3
  let t := t.setPpu { t.ppu with nmiPending := false }
  placeByte (placeByte (placeByte t at3 b0) (at3 + 1) b1) (at3 + 2) b2

end Sys2Proof.Machine
end

