-- ==== Sys2Proof/Machine/Step.lean ====
section
/-! DEFINITION. One CPU step (40 R200). -/

namespace Sys2Proof.Machine

/-- One step of the core: the NMI poll, the fetch, the instruction's rule, the Bus tick (40 R200). A faulted CPU has no step (10 R45). -/
def step (s : State) : Host.Outcome State Fault Refusal :=
  match s.cpu.run with
  | .faulted r => .fault (.halted r)
  | .running =>
    let b := serviceNmi s
    let f := fetch b
    match f.decoded with
    | .error e => .next (raiseFault (decodeFault e) f.op b)
    | .ok i _ =>
      match exec i f.st with
      | .next u => .next (complete b u)
      | .fault e => .fault e
      | .refused e => .refused e

/-- The state whose next step fetches and runs the instruction whose bits are `w` (bit 0 the opcode byte's lowest; every bit at or
above `nbits` is 0). Log 3. -/
def State.withFetchWord (s : State) (nbits w : Nat) : State :=
  let v := w % 2 ^ nbits
  placeInstruction s (BitVec.ofNat 8 v) (BitVec.ofNat 8 (v / 256)) (BitVec.ofNat 8 (v / 65536))

end Sys2Proof.Machine
end

