-- ==== Sys2Proof/Machine/Reset.lean ====
section
/-! DEFINITION. Power-on reset is the construction of the core from a cartridge tuple and the open power-on memories (70 R600). -/

namespace Sys2Proof.Machine

/-- The cartridge tuple `{prg_rom, chr_rom, mirroring}` (00 R7, 60 R584). -/
structure Cartridge where
  prg : List Byte
  chr : List Byte
  mirroring : Mirroring
deriving DecidableEq, Repr

/-- The open power-on memories `POWER_ON_RAM`, `POWER_ON_VRAM`, `POWER_ON_OAM`, `POWER_ON_PALETTE` (D24); a longer list than the
memory has bytes is cut to it, and bytes a list does not give are `$00`. -/
structure PowerOn where
  ram : List Byte
  vram : List Byte
  oam : List Byte
  palette : List Byte
deriving DecidableEq, Repr

/-- D24's reference value: all `$00`. -/
def PowerOn.reference : PowerOn := ⟨[], [], [], []⟩

/-- The legal PRG lengths (D18, 60 R502). -/
def prgSizeOf (n : Nat) : Option PrgSize :=
  if n = 16384 then some .k16 else if n = 32768 then some .k32 else none

/-- The core before the reset vector is read: every register and memory at its construction value (70 R600). -/
def constructed (z : PrgSize) (c : Cartridge) (m : PowerOn) : State where
  cpu := { a := 0x00, x := 0x00, y := 0x00, sp := 0xFD, p := 0x24, pc := 0x0000, run := .running, cyc := 0 }
  ppu := { ctrl := 0x00, mask := 0x00, status := 0x00, oamAddr := 0x00, oam := Memory.ofBytes (m.oam.take 256),
           scrollX := 0x00, scrollY := 0x00, v := 0x0000, w := false, buf := 0x00, vram := Memory.ofBytes (m.vram.take 2048),
           palette := Memory.ofBytes (m.palette.take 32), chr := Memory.ofBytes c.chr, mirroring := c.mirroring, scanline := 0,
           cycle := 0, nmiPending := false }
  bus := { ram := Memory.ofBytes (m.ram.take 2048), prg := Memory.ofBytes c.prg, prgSize := z, cycles := 0 }
  pad := { strobe := false, index := 0, buttons := 0x00 }
  host := { draws := 0, frames := 0, view := none, inputs := [] }

/-- CPU cycles of the reset sequence (70 R601, D3). -/
def resetCycles : Nat := 7

/-- `construct(prg_rom, chr_rom, mirroring)`: refused for wrong sizes, else PC is read from the reset vector and the reset's cycles
tick the Bus (70 R600-R603, 60 R502). -/
def construct (c : Cartridge) (m : PowerOn) : Host.Outcome State Fault Refusal :=
  match prgSizeOf c.prg.length with
  | none => .refused .badCartridge
  | some z =>
    if c.chr.length = 8192 then
      let r := read16 resetVector (constructed z c m)
      .next (busTick resetCycles (r.2.setPc r.1))
    else .refused .badCartridge

end Sys2Proof.Machine
end

