-- ==== Sys2Proof/Safety.lean ====
section
/-! DEFINITION. What counts as a legal state and a safe run, in the terms the statements use: the ranges the spec gives every piece of
state at an instruction boundary, a machine that runs, the end of a test run (70 R630), and how an instruction of each shape completes. -/

namespace Sys2Proof.Machine

/-- The CPU's invariant at a boundary: `P.U = 1` and `P.B = 0` (10 R37), and no cycles counted between instructions (10 R46). -/
def cpuInv (c : Cpu) : Bool := getFlag c.p .u && !getFlag c.p .b && decide (c.cyc = 0)

/-- The PPU's invariant at a boundary: `v` in 14 bits (10 R57), `scanline` in 0-261 and `cycle` in 0-340 (10 R64, R65), status bits
5-0 zero (10 R53), and every memory canonical and inside its size (10 R55, R60-R62). -/
def ppuInv (q : Ppu) : Bool :=
  decide (q.v < 0x4000) && decide (q.scanline < linesPerFrame) && decide (q.cycle < dotsPerLine) &&
  decide (q.status &&& 0x3F = 0x00) &&
  q.oam.wf && q.oam.below 256 && q.vram.wf && q.vram.below 2048 && q.palette.wf && q.palette.below 32 && q.chr.wf && q.chr.below 8192

/-- The Bus's invariant: RAM and PRG canonical and inside their sizes (10 R70, R71). -/
def busInv (b : Bus) : Bool :=
  b.ram.wf && b.ram.below 2048 && b.prg.wf && b.prg.below (prgLength b.prgSize)

/-- The controller's invariant: the index is in 0-8 (10 R75). -/
def padInv (d : Pad) : Bool := decide (d.index ≤ 8)

/-- A legal state at an instruction boundary. -/
def State.inv (s : State) : Bool := cpuInv s.cpu && ppuInv s.ppu && busInv s.bus && padInv s.pad

/-- The CPU is running: no fault is recorded (10 R45). -/
def State.isRunning (s : State) : Bool := decide (s.cpu.run = .running)

/-- The end of a test run: running, and the byte at PC is `$00` (70 R630, D29). -/
def ended (s : State) : Bool := s.isRunning && decide (peek s s.cpu.pc = some 0x00)

/-! ### Frames -/

/-- What the memories and registers of a PPU are, apart from what its clock changes: scanline, cycle, status and the NMI request. -/
structure SamePpuMemory (q r : Ppu) : Prop where
  ctrl : r.ctrl = q.ctrl
  mask : r.mask = q.mask
  oamAddr : r.oamAddr = q.oamAddr
  oam : r.oam = q.oam
  scrollX : r.scrollX = q.scrollX
  scrollY : r.scrollY = q.scrollY
  v : r.v = q.v
  w : r.w = q.w
  buf : r.buf = q.buf
  vram : r.vram = q.vram
  palette : r.palette = q.palette
  chr : r.chr = q.chr
  mirroring : r.mirroring = q.mirroring

/-- What a read leaves of the PPU: its memories, its counters and the registers but status, `w`, `v` and the buffer. -/
structure ReadKeepsPpu (q r : Ppu) : Prop where
  ctrl : r.ctrl = q.ctrl
  mask : r.mask = q.mask
  oamAddr : r.oamAddr = q.oamAddr
  oam : r.oam = q.oam
  scrollX : r.scrollX = q.scrollX
  scrollY : r.scrollY = q.scrollY
  vram : r.vram = q.vram
  palette : r.palette = q.palette
  chr : r.chr = q.chr
  mirroring : r.mirroring = q.mirroring
  scanline : r.scanline = q.scanline
  cycle : r.cycle = q.cycle
  nmiPending : r.nmiPending = q.nmiPending

/-- What a Bus read leaves of the state: RAM, PRG ROM and the master counter (the whole Bus), what `ReadKeepsPpu` says of the PPU, the
controller's strobe and buttons, and the host's side but for the draw counter. -/
structure ReadFrame (s t : State) : Prop where
  bus : t.bus = s.bus
  ppu : ReadKeepsPpu s.ppu t.ppu
  strobe : t.pad.strobe = s.pad.strobe
  buttons : t.pad.buttons = s.pad.buttons
  frames : t.host.frames = s.host.frames
  view : t.host.view = s.host.view
  inputs : t.host.inputs = s.host.inputs

/-- Every byte of RAM and PRG ROM reads as before, but for the RAM byte that the address `ea` names, where it names one. -/
def SameBytesBut (ea : Word) (s t : State) : Prop :=
  ∀ a : Word, (∀ i, busTarget a = .ram i → busTarget ea ≠ .ram i) → peek t a = peek s a

/-- The cycles a write to `ea` charges beside the instruction's own: those of an OAM DMA for `$4014` (40 R230, 60 R571). -/
def dmaCharge (ea : Word) : Nat := if ea = 0x4014 then Config.oamDmaCycles else 0

/-- The page-cross penalty of an operand: 1 where an indexed address leaves its base's page (40 R231). -/
def pageCharge (o : Operand) (s : State) : Nat :=
  match o with
  | .absx base => if hiByte base = hiByte (base + zext16 s.cpu.x) then 0 else 1
  | .absy base => if hiByte base = hiByte (base + zext16 s.cpu.y) then 0 else 1
  | .indy b1 =>
    let base := joinBytes (s.bus.ram.read (b1 + 1).toNat) (s.bus.ram.read b1.toNat)
    if hiByte base = hiByte (base + zext16 s.cpu.y) then 0 else 1
  | .impl | .acc | .imm _ | .zp _ | .zpx _ | .zpy _ | .abs _ | .ind _ | .indx _ | .rel _ => 0

/-! ### How an instruction of each shape completes -/

/-- A register-only instruction of `n` bytes completes from every state: the CPU's registers become `f` of them, PC advances, and
nothing else changes. -/
def CompletesInRegisters (i : Instr) (n : Nat) (f : Cpu → Cpu) : Prop :=
  ∀ s : State, exec i s = .next { s with cpu := { f s.cpu with pc := s.cpu.pc + BitVec.ofNat 16 n } }

/-- A read instruction completes from every state: its operand is read, the CPU's registers become `f` of them and the operand, PC
advances, the page-cross penalty is charged, and of the rest only what a Bus read may change does. -/
def CompletesReading (i : Instr) (o : Operand) (f : Cpu → Byte → Cpu) : Prop :=
  ∀ s : State, ∃ m t, readOperand o s = some (m, t) ∧ ReadFrame s t ∧
    exec i s = .next { t with cpu := { f s.cpu m with
      pc := s.cpu.pc + BitVec.ofNat 16 o.mode.length, cyc := s.cpu.cyc + pageCharge o s } }

/-- A store instruction completes from every state: `v` of the registers is written once to the effective address, which is not read;
no register but PC changes, and no byte but the addressed one. -/
def CompletesStoring (i : Instr) (o : Operand) (v : Cpu → Byte) : Prop :=
  ∀ s : State, ∃ r, resolve o s = some r ∧ r.st = s ∧
    exec i s = .next { memWrite r.ea (v s.cpu) s with cpu := { s.cpu with
      pc := s.cpu.pc + BitVec.ofNat 16 o.mode.length, cyc := s.cpu.cyc + dmaCharge r.ea } } ∧
    SameBytesBut r.ea s (memWrite r.ea (v s.cpu) s)

/-- A read-modify-write instruction completes from every state: the byte at the effective address is read once, `f` of it written
once, and the registers become `g` of them and the byte read; no byte but the addressed one changes. -/
def CompletesModifying (i : Instr) (o : Operand) (f : Cpu → Byte → Byte) (g : Cpu → Byte → Cpu) : Prop :=
  ∀ s : State, ∃ r m t, resolve o s = some r ∧ r.st = s ∧ memRead r.ea s = (m, t) ∧ ReadFrame s t ∧
    exec i s = .next { memWrite r.ea (f s.cpu m) t with cpu := { g s.cpu m with
      pc := s.cpu.pc + BitVec.ofNat 16 o.mode.length, cyc := s.cpu.cyc + dmaCharge r.ea } } ∧
    SameBytesBut r.ea s (memWrite r.ea (f s.cpu m) t)

/-- `n` reads of one address in a row: the bytes, first one first, and the state after them. -/
def readTimes : Nat → Word → State → List Byte × State
  | 0, _, s => ([], s)
  | n + 1, a, s =>
    let b := memRead a s
    let r := readTimes n a b.2
    (b.1 :: r.1, r.2)

end Sys2Proof.Machine
end

