-- ==== Sys2Proof/Certificates/Slice0/Obligations.lean ====
section
/-! DEFINITION. The statements for the provers. Each docstring names the rules of spec/ it formalises. A rule the spec marks as its own
decision (D<n> of spec/92_eei_decisions.md) or derivation is named as such; the log entries named are the model's own choices. -/

open Sys2Proof Sys2Proof.Machine

/-! ### Encoding -/

/-- Decoding the bytes of any well-formed instruction, whatever follows them, gives the instruction back and what follows
(30 R150-R156; the opcode matrix of R158; BRK's signature byte is written as `$00`, log 13). -/
def Obligations.DecodeInvertsEncode : Prop :=
  ∀ (i : Instr) (rest : List Byte), i.wf = true → decode (encode i ++ rest) = .ok i rest

/-- Whatever bytes decode, decode to a well-formed instruction with that opcode, whose encoding is the bytes read; of BRK, whose
signature byte is ignored, the byte after the opcode is skipped (30 R150, R163, D5). -/
def Obligations.EncodeInvertsDecode : Prop :=
  ∀ (op : Byte) (bs rest : List Byte) (i : Instr), decode (op :: bs) = .ok i rest →
    i.wf = true ∧ i.opcode = some op ∧
    (i ≠ .brk → op :: bs = encode i ++ rest) ∧
    (i = .brk → rest = bs.drop 1)

/-- The table has 256 rows, each with a length of 1 to 3 and a cost of at least 1 (30 R157); 151 are official, 12 are JAM and the other
93 unofficial (30 R159, R160); the twelve JAM bytes are the listed ones; BRK alone is longer than its mode (R150, D5); the page-penalty
flag stands on indexed modes only (40 R231). -/
def Obligations.OpcodeTableIsTotal : Prop :=
  opcodeTable.length = 256 ∧
  (∀ d ∈ opcodeTable, (d.length = 1 ∨ d.length = 2 ∨ d.length = 3) ∧ 1 ≤ d.baseCycles) ∧
  (opcodeTable.filter fun d => d.cls == .official).length = 151 ∧
  (opcodeTable.filter fun d => d.cls == .jam).length = 12 ∧
  (∀ op : Byte, (∃ d, descriptor op = some d ∧ d.cls = .jam) ↔ op ∈ jamOpcodes) ∧
  (∀ op : Byte, ∃ d, descriptor op = some d ∧ d.length = (if op = 0x00 then 2 else d.mode.length)) ∧
  (∀ d ∈ opcodeTable, d.pagePenalty = true → d.mode = .absx ∨ d.mode = .absy ∨ d.mode = .indy)

/-- Words of several families, written out from the spec's encodings, decode to the instructions they stand for (30 R164, 41 R250,
42 R302, 43 R351, 44 R377, R380, R383, 45 R411, 46 R431, R439, R454). -/
def Obligations.WrittenWordsDecode : Prop :=
  decode [0b10101001, 0x05] = .ok (.lda (.imm 0x05)) [] ∧
  decode [0b10001101, 0x07, 0x20] = .ok (.sta (.abs 0x2007)) [] ∧
  decode [0b10110001, 0x20] = .ok (.lda (.indy 0x20)) [] ∧
  decode [0b01101001, 0x01] = .ok (.adc (.imm 0x01)) [] ∧
  decode [0b00001010] = .ok (.asl .acc) [] ∧
  decode [0b11010000, 0xFB] = .ok (.bne 0xFB) [] ∧
  decode [0b01101100, 0x20, 0x01] = .ok (.jmp (.ind 0x0120)) [] ∧
  decode [0b00000000, 0xEA, 0x0A] = .ok .brk [0x0A] ∧
  decode [0b11101010] = .ok (.nop 0xEA .impl) [] ∧
  decode [0b00000111, 0x10] = .ok (.slo (.zp 0x10)) [] ∧
  decode [0b00001011, 0x80] = .ok (.anc 0x0B 0x80) [] ∧
  decode [0b00000010] = .ok (.jam 0x02) []

/-! ### The step -/

/-- When the bytes at PC decode to an instruction, a step is `exec` of it: first the NMI poll gives `b` (60 R506), then the bytes are
fetched and the base cycles charged (40 R200-R203), then the instruction's rule runs; a completed one reports its cycles to the Bus
(40 R233), a faulting one leaves `b` with the record (60 R501, log 8). The first clause holds wherever the bytes stand; the second says the
same of bytes in RAM or PRG ROM, where the fetch has no side effect. -/
def Obligations.StepRunsDecodedInstruction : Prop :=
  ∀ s : State, s.cpu.run = .running →
    let b := serviceNmi s
    let finish := fun (a : Answer) => match a with
      | .next u => Host.Outcome.next (if u.cpu.run = .running then busTick u.cpu.cyc (u.setCyc 0) else b.setRun u.cpu.run)
      | .fault e => .fault e
      | .refused e => .refused e
    (∀ (i : Instr) (rest : List Byte),
      let op := memRead b.cpu.pc b
      let bs := readBytes (fetchLength op.1 - 1) (b.cpu.pc + 1) op.2
      decode (op.1 :: bs.1) = .ok i rest → step s = finish (exec i (bs.2.setCyc (baseCycles op.1)))) ∧
    (∀ (op : Byte) (bs : List Byte) (i : Instr),
      bs.length + 1 = fetchLength op →
      peek b b.cpu.pc = some op →
      (∀ k, k < bs.length → peek b (b.cpu.pc + 1 + BitVec.ofNat 16 k) = bs[k]?) →
      decode (op :: bs) = .ok i [] →
      step s = finish (exec i (b.setCyc (baseCycles op))))

/-- A running machine always has a next state: no instruction is refused and nothing else stops a step (30 R159, R163, 60 R503, R511).
That JAM's fault too is a next state, the one that holds the record, is the model's reading (log 7, DEDUCED). -/
def Obligations.RunningMachineAlwaysSteps : Prop :=
  ∀ s : State, s.cpu.run = .running → ∃ t, step s = .next t

/-- A faulted machine has no step (10 R45). -/
def Obligations.FaultedMachineHasNoStep : Prop :=
  ∀ (s : State) (r : FaultRecord), s.cpu.run = .faulted r → step s = .fault (.halted r)

/-- The only fault a step can raise is JAM, by one of the twelve bytes fetched at PC, and it changes nothing but the run state: the
machine stands as it did at the boundary before the instruction (60 R501, R502, R512, 46 R454; log 8 says which boundary). -/
def Obligations.OnlyJamFaults : Prop :=
  ∀ (s t : State) (r : FaultRecord), step s = .next t → t.cpu.run = .faulted r →
    r = ⟨.jam, (memRead (serviceNmi s).cpu.pc (serviceNmi s)).1, (serviceNmi s).cpu.pc⟩ ∧
    r.opcode ∈ jamOpcodes ∧
    t = (serviceNmi s).setRun (.faulted r)

/-- The state after reset is running and legal (10 R37, R90). -/
def Obligations.ResetIsLegal : Prop := State.reset.isRunning = true ∧ State.reset.inv = true

/-- The values the spec gives for reset (10 R90, 70 R600-R603; decisions D1-D3, D25, D26, D31). PC is the word at the reset vector of the
cartridge that the state holds, which is the model's blank one (log 2). -/
def Obligations.ResetValues : Prop :=
  State.reset.cpu.a = 0x00 ∧ State.reset.cpu.x = 0x00 ∧ State.reset.cpu.y = 0x00 ∧
  State.reset.cpu.sp = 0xFD ∧ State.reset.cpu.p = 0x24 ∧ State.reset.cpu.run = .running ∧
  State.reset.cpu.pc = joinBytes (State.reset.bus.prgByte 0xFFFD) (State.reset.bus.prgByte 0xFFFC) ∧
  State.reset.ppu.ctrl = 0x00 ∧ State.reset.ppu.mask = 0x00 ∧ State.reset.ppu.status = 0x00 ∧ State.reset.ppu.oamAddr = 0x00 ∧
  State.reset.ppu.scrollX = 0x00 ∧ State.reset.ppu.scrollY = 0x00 ∧ State.reset.ppu.buf = 0x00 ∧ State.reset.ppu.v = 0x0000 ∧
  State.reset.ppu.w = false ∧ State.reset.ppu.scanline = 0 ∧ State.reset.ppu.cycle = 21 ∧ State.reset.ppu.nmiPending = false ∧
  State.reset.bus.cycles = 7 ∧
  State.reset.pad.strobe = false ∧ State.reset.pad.index = 0 ∧ State.reset.pad.buttons = 0x00

/-- Every step keeps a legal state legal: U = 1 and B = 0 in P (10 R37), `v` in 14 bits (R57), the counters in their ranges (R64, R65),
the status byte's low bits zero (R53), the controller index in 0-8 (R75), and every memory canonical and inside its size. -/
def Obligations.StepKeepsLegalState : Prop :=
  ∀ s t : State, s.inv = true → step s = .next t → t.inv = true

/-- No step changes the cartridge: PRG ROM, its size, the pattern data and the mirroring (10 R62, R63, R71, 20 R109). -/
def Obligations.CartridgeNeverChanges : Prop :=
  ∀ s t : State, step s = .next t →
    t.bus.prg = s.bus.prg ∧ t.bus.prgSize = s.bus.prgSize ∧ t.ppu.chr = s.ppu.chr ∧ t.ppu.mirroring = s.ppu.mirroring

/-- A step that completes reports at least 2 CPU cycles to the Bus (40 R233), so the master counter rises (60 R567, D26). -/
def Obligations.CompletedStepAdvancesClock : Prop :=
  ∀ s t : State, step s = .next t → t.cpu.run = .running → s.bus.cycles + 2 ≤ t.bus.cycles

/-- Construction from a cartridge of legal sizes gives a legal running machine with the values of 10 R90: the CPU's registers, PC the word
at the reset vector, every PPU register, the counters and the controller, the cartridge's bytes in PRG and CHR, and the power-on contents
`m` in RAM, video RAM, OAM and palette (D24; a byte that a list of `m` does not give is `$00`, the reference value). Any other cartridge is refused (70 R600-R603, 60 R502; decisions D1-D3, D18, D24, D25). -/
def Obligations.ConstructionResets : Prop :=
  ∀ (c : Cartridge) (m : PowerOn),
    (c.prg.length = 16384 ∨ c.prg.length = 32768 → c.chr.length = 8192 →
      ∃ t, construct c m = .next t ∧ t.inv = true ∧
        t.cpu = { State.reset.cpu with pc := joinBytes (t.bus.prgByte 0xFFFD) (t.bus.prgByte 0xFFFC) } ∧
        prgLength t.bus.prgSize = c.prg.length ∧
        (∀ k, k < c.prg.length → some (t.bus.prg.read k) = c.prg[k]?) ∧
        (∀ k, k < 8192 → some (t.ppu.chr.read k) = c.chr[k]?) ∧
        t.ppu.mirroring = c.mirroring ∧ t.bus.cycles = 7 ∧ t.ppu.scanline = 0 ∧ t.ppu.cycle = 21 ∧
        (∀ k, k < 2048 → t.bus.ram.read k = m.ram.getD k 0x00) ∧ (∀ k, k < 2048 → t.ppu.vram.read k = m.vram.getD k 0x00) ∧
        (∀ k, k < 256 → t.ppu.oam.read k = m.oam.getD k 0x00) ∧ (∀ k, k < 32 → t.ppu.palette.read k = m.palette.getD k 0x00) ∧
        t.ppu.ctrl = 0x00 ∧ t.ppu.mask = 0x00 ∧ t.ppu.status = 0x00 ∧ t.ppu.oamAddr = 0x00 ∧ t.ppu.scrollX = 0x00 ∧
        t.ppu.scrollY = 0x00 ∧ t.ppu.buf = 0x00 ∧ t.ppu.v = 0x0000 ∧ t.ppu.w = false ∧ t.ppu.nmiPending = false ∧ t.pad = State.reset.pad) ∧
    (¬ ((c.prg.length = 16384 ∨ c.prg.length = 32768) ∧ c.chr.length = 8192) → construct c m = .refused .badCartridge)

/-! ### Interrupts -/

/-- A pending NMI is taken at the poll, whatever P.I is: the request is cleared, PC and P with B = 0 are pushed, I is set, PC is the
word at `$FFFA`, and 7 cycles are ticked; A, X and Y are kept. Without a request nothing happens (60 R506-R508, R510; D2, D4). -/
def Obligations.NmiIsTakenAtTheBoundary : Prop :=
  ∀ s : State,
    (s.ppu.nmiPending = false → serviceNmi s = s) ∧
    (s.ppu.nmiPending = true →
      (serviceNmi s).cpu = { s.cpu with
        sp := s.cpu.sp - 3, p := setFlag s.cpu.p .i true, pc := joinBytes (s.bus.prgByte 0xFFFB) (s.bus.prgByte 0xFFFA) } ∧
      (serviceNmi s).bus = { s.bus with
        ram := ((s.bus.ram.write (256 + s.cpu.sp.toNat) (hiByte s.cpu.pc)).write (256 + (s.cpu.sp - 1).toNat) (loByte s.cpu.pc)).write
          (256 + (s.cpu.sp - 2).toNat) ((s.cpu.p &&& 0xCF) ||| 0x20),
        cycles := s.bus.cycles + 7 } ∧
      (serviceNmi s).ppu = (ppuTick 21 { s.ppu with nmiPending := false }).1 ∧
      (serviceNmi s).pad.index = s.pad.index ∧ (serviceNmi s).pad.strobe = s.pad.strobe)

/-- BRK completes from every state: PC + 2 and P with B = 1 are pushed, I is set, and PC is the word at `$FFFE`; nothing else changes
(44 R383; decisions D2, D5). -/
def Obligations.BrkEntersItsVector : Prop :=
  ∀ s : State, exec .brk s = .next { s with
    cpu := { s.cpu with
      sp := s.cpu.sp - 3, p := setFlag s.cpu.p .i true, pc := joinBytes (s.bus.prgByte 0xFFFF) (s.bus.prgByte 0xFFFE) }
    bus := { s.bus with
      ram := ((s.bus.ram.write (256 + s.cpu.sp.toNat) (hiByte (s.cpu.pc + 2))).write (256 + (s.cpu.sp - 1).toNat)
        (loByte (s.cpu.pc + 2))).write (256 + (s.cpu.sp - 2).toNat) ((s.cpu.p &&& 0xCF) ||| 0x30) } }

/-- RTI completes from every state: P is pulled with B forced 0 and U forced 1, then PC, low byte first and with no 1 added; nothing
else changes (44 R384). -/
def Obligations.RtiRestoresStatusAndPc : Prop :=
  ∀ s : State, exec .rti s = .next { s with
    cpu := { s.cpu with
      sp := s.cpu.sp + 3
      p := (s.bus.ram.read (256 + (s.cpu.sp + 1).toNat) &&& 0xCF) ||| 0x20
      pc := joinBytes (s.bus.ram.read (256 + (s.cpu.sp + 3).toNat)) (s.bus.ram.read (256 + (s.cpu.sp + 2).toNat)) } }

/-- Taking an interrupt and returning from it restores P, S and PC, at any S, for the P every boundary has (60 R507, R513, 44 R384,
10 R37, R42); the vector lies in PRG ROM. -/
def Obligations.InterruptRoundTrip : Prop :=
  ∀ (s : State) (ret vector : Word) (brk : Bool),
    s.bus.ram.wf = true → getFlag s.cpu.p .u = true → getFlag s.cpu.p .b = false → 0x8000 ≤ vector → vector < 0xFFFF →
    (returnFromInterrupt (enterInterrupt ret brk vector s)).cpu = { s.cpu with pc := ret }

/-! ### Flags and arithmetic -/

/-- The zero flag is set iff the result is 0, the negative flag iff its bit 7 is 1, and no other bit of P changes (10 R40). -/
def Obligations.SetZnRule : Prop :=
  ∀ p v : Byte,
    (setZN p v &&& 0x02 ≠ 0 ↔ v = 0) ∧ (setZN p v &&& 0x80 ≠ 0 ↔ v &&& 0x80 ≠ 0) ∧ setZN p v &&& 0x7D = p &&& 0x7D

/-- PHP pushes P with B and U forced to 1 and leaves P (10 R41); PLP and RTI load the pulled byte with U forced to 1 and B to 0 (10 R42);
so a pushed P that has U = 1 and B = 0 is loaded back unchanged. -/
def Obligations.PulledStatusInvertsPushed : Prop :=
  ∀ (p : Byte) (brk : Bool),
    pushImage p brk &&& 0x30 = (if brk then 0x30 else 0x20) ∧ pushImage p brk &&& 0xCF = p &&& 0xCF ∧
    pulledStatus p &&& 0x30 = 0x20 ∧ pulledStatus p &&& 0xCF = p &&& 0xCF ∧
    (p &&& 0x30 = 0x20 → pulledStatus (pushImage p brk) = p)

/-- `ADD8(m)`: A becomes the sum of A, `m` and C modulo 256; C is the unsigned carry out; V is set exactly when the signed sum lies outside
-128..127; Z and N describe the result; the other bits of P, and all else, are unchanged (42 R300). -/
def Obligations.AdderLaws : Prop :=
  ∀ (s : State) (m : Byte),
    let c := getFlag s.cpu.p .c
    let t := s.add8 m
    t = { s with cpu := { s.cpu with a := t.cpu.a, p := t.cpu.p } } ∧
    t.cpu.a.toNat = (s.cpu.a.toNat + m.toNat + c.toNat) % 256 ∧
    (getFlag t.cpu.p .c = true ↔ 255 < s.cpu.a.toNat + m.toNat + c.toNat) ∧
    (getFlag t.cpu.p .v = true ↔
      ¬ (-128 ≤ s.cpu.a.toInt + m.toInt + (c.toNat : Int) ∧ s.cpu.a.toInt + m.toInt + (c.toNat : Int) ≤ 127)) ∧
    (getFlag t.cpu.p .z = true ↔ t.cpu.a = 0x00) ∧
    getFlag t.cpu.p .n = t.cpu.a.getLsbD 7 ∧
    t.cpu.p &&& 0x3C = s.cpu.p &&& 0x3C

/-- A subtraction is the addition of the complemented operand: the result is `A - M - (1 - C)`, and C says afterwards that no borrow
occurred (42 R300, R303). The decimal flag has no effect: adding with D changed gives the same result and the same P but for D itself
(10 R38). -/
def Obligations.SubtractionAndDecimalFlag : Prop :=
  (∀ (a m : Byte) (c : Bool),
    addResult a (~~~m) c = a - m - (if c then 0 else 1) ∧
    (addCarry a (~~~m) c = true ↔ m.toNat + (if c then 0 else 1) ≤ a.toNat)) ∧
  ∀ (s : State) (m : Byte) (d : Bool), (s.setFlag .d d).add8 m = (s.add8 m).setFlag .d d

/-- `COMPARE(r, m)`: C iff the register is at least the operand, unsigned; Z and N from the wrapping difference, so Z iff they are equal and
N is its bit 7; the other bits of P, and every register, are unchanged (42 R301). -/
def Obligations.CompareLaws : Prop :=
  ∀ (s : State) (r m : Byte),
    let t := s.compare r m
    t = { s with cpu := { s.cpu with p := t.cpu.p } } ∧
    (getFlag t.cpu.p .c = true ↔ m.toNat ≤ r.toNat) ∧
    (getFlag t.cpu.p .z = true ↔ r = m) ∧
    getFlag t.cpu.p .n = (r - m).getLsbD 7 ∧
    t.cpu.p &&& 0x7C = s.cpu.p &&& 0x7C

/-! ### Memory -/

/-- Internal RAM: an address below `$2000` reaches the RAM byte of its low 11 bits, for reads, which have no side effect, and for
writes; so addresses with the same low 11 bits are the same byte (20 R102). -/
def Obligations.RamIsMirrored : Prop :=
  ∀ (a : Word) (v : Byte) (s : State), a < 0x2000 →
    memRead a s = (s.bus.ram.read (a.toNat % 2048), s) ∧
    memWrite a v s = { s with bus := { s.bus with ram := s.bus.ram.write (a.toNat % 2048) v } }

/-- The PPU register window: whatever the other bits of an address in `$2000`-`$3FFF`, a read or a write is one of the register its low
three bits select (20 R103). -/
def Obligations.PpuWindowIsMirrored : Prop :=
  ∀ (a : Word) (v : Byte) (s : State), 0x2000 ≤ a → a < 0x4000 →
    memRead a s = memRead (0x2000 + (a &&& 7)) s ∧ memWrite a v s = memWrite (0x2000 + (a &&& 7)) v s

/-- Reserved I/O, `$4000`-`$4015` and `$4017`: reads return 0, writes are no-ops, but for the OAM DMA trigger at `$4014` (20 R105). -/
def Obligations.ReservedIoReadsZero : Prop :=
  ∀ (a : Word) (v : Byte) (s : State), (0x4000 ≤ a ∧ a ≤ 0x4015) ∨ a = 0x4017 →
    memRead a s = (0x00, s) ∧ (a ≠ 0x4014 → memWrite a v s = s)

/-- A write to PRG ROM changes no state (20 R109, 60 R503). -/
def Obligations.RomWriteChangesNothing : Prop :=
  ∀ (a : Word) (v : Byte) (s : State), 0x8000 ≤ a → memWrite a v s = s

/-- `$4018`-`$7FFF` reads `$00` and ignores writes (20 R107, decision D10); a PRG ROM read gives the image byte at the address's offset,
a 16 KiB image standing twice in the window (20 R108). -/
def Obligations.UpperMapReads : Prop :=
  ∀ (a : Word) (v : Byte) (s : State),
    (0x4018 ≤ a → a < 0x8000 → memRead a s = (0x00, s) ∧ memWrite a v s = s) ∧
    (0x8000 ≤ a → s.bus.prgSize = .k32 → memRead a s = (s.bus.prg.read (a.toNat - 0x8000), s)) ∧
    (0x8000 ≤ a → s.bus.prgSize = .k16 → memRead a s = (s.bus.prg.read ((a.toNat - 0x8000) % 16384), s))

/-- A byte stored in RAM reads back at every mirror of its address, and every other byte of RAM and ROM reads as before (20 R102, R120). -/
def Obligations.StoredByteReadsBack : Prop :=
  ∀ (a b : Word) (v : Byte) (s : State), s.bus.ram.wf = true → a < 0x2000 →
    peek (memWrite a v s) b = if b < 0x2000 ∧ b.toNat % 2048 = a.toNat % 2048 then some v else peek s b

/-- What a write leaves alone, at every address: every register of the CPU, only a DMA's cycles being charged (40 R230, 60 R571);
PRG ROM, the pattern data, the mirroring, the counters and the host's fields but draws; RAM where the address is not RAM; the PPU where
the address is neither a PPU register nor `$4014`; the controller where it is neither `$4014` nor `$4016` (20 R101-R109). -/
def Obligations.WriteFrame : Prop :=
  ∀ (a : Word) (v : Byte) (s : State),
    (memWrite a v s).cpu = { s.cpu with cyc := s.cpu.cyc + dmaCharge a } ∧
    (memWrite a v s).bus.prg = s.bus.prg ∧ (memWrite a v s).bus.prgSize = s.bus.prgSize ∧
    (memWrite a v s).bus.cycles = s.bus.cycles ∧
    (memWrite a v s).ppu.chr = s.ppu.chr ∧ (memWrite a v s).ppu.mirroring = s.ppu.mirroring ∧
    (memWrite a v s).ppu.scanline = s.ppu.scanline ∧ (memWrite a v s).ppu.cycle = s.ppu.cycle ∧
    (memWrite a v s).host.frames = s.host.frames ∧ (memWrite a v s).host.view = s.host.view ∧
    (memWrite a v s).host.inputs = s.host.inputs ∧
    (¬ a < 0x2000 → (memWrite a v s).bus = s.bus) ∧
    (¬ (0x2000 ≤ a ∧ a < 0x4000) → a ≠ 0x4014 → (memWrite a v s).ppu = s.ppu) ∧
    (a ≠ 0x4014 → a ≠ 0x4016 → (memWrite a v s).pad = s.pad)

/-- Which reads have side effects: at every address but PPUSTATUS, PPUDATA and `$4016` a read changes nothing, save that a read of a
write-only PPU register takes a draw, of which the statement says nothing (20 R115, 60 R553, log 6). -/
def Obligations.ReadSideEffects : Prop :=
  ∀ (a : Word) (s : State),
    (a < 0x2000 ∨ 0x4000 ≤ a → a ≠ 0x4016 → (memRead a s).2 = s) ∧
    (0x2000 ≤ a → a < 0x4000 → a &&& 7 = 4 → memRead a s = (s.ppu.oam.read s.ppu.oamAddr.toNat, s)) ∧
    (0x2000 ≤ a → a < 0x4000 → a &&& 7 ≠ 2 → a &&& 7 ≠ 4 → a &&& 7 ≠ 7 →
      (memRead a s).2 = { s with host := (memRead a s).2.host } ∧ (memRead a s).2.host.frames = s.host.frames ∧
      (memRead a s).2.host.view = s.host.view ∧ (memRead a s).2.host.inputs = s.host.inputs)

/-- A push writes at `$0100 + S`, then decrements S; a pull increments S, then reads there; a word is pushed high byte first and pulled low
byte first; and pushing a word and pulling it returns it, at any S including across the wrap, with every register and every byte but the
two stack bytes as before (20 R125-R127). -/
def Obligations.Push16Pull16RoundTrip : Prop :=
  ∀ (w : Word) (b : Byte) (s : State),
    push b s = (memWrite (0x0100 + zext16 s.cpu.sp) b s).setSp (s.cpu.sp - 1) ∧
    pull s = memRead (0x0100 + zext16 (s.cpu.sp + 1)) (s.setSp (s.cpu.sp + 1)) ∧
    push16 w s = push (loByte w) (push (hiByte w) s) ∧
    pull16 s = (joinBytes (pull (pull s).2).1 (pull s).1, (pull (pull s).2).2) ∧
    (s.bus.ram.wf = true →
      (pull16 (push16 w s)).1 = w ∧ (pull16 (push16 w s)).2.cpu = s.cpu ∧ (pull16 (push16 w s)).2.ppu = s.ppu ∧
      (pull16 (push16 w s)).2.pad = s.pad ∧
      ∀ i, i ≠ 256 + s.cpu.sp.toNat → i ≠ 256 + (s.cpu.sp - 1).toNat →
        (pull16 (push16 w s)).2.bus.ram.read i = s.bus.ram.read i)

/-- The effective addresses of the modes but `ind`, which JmpCompletes gives, and that `impl`, `acc`, `imm` and `rel` have none (40
R205-R216); the zero-page pointers are read from RAM with the wrap in page zero (20 R112); and the operand value is the immediate byte, the
accumulator, or the answer of exactly one read of the effective address, with whatever side effects that address has (R218, 70 R614,
D30), after the page-cross penalty of one cycle where the page was crossed (R231); at an address of RAM or PRG ROM, a plain byte. -/
def Obligations.EffectiveAddresses : Prop :=
  ∀ (s : State) (b : Byte) (w : Word),
    resolve (.zp b) s = some ⟨zext16 b, zext16 b, false, s⟩ ∧
    resolve (.zpx b) s = some ⟨zext16 (b + s.cpu.x), zext16 (b + s.cpu.x), false, s⟩ ∧
    resolve (.zpy b) s = some ⟨zext16 (b + s.cpu.y), zext16 (b + s.cpu.y), false, s⟩ ∧
    resolve (.abs w) s = some ⟨w, w, false, s⟩ ∧
    (∃ r, resolve (.absx w) s = some r ∧ r.ea.toNat = (w.toNat + s.cpu.x.toNat) % 65536 ∧ r.base = w ∧ r.st = s ∧
      (r.crossed = true ↔ r.ea.toNat / 256 ≠ w.toNat / 256)) ∧
    (∃ r, resolve (.absy w) s = some r ∧ r.ea.toNat = (w.toNat + s.cpu.y.toNat) % 65536 ∧ r.base = w ∧ r.st = s ∧
      (r.crossed = true ↔ r.ea.toNat / 256 ≠ w.toNat / 256)) ∧
    (∃ r, resolve (.indx b) s = some r ∧ r.st = s ∧ r.crossed = false ∧
      r.ea = s.bus.ram.read ((b + s.cpu.x + 1).toNat) ++ s.bus.ram.read ((b + s.cpu.x).toNat)) ∧
    (∃ r, resolve (.indy b) s = some r ∧ r.st = s ∧ r.base = s.bus.ram.read ((b + 1).toNat) ++ s.bus.ram.read b.toNat ∧
      r.ea.toNat = (r.base.toNat + s.cpu.y.toNat) % 65536 ∧ (r.crossed = true ↔ r.ea.toNat / 256 ≠ r.base.toNat / 256)) ∧
    resolve .impl s = none ∧ resolve .acc s = none ∧ resolve (.imm b) s = none ∧ resolve (.rel b) s = none ∧
    readOperand (.imm b) s = some (b, s) ∧ readOperand .acc s = some (s.cpu.a, s) ∧
    (∀ (o : Operand) (r : Resolved), o.mode ≠ .ind → resolve o s = some r →
      pageCharge o s = (if r.crossed then 1 else 0) ∧
      readOperand o s = some (memRead r.ea (s.charge (pageCharge o s)))) ∧
    (∀ (o : Operand) (r : Resolved) (v : Byte), o.mode ≠ .ind → resolve o s = some r → peek s r.ea = some v →
      readOperand o s = some (v, s.charge (pageCharge o s)))

/-! ### Loads, stores, transfers -/

/-- LDA, LDX, LDY and LAX complete in every form: the operand goes to the register (LAX: to A and X), Z and N describe it, PC advances,
and nothing else changes but what the operand's read may change (41 R250-R252, 46 R436). LAS completes too, its one operand form reading
an indexed address: the operand AND S goes to A, X and S, with Z and N from it (46 R445). -/
def Obligations.LoadsComplete : Prop :=
  (∀ o : Operand,
    ((Instr.lda o).wf = true → CompletesReading (.lda o) o fun c m => { c with a := m, p := setZN c.p m }) ∧
    ((Instr.ldx o).wf = true → CompletesReading (.ldx o) o fun c m => { c with x := m, p := setZN c.p m }) ∧
    ((Instr.ldy o).wf = true → CompletesReading (.ldy o) o fun c m => { c with y := m, p := setZN c.p m }) ∧
    ((Instr.lax o).wf = true → CompletesReading (.lax o) o fun c m => { c with a := m, x := m, p := setZN c.p m })) ∧
  (∀ base : Word, CompletesReading (.las base) (.absy base) fun c m =>
    { c with a := m &&& c.sp, x := m &&& c.sp, sp := m &&& c.sp, p := setZN c.p (m &&& c.sp) })

/-- STA, STX, STY and SAX complete in every form: the byte is written once to the effective address, no flag and no register but PC
changes, and every byte outside the addressed one reads as before (41 R253-R255, 46 R435). -/
def Obligations.StoresComplete : Prop :=
  ∀ o : Operand,
    ((Instr.sta o).wf = true → CompletesStoring (.sta o) o fun c => c.a) ∧
    ((Instr.stx o).wf = true → CompletesStoring (.stx o) o fun c => c.x) ∧
    ((Instr.sty o).wf = true → CompletesStoring (.sty o) o fun c => c.y) ∧
    ((Instr.sax o).wf = true → CompletesStoring (.sax o) o fun c => c.a &&& c.x)

/-- The transfers and the index increments and decrements complete from every state; all but TXS set Z and N from the value moved or
computed, TXS writes no flag, and nothing but the destination, P and PC changes (41 R256-R261, 42 R313-R316). -/
def Obligations.RegisterInstructionsComplete : Prop :=
  CompletesInRegisters .tax 1 (fun c => { c with x := c.a, p := setZN c.p c.a }) ∧
  CompletesInRegisters .tay 1 (fun c => { c with y := c.a, p := setZN c.p c.a }) ∧
  CompletesInRegisters .txa 1 (fun c => { c with a := c.x, p := setZN c.p c.x }) ∧
  CompletesInRegisters .tya 1 (fun c => { c with a := c.y, p := setZN c.p c.y }) ∧
  CompletesInRegisters .tsx 1 (fun c => { c with x := c.sp, p := setZN c.p c.sp }) ∧
  CompletesInRegisters .txs 1 (fun c => { c with sp := c.x }) ∧
  CompletesInRegisters .inx 1 (fun c => { c with x := c.x + 1, p := setZN c.p (c.x + 1) }) ∧
  CompletesInRegisters .iny 1 (fun c => { c with y := c.y + 1, p := setZN c.p (c.y + 1) }) ∧
  CompletesInRegisters .dex 1 (fun c => { c with x := c.x - 1, p := setZN c.p (c.x - 1) }) ∧
  CompletesInRegisters .dey 1 (fun c => { c with y := c.y - 1, p := setZN c.p (c.y - 1) })

/-! ### Arithmetic and logic -/

/-- ADC, SBC and USBC complete in every form: A is the adder's result of the operand, complemented for a subtraction, and C, V, Z, N its
flags (42 R300, R302, R303, 46 R450). -/
def Obligations.AddAndSubtractComplete : Prop :=
  (∀ o : Operand,
    ((Instr.adc o).wf = true → CompletesReading (.adc o) o fun c m =>
      { c with a := addResult c.a m (getFlag c.p .c), p := addFlags c.p c.a m }) ∧
    ((Instr.sbc o).wf = true → CompletesReading (.sbc o) o fun c m =>
      { c with a := addResult c.a (~~~m) (getFlag c.p .c), p := addFlags c.p c.a (~~~m) })) ∧
  (∀ b : Byte, CompletesInRegisters (.usbc b) 2 fun c =>
    { c with a := addResult c.a (~~~b) (getFlag c.p .c), p := addFlags c.p c.a (~~~b) })

/-- AND, ORA and EOR complete in every form, with the result in A and Z and N from it (42 R304-R306). CMP, CPX, CPY and BIT complete
in every form and write no register but P: the compares C, Z and N from the difference, BIT Z from `A & M` and N and V from the operand's
bits 7 and 6 (42 R301, R307-R310). -/
def Obligations.LogicalsAndComparesComplete : Prop :=
  ∀ o : Operand,
    ((Instr.and o).wf = true → CompletesReading (.and o) o fun c m => { c with a := c.a &&& m, p := setZN c.p (c.a &&& m) }) ∧
    ((Instr.ora o).wf = true → CompletesReading (.ora o) o fun c m => { c with a := c.a ||| m, p := setZN c.p (c.a ||| m) }) ∧
    ((Instr.eor o).wf = true → CompletesReading (.eor o) o fun c m => { c with a := c.a ^^^ m, p := setZN c.p (c.a ^^^ m) }) ∧
    ((Instr.cmp o).wf = true → CompletesReading (.cmp o) o fun c m => { c with p := compareFlags c.p c.a m }) ∧
    ((Instr.cpx o).wf = true → CompletesReading (.cpx o) o fun c m => { c with p := compareFlags c.p c.x m }) ∧
    ((Instr.cpy o).wf = true → CompletesReading (.cpy o) o fun c m => { c with p := compareFlags c.p c.y m }) ∧
    ((Instr.bit o).wf = true → CompletesReading (.bit o) o fun c m => { c with
      p := (c.p &&& 0x3D) ||| (m &&& 0xC0) ||| (if c.a &&& m = 0 then 0x02 else 0x00) })

/-- INC and DEC complete in every form: one read, one write of the byte plus or minus 1, Z and N from the result, C and V kept
(42 R311, R312, 40 R222). -/
def Obligations.MemoryCountersComplete : Prop :=
  ∀ o : Operand,
    ((Instr.inc o).wf = true →
      CompletesModifying (.inc o) o (fun _ m => m + 1) fun c m => { c with p := setZN c.p (m + 1) }) ∧
    ((Instr.dec o).wf = true →
      CompletesModifying (.dec o) o (fun _ m => m - 1) fun c m => { c with p := setZN c.p (m - 1) })

/-! ### Shifts and rotates -/

/-- ASL, LSR, ROL and ROR complete on the accumulator and, as one read and one write, in every memory form: the bit shifted off goes to
C, the rotates shift the old C into the vacated bit, and Z and N describe the result (43 R350-R354). -/
def Obligations.ShiftsComplete : Prop :=
  (CompletesInRegisters (.asl .acc) 1 fun c =>
    { c with a := c.a <<< 1, p := setZN (setFlag c.p .c (c.a.getLsbD 7)) (c.a <<< 1) }) ∧
  (CompletesInRegisters (.lsr .acc) 1 fun c =>
    { c with a := c.a >>> 1, p := setZN (setFlag c.p .c (c.a.getLsbD 0)) (c.a >>> 1) }) ∧
  (CompletesInRegisters (.rol .acc) 1 fun c =>
    let r := (c.a <<< 1) ||| (if getFlag c.p .c then 0x01 else 0x00)
    { c with a := r, p := setZN (setFlag c.p .c (c.a.getLsbD 7)) r }) ∧
  (CompletesInRegisters (.ror .acc) 1 fun c =>
    let r := (c.a >>> 1) ||| (if getFlag c.p .c then 0x80 else 0x00)
    { c with a := r, p := setZN (setFlag c.p .c (c.a.getLsbD 0)) r }) ∧
  ∀ o : Operand, o.mode ≠ .acc →
    ((Instr.asl o).wf = true → CompletesModifying (.asl o) o (fun _ m => m <<< 1) fun c m =>
      { c with p := setZN (setFlag c.p .c (m.getLsbD 7)) (m <<< 1) }) ∧
    ((Instr.lsr o).wf = true → CompletesModifying (.lsr o) o (fun _ m => m >>> 1) fun c m =>
      { c with p := setZN (setFlag c.p .c (m.getLsbD 0)) (m >>> 1) }) ∧
    ((Instr.rol o).wf = true →
      CompletesModifying (.rol o) o (fun c m => (m <<< 1) ||| (if getFlag c.p .c then 0x01 else 0x00)) fun c m =>
        { c with p := setZN (setFlag c.p .c (m.getLsbD 7)) ((m <<< 1) ||| (if getFlag c.p .c then 0x01 else 0x00)) }) ∧
    ((Instr.ror o).wf = true →
      CompletesModifying (.ror o) o (fun c m => (m >>> 1) ||| (if getFlag c.p .c then 0x80 else 0x00)) fun c m =>
        { c with p := setZN (setFlag c.p .c (m.getLsbD 0)) ((m >>> 1) ||| (if getFlag c.p .c then 0x80 else 0x00)) })

/-! ### Control flow -/

/-- The eight branches complete from every state: taken on their flag's value, to `next + sext_16(b1)` with 1 cycle more, or 2 when the
target leaves next's page; not taken, to `next`; no flag and nothing else changes (44 R370-R378, 40 R217). -/
def Obligations.BranchesComplete : Prop :=
  ∀ (off : Byte) (s : State),
    let next := s.cpu.pc + 2
    let target := next + sext16 off
    let taken := { s with cpu := { s.cpu with
      pc := target, cyc := s.cpu.cyc + (if hiByte next = hiByte target then 1 else 2) } }
    let skipped := { s with cpu := { s.cpu with pc := next } }
    target.toInt = (next.toInt + off.toInt).bmod 65536 ∧
    exec (.bpl off) s = .next (if getFlag s.cpu.p .n then skipped else taken) ∧
    exec (.bmi off) s = .next (if getFlag s.cpu.p .n then taken else skipped) ∧
    exec (.bvc off) s = .next (if getFlag s.cpu.p .v then skipped else taken) ∧
    exec (.bvs off) s = .next (if getFlag s.cpu.p .v then taken else skipped) ∧
    exec (.bcc off) s = .next (if getFlag s.cpu.p .c then skipped else taken) ∧
    exec (.bcs off) s = .next (if getFlag s.cpu.p .c then taken else skipped) ∧
    exec (.bne off) s = .next (if getFlag s.cpu.p .z then skipped else taken) ∧
    exec (.beq off) s = .next (if getFlag s.cpu.p .z then taken else skipped)

/-- JMP completes from every state: absolute, to its operand; indirect, to the word at its pointer, whose high byte is read from the
pointer's own page (44 R379, R380, 40 R214); nothing but PC changes, save what the pointer's reads may change. -/
def Obligations.JmpCompletes : Prop :=
  ∀ (w : Word) (s : State),
    exec (.jmp (.abs w)) s = .next { s with cpu := { s.cpu with pc := w } } ∧
    (∃ r, resolve (.ind w) s = some r ∧ ReadFrame s r.st ∧
      exec (.jmp (.ind w)) s = .next { r.st with cpu := { s.cpu with pc := r.ea } }) ∧
    (∀ lo hi : Byte, peek s w = some lo → peek s (joinBytes (hiByte w) (loByte w + 1)) = some hi →
      exec (.jmp (.ind w)) s = .next { s with cpu := { s.cpu with pc := joinBytes hi lo } })

/-- JSR completes from every state: it pushes PC + 2, high byte first, and goes to its operand. RTS completes from every state: it pulls
a word, low byte first, and goes to one past it. Neither changes anything else (44 R381, R382). -/
def Obligations.CallAndReturnComplete : Prop :=
  ∀ (w : Word) (s : State),
    exec (.jsr w) s = .next { s with
      cpu := { s.cpu with sp := s.cpu.sp - 2, pc := w }
      bus := { s.bus with
        ram := (s.bus.ram.write (256 + s.cpu.sp.toNat) (hiByte (s.cpu.pc + 2))).write (256 + (s.cpu.sp - 1).toNat)
          (loByte (s.cpu.pc + 2)) } } ∧
    exec .rts s = .next { s with cpu := { s.cpu with
      sp := s.cpu.sp + 2
      pc := joinBytes (s.bus.ram.read (256 + (s.cpu.sp + 2).toNat)) (s.bus.ram.read (256 + (s.cpu.sp + 1).toNat)) + 1 } }

/-! ### Stack, flags, no operation -/

/-- PHA, PHP, PLA and PLP complete from every state: a push writes the byte at `$0100 + S` and lowers S, a pull raises S and reads it;
PHP pushes P with B and U set, PLP loads P with B clear and U set, PLA sets Z and N (45 R400-R403, 20 R125, R126). -/
def Obligations.StackInstructionsComplete : Prop :=
  ∀ s : State,
    exec .pha s = .next { s with
      cpu := { s.cpu with sp := s.cpu.sp - 1, pc := s.cpu.pc + 1 }
      bus := { s.bus with ram := s.bus.ram.write (256 + s.cpu.sp.toNat) s.cpu.a } } ∧
    exec .php s = .next { s with
      cpu := { s.cpu with sp := s.cpu.sp - 1, pc := s.cpu.pc + 1 }
      bus := { s.bus with ram := s.bus.ram.write (256 + s.cpu.sp.toNat) ((s.cpu.p &&& 0xCF) ||| 0x30) } } ∧
    exec .pla s = .next { s with cpu := { s.cpu with
      a := s.bus.ram.read (256 + (s.cpu.sp + 1).toNat)
      sp := s.cpu.sp + 1
      p := setZN s.cpu.p (s.bus.ram.read (256 + (s.cpu.sp + 1).toNat))
      pc := s.cpu.pc + 1 } } ∧
    exec .plp s = .next { s with cpu := { s.cpu with
      sp := s.cpu.sp + 1
      p := (s.bus.ram.read (256 + (s.cpu.sp + 1).toNat) &&& 0xCF) ||| 0x20
      pc := s.cpu.pc + 1 } }

/-- The flag instructions complete from every state and write their one bit of P (45 R404-R410). -/
def Obligations.FlagInstructionsComplete : Prop :=
  CompletesInRegisters .clc 1 (fun c => { c with p := c.p &&& 0xFE }) ∧
  CompletesInRegisters .sec 1 (fun c => { c with p := c.p ||| 0x01 }) ∧
  CompletesInRegisters .cli 1 (fun c => { c with p := c.p &&& 0xFB }) ∧
  CompletesInRegisters .sei 1 (fun c => { c with p := c.p ||| 0x04 }) ∧
  CompletesInRegisters .clv 1 (fun c => { c with p := c.p &&& 0xBF }) ∧
  CompletesInRegisters .cld 1 (fun c => { c with p := c.p &&& 0xF7 }) ∧
  CompletesInRegisters .sed 1 (fun c => { c with p := c.p ||| 0x08 })

/-- NOP completes in every form: the one-byte forms only advance PC, the immediate forms discard their byte, and the memory forms read
their operand with its side effects and page penalty and discard it (45 R411, 46 R451-R453, decision D30). -/
def Obligations.NopCompletes : Prop :=
  ∀ op : Byte,
    CompletesInRegisters (.nop op .impl) 1 (fun c => c) ∧
    (∀ b : Byte, CompletesInRegisters (.nop op (.imm b)) 2 (fun c => c)) ∧
    (∀ o : Operand, (Instr.nop op o).wf = true → o.mode ≠ .impl → CompletesReading (.nop op o) o fun c _ => c)

/-! ### Unofficial opcodes -/

/-- SLO, RLA, SRE, RRA, DCP and ISB complete in every form, each as the composition of its two primitives: one read, one write of the
first one's result, and A and P from the second on the value written, over the first one's carry (46 R430-R434, R437, R438). -/
def Obligations.CompositesComplete : Prop :=
  ∀ o : Operand,
    ((Instr.slo o).wf = true → CompletesModifying (.slo o) o (fun _ m => m <<< 1) fun c m => { c with
      a := c.a ||| (m <<< 1), p := setZN (setFlag c.p .c (m.getLsbD 7)) (c.a ||| (m <<< 1)) }) ∧
    ((Instr.rla o).wf = true →
      CompletesModifying (.rla o) o (fun c m => (m <<< 1) ||| (if getFlag c.p .c then 0x01 else 0x00)) fun c m =>
        let r := c.a &&& ((m <<< 1) ||| (if getFlag c.p .c then 0x01 else 0x00))
        { c with a := r, p := setZN (setFlag c.p .c (m.getLsbD 7)) r }) ∧
    ((Instr.sre o).wf = true → CompletesModifying (.sre o) o (fun _ m => m >>> 1) fun c m => { c with
      a := c.a ^^^ (m >>> 1), p := setZN (setFlag c.p .c (m.getLsbD 0)) (c.a ^^^ (m >>> 1)) }) ∧
    ((Instr.rra o).wf = true →
      CompletesModifying (.rra o) o (fun c m => (m >>> 1) ||| (if getFlag c.p .c then 0x80 else 0x00)) fun c m =>
        let r := (m >>> 1) ||| (if getFlag c.p .c then 0x80 else 0x00)
        { c with a := addResult c.a r (m.getLsbD 0), p := addFlags (setFlag c.p .c (m.getLsbD 0)) c.a r }) ∧
    ((Instr.dcp o).wf = true → CompletesModifying (.dcp o) o (fun _ m => m - 1) fun c m =>
      { c with p := compareFlags c.p c.a (m - 1) }) ∧
    ((Instr.isb o).wf = true → CompletesModifying (.isb o) o (fun _ m => m + 1) fun c m => { c with
      a := addResult c.a (~~~(m + 1)) (getFlag c.p .c), p := addFlags c.p c.a (~~~(m + 1)) })

/-- ANC, ALR, ARR, SBX, ANE and LXA complete from every state (46 R439-R444). The constants of ANE and LXA are open parameters
(decision D27, log 5): the statement holds for every value of them. -/
def Obligations.ImmediateCompositesComplete : Prop :=
  ∀ op b : Byte,
    CompletesInRegisters (.anc op b) 2 (fun c => { c with
      a := c.a &&& b, p := setFlag (setZN c.p (c.a &&& b)) .c ((c.a &&& b).getLsbD 7) }) ∧
    CompletesInRegisters (.alr b) 2 (fun c => { c with
      a := (c.a &&& b) >>> 1, p := setZN (setFlag c.p .c ((c.a &&& b).getLsbD 0)) ((c.a &&& b) >>> 1) }) ∧
    CompletesInRegisters (.arr b) 2 (fun c =>
      let r := ((c.a &&& b) >>> 1) ||| (if getFlag c.p .c then 0x80 else 0x00)
      { c with a := r, p := setFlag (setFlag (setZN c.p r) .c (r.getLsbD 6)) .v (r.getLsbD 6 ^^ r.getLsbD 5) }) ∧
    CompletesInRegisters (.sbx b) 2 (fun c => { c with
      x := (c.a &&& c.x) - b, p := setZN (setFlag c.p .c (decide (b.toNat ≤ (c.a &&& c.x).toNat))) ((c.a &&& c.x) - b) }) ∧
    CompletesInRegisters (.ane b) 2 (fun c =>
      let r := (c.a ||| Config.aneConst) &&& c.x &&& b
      { c with a := r, p := setZN c.p r }) ∧
    CompletesInRegisters (.lxa b) 2 (fun c =>
      let v := (c.a ||| Config.lxaConst) &&& b
      { c with a := v, x := v, p := setZN c.p v })

/-- SHA, SHX, SHY and TAS complete from every state: the value is the register AND (the base's high byte + 1), and on a page cross it
replaces the high byte of the address stored to; TAS first sets S to `A & X`; no flag changes, and no byte but the addressed one
(46 R446-R449, decision D28). -/
def Obligations.HighByteStoresComplete : Prop :=
  ∀ (s : State) (base : Word) (b1 : Byte),
    let value := fun (r : Byte) (from16 : Word) => r &&& (hiByte from16 + 1)
    let place := fun (v : Byte) (from16 : Word) (index : Byte) =>
      let ea := from16 + zext16 index
      if hiByte from16 = hiByte ea then ea else joinBytes v (loByte ea)
    let done := fun (c : Cpu) (n : Nat) (a : Word) (v : Byte) => { memWrite a v s with cpu := { c with
      pc := c.pc + BitVec.ofNat 16 n, cyc := c.cyc + dmaCharge a } }
    let ptr := joinBytes (s.bus.ram.read (b1 + 1).toNat) (s.bus.ram.read b1.toNat)
    let ax := s.cpu.a &&& s.cpu.x
    exec (.sha (.absy base)) s = .next (done s.cpu 3 (place (value ax base) base s.cpu.y) (value ax base)) ∧
    exec (.sha (.indy b1)) s = .next (done s.cpu 2 (place (value ax ptr) ptr s.cpu.y) (value ax ptr)) ∧
    exec (.shx base) s = .next (done s.cpu 3 (place (value s.cpu.x base) base s.cpu.y) (value s.cpu.x base)) ∧
    exec (.shy base) s = .next (done s.cpu 3 (place (value s.cpu.y base) base s.cpu.x) (value s.cpu.y base)) ∧
    exec (.tas base) s =
      .next (done { s.cpu with sp := ax } 3 (place (value ax base) base s.cpu.y) (value ax base)) ∧
    ∀ (a : Word) (v : Byte), SameBytesBut a s (memWrite a v s)

/-- JAM records its fault and changes nothing else: the run state holds the kind, the opcode byte and PC, which is not advanced
(46 R454, 60 R501, decision D7). -/
def Obligations.JamRecordsItsFault : Prop :=
  ∀ (op : Byte) (s : State),
    exec (.jam op) s = .next { s with cpu := { s.cpu with run := .faulted ⟨.jam, op, s.cpu.pc⟩ } }

/-! ### The PPU -/

/-- The effect of a CPU write to each of the seven PPU registers `$2000`-`$2006` (60 R541, R542, R544-R546, R548, R549; decisions D12, D13,
D33; PpuDataPort gives that to `$2007`), and of a read of PPUSTATUS (60 R543; decisions D21, D22); nothing outside the PPU changes. -/
def Obligations.PpuRegisterAccesses : Prop :=
  ∀ (s : State) (v : Byte),
    memWrite 0x2000 v s = { s with ppu := { s.ppu with
      ctrl := v
      nmiPending := s.ppu.nmiPending || (!s.ppu.ctrl.getLsbD 7 && v.getLsbD 7 && s.ppu.status.getLsbD 7) } } ∧
    memWrite 0x2001 v s = { s with ppu := { s.ppu with mask := v } } ∧
    memWrite 0x2002 v s = s ∧
    memWrite 0x2003 v s = { s with ppu := { s.ppu with oamAddr := v } } ∧
    memWrite 0x2004 v s = { s with ppu := { s.ppu with
      oam := s.ppu.oam.write s.ppu.oamAddr.toNat v, oamAddr := s.ppu.oamAddr + 1 } } ∧
    memWrite 0x2005 v s = { s with ppu := if s.ppu.w
      then { s.ppu with scrollY := v, w := false }
      else { s.ppu with scrollX := v, w := true } } ∧
    (s.ppu.w = false → memWrite 0x2006 v s = { s with ppu := { s.ppu with
      v := joinBytes (v &&& 0x3F) (loByte s.ppu.v), w := true } }) ∧
    (s.ppu.w = true → memWrite 0x2006 v s = { s with ppu := { s.ppu with
      v := joinBytes (hiByte s.ppu.v) v, w := false } }) ∧
    memRead 0x2002 s = (s.ppu.status, { s with ppu := { s.ppu with status := s.ppu.status &&& 0x7F, w := false } })

/-- PPUDATA: below the palette a read gives the old buffer and refills it from the address; in the palette it gives the addressed byte
and refills the buffer from the nametable under it; a write stores; and every access moves the address by 1 or 32, in 14 bits
(60 R550-R552; decisions D13, D16). -/
def Obligations.PpuDataPort : Prop :=
  ∀ (s : State) (v : Byte),
    let step14 := (s.ppu.v + (if s.ppu.ctrl.getLsbD 2 then 32 else 1)) &&& 0x3FFF
    (s.ppu.v < 0x3F00 → memRead 0x2007 s =
      (s.ppu.buf, { s with ppu := { s.ppu with buf := ppuRead s.ppu s.ppu.v, v := step14 } })) ∧
    (0x3F00 ≤ s.ppu.v → memRead 0x2007 s =
      (ppuRead s.ppu s.ppu.v, { s with ppu := { s.ppu with buf := ppuRead s.ppu (s.ppu.v - 0x1000), v := step14 } })) ∧
    memWrite 0x2007 v s = { s with ppu := { ppuWrite s.ppu s.ppu.v v with v := step14 } }

/-- The PPU's address space (20 R130, R135): a pattern-table read gives the CHR byte of its address and a write there is ignored (R134,
D17); a nametable access is one of the video-RAM byte at bank A or B plus the address modulo 1024, the bank by the mirroring and the
quadrant (R132), `$3000`-`$3EFF` naming the bytes of `$2000`-`$2EFF` (R131, D14); a palette access is one of entry `p & $1F`, with four
entries mirrored down (R133, D15); and what a write stores reads back at exactly the addresses that name the same cell. -/
def Obligations.PpuAddressSpace : Prop :=
  (∀ (q : Ppu) (p : Word) (x : Byte),
    (p < 0x2000 → ppuRead q p = q.chr.read p.toNat ∧ ppuWrite q p x = q) ∧
    (0x2000 ≤ p → p < 0x3F00 → ppuRead q p = q.vram.read (ntIndex q.mirroring p) ∧
      ppuWrite q p x = { q with vram := q.vram.write (ntIndex q.mirroring p) x }) ∧
    (0x3F00 ≤ p → ppuRead q p = q.palette.read (paletteIndex p) ∧
      ppuWrite q p x = { q with palette := q.palette.write (paletteIndex p) x })) ∧
  (∀ p : Word,
    let quadrant := p.toNat / 1024 % 4
    ntIndex .horizontal p = (if quadrant = 0 ∨ quadrant = 1 then 0 else 0x400) + p.toNat % 1024 ∧
    ntIndex .vertical p = (if quadrant = 0 ∨ quadrant = 2 then 0 else 0x400) + p.toNat % 1024) ∧
  (∀ p : Word,
    let k := p.toNat % 32
    paletteIndex p = (if k = 0x10 ∨ k = 0x14 ∨ k = 0x18 ∨ k = 0x1C then k - 0x10 else k)) ∧
  (∀ (q : Ppu) (p p' : Word) (x : Byte), q.vram.wf = true → q.palette.wf = true →
    ppuRead (ppuWrite q p x) p' =
      if 0x2000 ≤ p ∧ p < 0x3F00 ∧ 0x2000 ≤ p' ∧ p' < 0x3F00 ∧ ntIndex q.mirroring p = ntIndex q.mirroring p' then x
      else if 0x3F00 ≤ p ∧ 0x3F00 ≤ p' ∧ paletteIndex p = paletteIndex p' then x
      else ppuRead q p') ∧
  (∀ p : Word, ntIndex .horizontal (p ^^^ 0x0400) = ntIndex .horizontal p) ∧
  (∀ p : Word, ntIndex .vertical (p ^^^ 0x0800) = ntIndex .vertical p) ∧
  (∀ p : Word, ntIndex .horizontal (p ^^^ 0x0800) ≠ ntIndex .horizontal p) ∧
  (∀ p : Word, ntIndex .vertical (p ^^^ 0x0400) ≠ ntIndex .vertical p) ∧
  (∀ (m : Mirroring) (p : Word), ntIndex m (p + 0x1000) = ntIndex m p) ∧
  paletteIndex 0x3F10 = 0x00 ∧ paletteIndex 0x3F14 = 0x04 ∧ paletteIndex 0x3F18 = 0x08 ∧ paletteIndex 0x3F1C = 0x0C

/-- The PPU's clock is a counter modulo one frame: from a legal position, a tick of `n` moves the position by `n` modulo 262 × 341 =
89342, and reports a completed frame exactly when the frame's end was reached (60 R560, R564; decision D20). -/
def Obligations.TickIsAModularClock : Prop :=
  ∀ (q : Ppu) (n : Nat), q.scanline < 262 → q.cycle < 341 →
    (ppuTick n q).1.scanline < 262 ∧ (ppuTick n q).1.cycle < 341 ∧
    (ppuTick n q).1.scanline * 341 + (ppuTick n q).1.cycle = (q.scanline * 341 + q.cycle + n) % 89342 ∧
    ((ppuTick n q).2 = true ↔ 89342 ≤ q.scanline * 341 + q.cycle + n)

/-- The increment that makes the scanline 241 sets the vblank bit and clears the sprite-0-hit bit; if the control register's NMI bit is set,
an NMI is requested, and otherwise the request stays as it was; so the vblank bit is set when a tick ends on scanline 241's first
crossing (60 R562). -/
def Obligations.VblankBegins : Prop :=
  ∀ q : Ppu, q.scanline = 240 →
    nextScanline q = ({ q with
      cycle := q.cycle - 341
      scanline := 241
      status := (q.status ||| 0x80) &&& 0xBF
      nmiPending := q.nmiPending || q.ctrl.getLsbD 7 }, false) ∧
    ∀ n : Nat, 341 ≤ q.cycle + n → q.cycle + n < 682 →
      (ppuTick n q).1.scanline = 241 ∧ (ppuTick n q).1.status.getLsbD 7 = true ∧ (ppuTick n q).1.status.getLsbD 6 = false ∧
      (ppuTick n q).1.nmiPending = (q.nmiPending || q.ctrl.getLsbD 7)

/-- Reaching scanline 262 resets to scanline 0, clears vblank and sprite-0-hit, clears a pending NMI and signals a completed frame
(60 R564). -/
def Obligations.FrameEnds : Prop :=
  ∀ (q : Ppu) (n : Nat), q.scanline = 261 → 341 ≤ q.cycle + n → q.cycle + n < 682 →
    (ppuTick n q).1.scanline = 0 ∧ (ppuTick n q).1.status.getLsbD 7 = false ∧ (ppuTick n q).1.status.getLsbD 6 = false ∧
    (ppuTick n q).1.nmiPending = false ∧ (ppuTick n q).2 = true

/-- A tick does the sprite-0 test once, before any wrap, with the scanline the tick started on and the accumulated cycle, which may be 341
or more (60 R560, R561; decision D19). Where the tick passes neither scanline 241 nor the frame's end, it does that test and moves the
counters, over as many scanlines as the cycles fill, and changes nothing else of the PPU; where it passes scanline 241 (R562), or the
frame's end (R564; on to a scanline before 241 of the next frame), the bit is cleared there whatever the test gave. -/
def Obligations.SpriteZeroTest : Prop :=
  ∀ (q : Ppu) (n : Nat),
    let line := q.scanline + (q.cycle + n) / 341
    let tested := if (q.oam.read 0).toNat = q.scanline ∧ (q.oam.read 3).toNat ≤ q.cycle + n ∧ q.mask.getLsbD 4 = true
      then q.status ||| 0x40 else q.status
    (q.cycle + n < 341 → ppuTick n q = ({ q with cycle := q.cycle + n, status := tested }, false)) ∧
    (line < 241 ∨ 241 ≤ q.scanline ∧ line < 262 →
      ppuTick n q = ({ q with scanline := line, cycle := (q.cycle + n) % 341, status := tested }, false)) ∧
    (q.scanline < 241 → 241 ≤ line → line < 262 →
      ppuTick n q = ({ q with
        scanline := line
        cycle := (q.cycle + n) % 341
        status := (q.status ||| 0x80) &&& 0xBF
        nmiPending := q.nmiPending || q.ctrl.getLsbD 7 }, false)) ∧
    (q.scanline < 262 → 262 ≤ line → line < 503 →
      ppuTick n q = ({ q with
        scanline := line - 262
        cycle := (q.cycle + n) % 341
        status := q.status &&& 0x3F
        nmiPending := false }, true))

/-- The Bus multiplies CPU cycles by 3 and advances the PPU; where a frame completed, the frame callback fires once with the view of the
PPU after the tick, and the host may set the buttons in it; nothing else changes (60 R565, R566). The fields that record the callback
and hold the host's input are the model's own (logs 10 and 11). -/
def Obligations.BusTickForwardsClock : Prop :=
  ∀ (c : Nat) (s : State),
    let q := (ppuTick (3 * c) s.ppu).1
    let bus := { s.bus with cycles := s.bus.cycles + c }
    let view : FrameView := ⟨q.vram, q.oam, q.palette, q.scrollX, q.scrollY, q.mirroring, q.chr, q.ctrl, q.mask⟩
    ((ppuTick (3 * c) s.ppu).2 = false → busTick c s = { s with ppu := q, bus := bus }) ∧
    ((ppuTick (3 * c) s.ppu).2 = true → busTick c s = { s with
      ppu := q
      bus := bus
      pad := { s.pad with buttons := s.host.inputs.headD s.pad.buttons }
      host := { s.host with frames := s.host.frames + 1, view := some view, inputs := s.host.inputs.tail } })

/-! ### Devices -/

/-- An OAM DMA from page `v` (60 R570, R571; the cycle count is an open parameter, D9, log 4): 256 times, an ordinary Bus read of the
page's next byte and a store at the OAM cursor, which moves on and wraps; the DMA's cycles are charged. From any page, byte `k` of the
copy is what the read of byte `k` gives after `k` copies, and the cursor ends where it began. From a RAM or PRG ROM page those are the
page's bytes; from `$4000` they are 0 but for the controller's bit at `$4016`, which is read once; from `$4100`-`$7FFF` they are 0; and but
for that controller read nothing else changes. -/
def Obligations.OamDmaCopiesAPage : Prop :=
  ∀ (v : Byte) (s : State),
    let copied := fun k => (List.range k).foldl (fun t i =>
      let r := memRead (joinBytes v (BitVec.ofNat 8 i)) t
      { r.2 with ppu := { r.2.ppu with
        oam := r.2.ppu.oam.write r.2.ppu.oamAddr.toNat r.1, oamAddr := r.2.ppu.oamAddr + 1 } }) s
    let t := memWrite 0x4014 v s
    let reaches := fun k => t.ppu.oam.read (s.ppu.oamAddr + BitVec.ofNat 8 k).toNat
    let after := { s with
      cpu := { s.cpu with cyc := s.cpu.cyc + Config.oamDmaCycles }, ppu := { s.ppu with oam := t.ppu.oam } }
    t = { copied 256 with cpu := after.cpu } ∧ t.ppu.oamAddr = s.ppu.oamAddr ∧ t.bus = s.bus ∧
    (s.ppu.oam.wf = true → ∀ k, k < 256 → reaches k = (memRead (joinBytes v (BitVec.ofNat 8 k)) (copied k)).1) ∧
    (v < 0x20 → t = after ∧
      (s.ppu.oam.wf = true → ∀ k, k < 256 → reaches k = s.bus.ram.read ((v.toNat * 256 + k) % 2048))) ∧
    (0x80 ≤ v → t = after ∧
      (s.ppu.oam.wf = true → ∀ k, k < 256 → reaches k = s.bus.prgByte (joinBytes v (BitVec.ofNat 8 k)))) ∧
    (v = 0x40 → t = { after with pad := (memRead 0x4016 s).2.pad } ∧
      (s.ppu.oam.wf = true → ∀ k, k < 256 → reaches k = if k = 0x16 then (memRead 0x4016 s).1 else 0x00)) ∧
    (0x41 ≤ v → v < 0x80 → t = after ∧ (s.ppu.oam.wf = true → ∀ k, k < 256 → reaches k = 0x00))

/-- The controller: after a strobe of 1 then 0, `n` reads of `$4016` give the eight buttons in order, then 1 for ever; with the strobe
held, every read gives button A (60 R576, R577; decision D31). -/
def Obligations.ControllerReportsButtons : Prop :=
  ∀ (s : State) (n : Nat),
    (readTimes n 0x4016 (memWrite 0x4016 0x00 (memWrite 0x4016 0x01 s))).1 =
      (List.range n).map (fun k => if k < 8 then (s.pad.buttons >>> k) &&& 1 else 0x01) ∧
    (readTimes n 0x4016 (memWrite 0x4016 0x01 s)).1 = List.replicate n (s.pad.buttons &&& 1)
end

