-- ==== Sys2Proof/Laws/Flags.lean ====
section
/-! SUPPORT. The laws of the status byte: reading a flag after writing one, the zero and negative rule, the pushed and pulled images. -/

namespace Sys2Proof.Machine

/-- Writing a flag gives that flag and leaves every other. -/
theorem getFlag_setFlag (p : Byte) (f g : Flag) (b : Bool) :
    getFlag (setFlag p f b) g = if g = f then b else getFlag p g := by
  cases f <;> cases g <;> cases b <;> simp [getFlag, setFlag, flagBit]

@[simp] theorem getFlag_setFlag_same (p : Byte) (f : Flag) (b : Bool) : getFlag (setFlag p f b) f = b := by
  rw [getFlag_setFlag, if_pos rfl]

theorem getFlag_setFlag_other (p : Byte) {f g : Flag} (b : Bool) (h : g ≠ f) : getFlag (setFlag p f b) g = getFlag p g := by
  rw [getFlag_setFlag, if_neg h]

/-- `SetZN` writes Z and N and no other flag (10 R40). -/
theorem getFlag_setZN (p v : Byte) (g : Flag) :
    getFlag (setZN p v) g = if g = .n then v.msb else if g = .z then v == 0 else getFlag p g := by
  unfold setZN
  rw [getFlag_setFlag, getFlag_setFlag]

/-- The adder writes C, V, Z and N and no other flag (42 R300). -/
theorem getFlag_addFlags (p a m : Byte) (g : Flag) :
    getFlag (addFlags p a m) g =
      match g with
      | .c => addCarry a m (getFlag p .c)
      | .v => addOverflow a m (getFlag p .c)
      | .z => addResult a m (getFlag p .c) == 0
      | .n => (addResult a m (getFlag p .c)).msb
      | .i => getFlag p .i
      | .d => getFlag p .d
      | .b => getFlag p .b
      | .u => getFlag p .u := by
  cases g <;> simp [addFlags, getFlag_setZN, getFlag_setFlag]

/-- A compare writes C, Z and N and no other flag (42 R301). -/
theorem getFlag_compareFlags (p r m : Byte) (g : Flag) :
    getFlag (compareFlags p r m) g =
      if g = .n then (r - m).msb else if g = .z then r - m == 0 else if g = .c then decide (m ≤ r) else getFlag p g := by
  unfold compareFlags
  rw [getFlag_setZN, getFlag_setFlag]

/-- A shift writes C, Z and N and no other flag (43 R350). -/
theorem getFlag_shiftFlags (p : Byte) (r : Shifted) (g : Flag) :
    getFlag (shiftFlags p r) g =
      if g = .n then r.value.msb else if g = .z then r.value == 0 else if g = .c then r.carry else getFlag p g := by
  unfold shiftFlags
  rw [getFlag_setZN, getFlag_setFlag]

/-- The pushed image has U set, B as the entry says, and every other flag of P (10 R41). -/
theorem getFlag_pushImage (p : Byte) (brk : Bool) (g : Flag) :
    getFlag (pushImage p brk) g = if g = .u then true else if g = .b then brk else getFlag p g := by
  cases g <;> cases brk <;> simp [getFlag, pushImage, flagBit]

/-- The loaded P has U set, B clear, and every other flag of the pulled byte (10 R42). -/
theorem getFlag_pulledStatus (b : Byte) (g : Flag) :
    getFlag (pulledStatus b) g = if g = .u then true else if g = .b then false else getFlag b g := by
  cases g <;> simp [getFlag, pulledStatus, flagBit]

/-- A byte is its eight flags. -/
theorem eq_of_flags {p q : Byte} (h : ∀ f, getFlag p f = getFlag q f) : p = q := by
  apply BitVec.eq_of_getLsbD_eq
  intro i hi
  match i, hi with
  | 0, _ => exact h .c
  | 1, _ => exact h .z
  | 2, _ => exact h .i
  | 3, _ => exact h .d
  | 4, _ => exact h .b
  | 5, _ => exact h .u
  | 6, _ => exact h .v
  | 7, _ => exact h .n
  | n + 8, hn => omega

end Sys2Proof.Machine
end

