-- ==== Sys2Proof/Laws/Memory.lean ====
section
/-! SUPPORT. The laws of a memory: a read after a write, and that every operation keeps the canonical form and the size. -/

namespace Sys2Proof.Machine

theorem read_entry_same (a : Nat) (v : Byte) (m : Memory) (h : m.read a = Memory.unlisted) :
    (Memory.entry a v m).read a = v := by
  unfold Memory.entry
  split
  · simp_all
  · simp [Memory.read]

theorem read_entry_other {a b : Nat} (v : Byte) (m : Memory) (h : b ≠ a) :
    (Memory.entry a v m).read b = m.read b := by
  unfold Memory.entry
  split
  · rfl
  · simp [Memory.read, Ne.symm h]

/-- An address below every listed one reads as unlisted. -/
theorem read_below_all {a : Nat} : ∀ {m : Memory}, (m.all fun c => decide (a < c.1)) = true → m.read a = Memory.unlisted
  | [], _ => rfl
  | (k, v) :: rest, h => by
    simp only [List.all_cons, Bool.and_eq_true, decide_eq_true_eq] at h
    simp only [Memory.read]
    rw [if_neg (by omega)]
    exact read_below_all h.2

theorem all_lt_of_lt {a k : Nat} {m : Memory} (h : a ≤ k) (hm : (m.all fun c => decide (k < c.1)) = true) :
    (m.all fun c => decide (a < c.1)) = true := by
  simp only [List.all_eq_true, decide_eq_true_eq] at *
  intro c hc
  have := hm c hc
  omega

theorem wf_cons {k : Nat} {v : Byte} {rest : Memory} :
    Memory.wf ((k, v) :: rest) = true ↔
      v ≠ Memory.unlisted ∧ (rest.all fun c => decide (k < c.1)) = true ∧ rest.wf = true := by
  simp [Memory.wf, and_assoc]

/-- A read after a write to the same address gives the byte written. -/
theorem read_write_same : ∀ (m : Memory), m.wf = true → ∀ (a : Nat) (v : Byte), (m.write a v).read a = v
  | [], _, a, v => read_entry_same a v [] rfl
  | (k, u) :: rest, h, a, v => by
    obtain ⟨_, hall, hr⟩ := wf_cons.mp h
    simp only [Memory.write]
    split
    · rename_i hlt
      refine read_entry_same a v _ ?_
      simp only [Memory.read]
      rw [if_neg (by omega)]
      exact read_below_all (all_lt_of_lt (by omega) hall)
    · split
      · rename_i heq
        exact read_entry_same a v rest (read_below_all (heq ▸ hall))
      · simp only [Memory.read]
        rw [if_neg (by omega)]
        exact read_write_same rest hr a v

/-- A write leaves every other address alone, whatever the memory. -/
theorem read_write_other : ∀ (m : Memory) (a b : Nat) (v : Byte), b ≠ a → (m.write a v).read b = m.read b
  | [], a, b, v, h => read_entry_other v [] h
  | (k, u) :: rest, a, b, v, h => by
    simp only [Memory.write]
    split
    · exact read_entry_other v _ h
    · split
      · rename_i heq
        rw [read_entry_other v _ h, Memory.read, if_neg (by omega)]
      · simp only [Memory.read]
        rw [read_write_other rest a b v h]

theorem all_entry {p : Host.Cell → Bool} {a : Nat} {v : Byte} {m : Memory} (hm : m.all p = true) (ha : p (a, v) = true) :
    (Memory.entry a v m).all p = true := by
  unfold Memory.entry
  split
  · exact hm
  · simp [List.all_cons, ha, hm]

/-- What holds of every entry, whatever its byte, holds after a write to an address it holds of. -/
theorem all_write {p : Host.Cell → Bool} {a : Nat} {v : Byte} (ha : p (a, v) = true) :
    ∀ (m : Memory), m.all p = true → (m.write a v).all p = true
  | [], _ => all_entry rfl ha
  | (k, u) :: rest, h => by
    have h' := h
    simp only [List.all_cons, Bool.and_eq_true] at h'
    simp only [Memory.write]
    split
    · exact all_entry h ha
    · split
      · exact all_entry h'.2 ha
      · simp only [List.all_cons, Bool.and_eq_true]
        exact ⟨h'.1, all_write ha rest h'.2⟩

theorem wf_entry {a : Nat} {v : Byte} {m : Memory} (hm : m.wf = true) (ha : (m.all fun c => decide (a < c.1)) = true) :
    (Memory.entry a v m).wf = true := by
  unfold Memory.entry
  split
  · exact hm
  · rename_i hv
    exact wf_cons.mpr ⟨hv, ha, hm⟩

/-- A write keeps the canonical form. -/
theorem write_wf : ∀ (m : Memory) (a : Nat) (v : Byte), m.wf = true → (m.write a v).wf = true
  | [], _, _, _ => wf_entry rfl rfl
  | (k, u) :: rest, a, v, h => by
    obtain ⟨hu, hall, hr⟩ := wf_cons.mp h
    simp only [Memory.write]
    split
    · rename_i hlt
      refine wf_entry h ?_
      simp only [List.all_cons, Bool.and_eq_true, decide_eq_true_eq]
      exact ⟨hlt, all_lt_of_lt (Nat.le_of_lt hlt) hall⟩
    · split
      · rename_i heq
        exact wf_entry hr (heq ▸ hall)
      · refine wf_cons.mpr ⟨hu, all_write ?_ rest hall, write_wf rest a v hr⟩
        simp only [decide_eq_true_eq]
        omega

/-- A write inside a size keeps every listed address inside it. -/
theorem write_below {n a : Nat} (m : Memory) (v : Byte) (ha : a < n) (h : m.below n = true) : (m.write a v).below n = true :=
  all_write (by simpa using ha) m h

theorem ofBytesFrom_all (a : Nat) : ∀ (vs : List Byte) (k : Nat), a < k → ((Memory.ofBytesFrom k vs).all fun c => decide (a < c.1)) = true
  | [], _, _ => rfl
  | v :: vs, k, h => all_entry (ofBytesFrom_all a vs (k + 1) (by omega)) (by simpa using h)

/-- A byte array's memory is canonical. -/
theorem ofBytesFrom_wf : ∀ (vs : List Byte) (k : Nat), (Memory.ofBytesFrom k vs).wf = true
  | [], _ => rfl
  | v :: vs, k => wf_entry (ofBytesFrom_wf vs (k + 1)) (ofBytesFrom_all k vs (k + 1) (by omega))

/-- A byte array's memory lists addresses inside the array only. -/
theorem ofBytesFrom_below (n : Nat) : ∀ (vs : List Byte) (k : Nat), k + vs.length ≤ n → (Memory.ofBytesFrom k vs).below n = true
  | [], _, _ => rfl
  | v :: vs, k, h => by
    simp only [List.length_cons] at h
    exact all_entry (ofBytesFrom_below n vs (k + 1) (by omega)) (by simp only [decide_eq_true_eq]; omega)

/-- A byte array's memory reads as the array. -/
theorem ofBytesFrom_read : ∀ (vs : List Byte) (k i : Nat), i < vs.length →
    (Memory.ofBytesFrom k vs).read (k + i) = vs.getD i Memory.unlisted
  | [], _, _, h => by simp at h
  | v :: vs, k, 0, _ => by
    exact read_entry_same k v _ (read_below_all (ofBytesFrom_all k vs (k + 1) (by omega)))
  | v :: vs, k, i + 1, h => by
    simp only [List.length_cons] at h
    rw [Memory.ofBytesFrom, read_entry_other v _ (by omega), show k + (i + 1) = (k + 1) + i by omega,
      ofBytesFrom_read vs (k + 1) i (by omega)]
    simp

/-- A memory made of the first `n` bytes of a list reads as the list there, and as unlisted past its end (D24). -/
theorem ofBytes_take_read (vs : List Byte) {n i : Nat} (h : i < n) :
    (Memory.ofBytes (vs.take n)).read i = vs.getD i Memory.unlisted := by
  have key : ∀ (us : List Byte) (k i : Nat), us.length ≤ i → (Memory.ofBytesFrom k us).read (k + i) = Memory.unlisted := by
    intro us
    induction us with
    | nil => intros; rfl
    | cons u us ih =>
      intro k i hi
      simp only [List.length_cons] at hi
      rw [Memory.ofBytesFrom, read_entry_other u _ (by omega), show k + i = (k + 1) + (i - 1) by omega, ih (k + 1) (i - 1) (by omega)]
  by_cases hl : i < (vs.take n).length
  · have := ofBytesFrom_read (vs.take n) 0 i hl
    rw [Nat.zero_add] at this
    rw [Memory.ofBytes, this, List.getD_eq_getElem?_getD, List.getElem?_take_of_lt h, ← List.getD_eq_getElem?_getD]
  · have := key (vs.take n) 0 i (by omega)
    rw [Nat.zero_add] at this
    rw [Memory.ofBytes, this, List.getD_eq_default]
    simp only [List.length_take] at hl
    omega

end Sys2Proof.Machine
end

