-- ==== Sys2Proof/Laws/Ppu.lean ====
section
/-! SUPPORT. The laws of the PPU: its addresses stay inside its memories, and its registers and its clock keep its invariant. -/

namespace Sys2Proof.Machine

/-- The facts of the PPU's invariant, named. -/
structure PpuLegal (q : Ppu) : Prop where
  v_lt : q.v < 0x4000
  scanline_lt : q.scanline < 262
  cycle_lt : q.cycle < 341
  status_low : q.status &&& 0x3F = 0x00
  oam_wf : q.oam.wf = true
  oam_below : q.oam.below 256 = true
  vram_wf : q.vram.wf = true
  vram_below : q.vram.below 2048 = true
  palette_wf : q.palette.wf = true
  palette_below : q.palette.below 32 = true
  chr_wf : q.chr.wf = true
  chr_below : q.chr.below 8192 = true

theorem ppuInv_iff (q : Ppu) : ppuInv q = true ↔ PpuLegal q := by
  unfold ppuInv linesPerFrame dotsPerLine
  simp only [Bool.and_eq_true, decide_eq_true_eq]
  constructor
  · rintro ⟨⟨⟨⟨⟨⟨⟨⟨⟨⟨⟨h1, h2⟩, h3⟩, h4⟩, h5⟩, h6⟩, h7⟩, h8⟩, h9⟩, h10⟩, h11⟩, h12⟩
    exact ⟨h1, h2, h3, h4, h5, h6, h7, h8, h9, h10, h11, h12⟩
  · rintro ⟨h1, h2, h3, h4, h5, h6, h7, h8, h9, h10, h11, h12⟩
    exact ⟨⟨⟨⟨⟨⟨⟨⟨⟨⟨⟨h1, h2⟩, h3⟩, h4⟩, h5⟩, h6⟩, h7⟩, h8⟩, h9⟩, h10⟩, h11⟩, h12⟩

/-- A nametable offset lies in video RAM (20 R132). -/
theorem ntIndex_lt (m : Mirroring) (p : Word) : ntIndex m p < 2048 := by
  have h : (p &&& 0x03FF).toNat ≤ 0x3FF := by
    rw [BitVec.toNat_and]
    exact Nat.and_le_right
  unfold ntIndex
  cases m <;> dsimp only <;> split <;> omega

/-- A palette entry lies in the palette (20 R133). -/
theorem paletteIndex_lt (p : Word) : paletteIndex p < 32 := by
  have h : (p &&& 0x001F).toNat ≤ 0x1F := by
    rw [BitVec.toNat_and]
    exact Nat.and_le_right
  unfold paletteIndex
  dsimp only
  split <;> omega

theorem and_3fff_lt (w : Word) : w &&& 0x3FFF < 0x4000 := by
  rw [BitVec.lt_def, BitVec.toNat_and]
  exact Nat.lt_of_le_of_lt Nat.and_le_right (by decide)

theorem PpuLegal.increment {q : Ppu} (h : PpuLegal q) : PpuLegal (ppuIncrement q) :=
  { h with v_lt := and_3fff_lt _ }

theorem PpuLegal.setBuf {q : Ppu} (h : PpuLegal q) (b : Byte) : PpuLegal { q with buf := b } := { h with }

theorem PpuLegal.write {q : Ppu} (h : PpuLegal q) (p : Word) (v : Byte) : PpuLegal (ppuWrite q p v) := by
  unfold ppuWrite
  split
  · exact h
  · split
    · exact { h with vram_wf := write_wf _ _ _ h.vram_wf, vram_below := write_below _ _ (ntIndex_lt _ _) h.vram_below }
    · exact { h with palette_wf := write_wf _ _ _ h.palette_wf
                     palette_below := write_below _ _ (paletteIndex_lt _) h.palette_below }

/-- A PPUSTATUS read keeps the invariant. -/
theorem PpuLegal.readStatus {q : Ppu} (h : PpuLegal q) : PpuLegal (readPpuStatus q).2 := by
  refine { h with status_low := ?_ }
  have := h.status_low
  simp only [readPpuStatus]
  rw [BitVec.and_assoc, BitVec.and_comm 0x7F, ← BitVec.and_assoc, this]
  decide

/-- A PPUDATA read keeps the invariant. -/
theorem PpuLegal.readData {q : Ppu} (h : PpuLegal q) : PpuLegal (readPpuData q).2 := by
  unfold readPpuData
  split <;> exact (h.setBuf _).increment

/-- An OAMDATA write keeps the invariant. -/
theorem PpuLegal.writeOam {q : Ppu} (h : PpuLegal q) (v : Byte) : PpuLegal (writeOamData q v) :=
  { h with oam_wf := write_wf _ _ _ h.oam_wf, oam_below := write_below _ _ q.oamAddr.isLt h.oam_below }

theorem PpuLegal.writeAddr {q : Ppu} (h : PpuLegal q) (v : Byte) : PpuLegal (writePpuAddr q v) := by
  unfold writePpuAddr
  split
  · refine { h with v_lt := ?_ }
    have h1 := h.v_lt
    simp only
    rw [BitVec.lt_def] at h1 ⊢
    have h3 : (0x4000 : Word).toNat = 2 ^ 14 := by decide
    rw [h3] at h1 ⊢
    rw [BitVec.toNat_or, BitVec.toNat_and]
    refine Nat.or_lt_two_pow (Nat.lt_of_le_of_lt Nat.and_le_left h1) ?_
    have := v.isLt
    simp only [zext16, BitVec.toNat_setWidth]
    omega
  · exact { h with v_lt := and_3fff_lt _ }

/-- A CPU write to any PPU register keeps the invariant. -/
theorem PpuLegal.writeReg {q : Ppu} (h : PpuLegal q) (r : PpuReg) (v : Byte) : PpuLegal (writePpuReg r v q) := by
  cases r
  case ctrl => exact { h with }
  case mask => exact { h with }
  case status => exact h
  case oamAddr => exact { h with }
  case oamData => exact h.writeOam v
  case scroll => simp only [writePpuReg, writePpuScroll]; split <;> exact { h with }
  case addr => exact h.writeAddr v
  case data => exact (h.write _ _).increment

/-! ### The clock -/

theorem SamePpuMemory.refl (q : Ppu) : SamePpuMemory q q := ⟨rfl, rfl, rfl, rfl, rfl, rfl, rfl, rfl, rfl, rfl, rfl, rfl, rfl⟩

theorem SamePpuMemory.trans {q r t : Ppu} (h : SamePpuMemory q r) (k : SamePpuMemory r t) : SamePpuMemory q t :=
  ⟨k.ctrl.trans h.ctrl, k.mask.trans h.mask, k.oamAddr.trans h.oamAddr, k.oam.trans h.oam, k.scrollX.trans h.scrollX,
   k.scrollY.trans h.scrollY, k.v.trans h.v, k.w.trans h.w, k.buf.trans h.buf, k.vram.trans h.vram, k.palette.trans h.palette,
   k.chr.trans h.chr, k.mirroring.trans h.mirroring⟩

/-- Everything one turn of the wrap loop does, from a scanline of the frame: the counters, and no memory. -/
theorem nextScanline_spec (q : Ppu) (h : q.scanline < 262) :
    (nextScanline q).1.cycle = q.cycle - 341 ∧
    (nextScanline q).1.scanline = (q.scanline + 1) % 262 ∧
    ((nextScanline q).2 = true ↔ q.scanline = 261) ∧
    SamePpuMemory q (nextScanline q).1 := by
  by_cases h1 : q.scanline = 261
  · simp [nextScanline, vblankLine, linesPerFrame, dotsPerLine, endFrame, h1]
    constructor <;> rfl
  · by_cases h2 : q.scanline = 240
    · simp [nextScanline, vblankLine, linesPerFrame, dotsPerLine, enterVblank, h2]
      constructor <;> rfl
    · have h3 : q.scanline + 1 ≠ 241 := by omega
      have h4 : q.scanline + 1 ≠ 262 := by omega
      simp only [nextScanline, vblankLine, linesPerFrame, dotsPerLine, h3, h4, if_false]
      refine ⟨trivial, ?_, ?_, by constructor <;> rfl⟩
      · omega
      · simp [h1]

theorem nextScanline_status (q : Ppu) (h : q.status &&& 0x3F = 0x00) : (nextScanline q).1.status &&& 0x3F = 0x00 := by
  have key : ∀ s : Byte, s &&& 0x3F = 0x00 → ((s ||| 0x80) &&& 0xBF) &&& 0x3F = 0x00 := by decide +kernel
  have key2 : ∀ s : Byte, s &&& 0x3F = 0x00 → (s &&& 0x3F) &&& 0x3F = 0x00 := by decide +kernel
  unfold nextScanline enterVblank endFrame
  dsimp only
  split <;> split <;> first | exact key2 _ (key _ h) | exact key2 _ h | exact key _ h | exact h

/-- Everything the wrap loop does with the counters and the memories. -/
theorem wrapScanlines_spec : ∀ (n : Nat) (q : Ppu), q.scanline < 262 →
    (wrapScanlines n q).1.cycle = q.cycle - 341 * n ∧
    (wrapScanlines n q).1.scanline = (q.scanline + n) % 262 ∧
    ((wrapScanlines n q).2 = true ↔ 262 ≤ q.scanline + n) ∧
    SamePpuMemory q (wrapScanlines n q).1
  | 0, q, h => by
    refine ⟨by simp [wrapScanlines], ?_, ?_, SamePpuMemory.refl q⟩
    · simp only [wrapScanlines]; omega
    · simp only [wrapScanlines]; constructor
      · intro h; cases h
      · intro h; omega
  | n + 1, q, h => by
    obtain ⟨c1, s1, f1, m1⟩ := nextScanline_spec q h
    have hlt : (nextScanline q).1.scanline < 262 := by rw [s1]; omega
    obtain ⟨c2, s2, f2, m2⟩ := wrapScanlines_spec n (nextScanline q).1 hlt
    refine ⟨?_, ?_, ?_, m1.trans m2⟩
    · simp only [wrapScanlines]; rw [c2, c1]; omega
    · simp only [wrapScanlines]; rw [s2, s1]; omega
    · simp only [wrapScanlines, Bool.or_eq_true]
      rw [f1, f2, s1]
      omega

theorem wrapScanlines_status : ∀ (n : Nat) (q : Ppu), q.status &&& 0x3F = 0x00 → (wrapScanlines n q).1.status &&& 0x3F = 0x00
  | 0, _, h => h
  | n + 1, q, h => wrapScanlines_status n _ (nextScanline_status q h)

/-- A turn of the wrap loop that begins neither vblank nor a frame moves the counters and nothing else. -/
theorem nextScanline_quiet {q : Ppu} (h1 : q.scanline + 1 ≠ 241) (h2 : q.scanline + 1 ≠ 262) :
    nextScanline q = ({ q with cycle := q.cycle - 341, scanline := q.scanline + 1 }, false) := by
  simp only [nextScanline, vblankLine, linesPerFrame, dotsPerLine, h1, h2, if_false]

/-- The last turn of a frame ends it (60 R564). -/
theorem nextScanline_last {q : Ppu} (h : q.scanline = 261) :
    nextScanline q = (endFrame { q with cycle := q.cycle - 341, scanline := 262 }, true) := by
  simp [nextScanline, vblankLine, linesPerFrame, dotsPerLine, h]

/-- The turns of the wrap loop that pass neither scanline 241 nor the frame's end move the counters and nothing else. -/
theorem wrapScanlines_quiet : ∀ (n : Nat) (q : Ppu), q.scanline + n < 241 ∨ 241 ≤ q.scanline ∧ q.scanline + n < 262 →
    wrapScanlines n q = ({ q with cycle := q.cycle - 341 * n, scanline := q.scanline + n }, false)
  | 0, _, _ => rfl
  | n + 1, q, h => by
    simp only [wrapScanlines]
    rw [nextScanline_quiet (by omega) (by omega)]
    simp only
    rw [wrapScanlines_quiet n _ (by simp only; omega)]
    simp only [Bool.or_false, Prod.mk.injEq, and_true, Ppu.mk.injEq, true_and]
    omega

/-- Turns of the wrap loop, one after another; a frame ended where it ended in either part. -/
theorem wrapScanlines_add : ∀ (m n : Nat) (q : Ppu), wrapScanlines (m + n) q =
    ((wrapScanlines n (wrapScanlines m q).1).1, (wrapScanlines m q).2 || (wrapScanlines n (wrapScanlines m q).1).2)
  | 0, n, q => by simp [wrapScanlines]
  | m + 1, n, q => by
    rw [Nat.add_right_comm]
    simp only [wrapScanlines]
    rw [wrapScanlines_add m n, Bool.or_assoc]

/-- The turns from before scanline 241 to a scanline from 241 on, in the same frame: the counters, and vblank's beginning (60 R562). -/
theorem wrapScanlines_vblank {n : Nat} {q : Ppu} (h1 : q.scanline < 241) (h2 : 241 ≤ q.scanline + n) (h3 : q.scanline + n < 262) :
    wrapScanlines n q = (enterVblank { q with cycle := q.cycle - 341 * n, scanline := q.scanline + n }, false) := by
  obtain ⟨k, rfl⟩ : ∃ k, n = (240 - q.scanline) + (1 + k) := ⟨n - (241 - q.scanline), by omega⟩
  have hs : q.scanline + (240 - q.scanline) = 240 := by omega
  rw [wrapScanlines_add, wrapScanlines_quiet _ q (by omega), wrapScanlines_add]
  simp only [wrapScanlines, nextScanline, vblankLine, linesPerFrame, dotsPerLine, hs, enterVblank, if_true]
  rw [if_neg (by omega), wrapScanlines_quiet k _ (by simp only; omega)]
  simp only [Bool.or_false, Prod.mk.injEq, and_true, Ppu.mk.injEq, true_and]
  omega

/-- The turns from any scanline of a frame to a scanline before 241 of the next: the counters, and the frame's end (60 R564), which undoes
a vblank on the way. -/
theorem wrapScanlines_frame {n : Nat} {q : Ppu} (h1 : q.scanline < 262) (h2 : 262 ≤ q.scanline + n) (h3 : q.scanline + n < 503) :
    wrapScanlines n q = ({ endFrame { q with cycle := q.cycle - 341 * n } with scanline := q.scanline + n - 262 }, true) := by
  have key : ∀ s : Byte, (s ||| 0x80) &&& 0xBF &&& 0x3F = s &&& 0x3F := by decide +kernel
  have last : ∀ (k : Nat) (p : Ppu), p.scanline = 261 → k < 241 →
      wrapScanlines (1 + k) p = ({ endFrame { p with cycle := p.cycle - 341 * (1 + k) } with scanline := k }, true) := by
    intro k p hp hk
    rw [wrapScanlines_add]
    simp only [wrapScanlines, nextScanline_last hp]
    rw [wrapScanlines_quiet k _ (by simp only [endFrame]; omega)]
    simp only [endFrame, Bool.or_false, Prod.mk.injEq, and_true, Ppu.mk.injEq, true_and]
    omega
  obtain ⟨k, rfl⟩ : ∃ k, n = (261 - q.scanline) + (1 + k) := ⟨n - (262 - q.scanline), by omega⟩
  have hs : q.scanline + (261 - q.scanline) = 261 := by omega
  rw [wrapScanlines_add]
  by_cases hv : q.scanline < 241
  · rw [wrapScanlines_vblank hv (by omega) (by omega), last k _ (by simp only [enterVblank]; omega) (by omega)]
    simp only [endFrame, enterVblank, key, Bool.or_true, Prod.mk.injEq, and_true, Ppu.mk.injEq, true_and]
    omega
  · rw [wrapScanlines_quiet _ q (by omega), last k _ (by simp only; omega) (by omega)]
    simp only [endFrame, Bool.or_true, Prod.mk.injEq, and_true, Ppu.mk.injEq, true_and]
    omega

theorem sprite0Check_same (q : Ppu) : SamePpuMemory q (sprite0Check q) ∧ (sprite0Check q).scanline = q.scanline ∧
    (sprite0Check q).cycle = q.cycle ∧ (sprite0Check q).nmiPending = q.nmiPending := by
  unfold sprite0Check
  split <;> exact ⟨⟨rfl, rfl, rfl, rfl, rfl, rfl, rfl, rfl, rfl, rfl, rfl, rfl, rfl⟩, rfl, rfl, rfl⟩

theorem sprite0Check_status (q : Ppu) (h : q.status &&& 0x3F = 0x00) : (sprite0Check q).status &&& 0x3F = 0x00 := by
  have key : ∀ s : Byte, s &&& 0x3F = 0x00 → (s ||| 0x40) &&& 0x3F = 0x00 := by decide +kernel
  unfold sprite0Check
  split
  · exact key _ h
  · exact h

/-- What a tick does with the counters, and that it changes no memory and no register but the status (60 R560). -/
theorem ppuTick_spec (n : Nat) (q : Ppu) (h : q.scanline < 262) :
    (ppuTick n q).1.cycle = (q.cycle + n) % 341 ∧
    (ppuTick n q).1.scanline = (q.scanline + (q.cycle + n) / 341) % 262 ∧
    ((ppuTick n q).2 = true ↔ 262 ≤ q.scanline + (q.cycle + n) / 341) ∧
    SamePpuMemory q (ppuTick n q).1 := by
  obtain ⟨m, s, c, _⟩ := sprite0Check_same { q with cycle := q.cycle + n }
  have hlt : (sprite0Check { q with cycle := q.cycle + n }).scanline < 262 := by rw [s]; exact h
  obtain ⟨c1, s1, f1, m1⟩ :=
    wrapScanlines_spec ((sprite0Check { q with cycle := q.cycle + n }).cycle / 341) (sprite0Check { q with cycle := q.cycle + n }) hlt
  simp only [ppuTick, dotsPerLine]
  rw [c] at c1 s1 f1 m1 ⊢
  rw [s] at s1 f1
  refine ⟨?_, s1, f1, ?_⟩
  · rw [c1]
    show q.cycle + n - 341 * ((q.cycle + n) / 341) = (q.cycle + n) % 341
    omega
  · exact SamePpuMemory.trans ⟨m.ctrl, m.mask, m.oamAddr, m.oam, m.scrollX, m.scrollY, m.v, m.w, m.buf, m.vram, m.palette, m.chr, m.mirroring⟩ m1

/-- A tick changes no memory and no register of the PPU but status, whatever the counters. -/
theorem nextScanline_same (q : Ppu) : SamePpuMemory q (nextScanline q).1 := by
  unfold nextScanline enterVblank endFrame
  dsimp only
  split <;> split <;> exact ⟨rfl, rfl, rfl, rfl, rfl, rfl, rfl, rfl, rfl, rfl, rfl, rfl, rfl⟩

theorem wrapScanlines_same : ∀ (n : Nat) (q : Ppu), SamePpuMemory q (wrapScanlines n q).1
  | 0, q => SamePpuMemory.refl q
  | n + 1, q => (nextScanline_same q).trans (wrapScanlines_same n _)

theorem ppuTick_same (n : Nat) (q : Ppu) : SamePpuMemory q (ppuTick n q).1 := by
  obtain ⟨m, _⟩ := sprite0Check_same { q with cycle := q.cycle + n }
  exact SamePpuMemory.trans ⟨m.ctrl, m.mask, m.oamAddr, m.oam, m.scrollX, m.scrollY, m.v, m.w, m.buf, m.vram, m.palette, m.chr,
    m.mirroring⟩ (wrapScanlines_same _ _)

/-- A tick keeps the PPU's invariant. -/
theorem PpuLegal.tick {q : Ppu} (h : PpuLegal q) (n : Nat) : PpuLegal (ppuTick n q).1 := by
  obtain ⟨c, s, _, m⟩ := ppuTick_spec n q h.scanline_lt
  have hs : (ppuTick n q).1.status &&& 0x3F = 0x00 := wrapScanlines_status _ _ (sprite0Check_status _ h.status_low)
  exact { v_lt := m.v ▸ h.v_lt, scanline_lt := by rw [s]; omega, cycle_lt := by rw [c]; omega, status_low := hs,
          oam_wf := m.oam ▸ h.oam_wf, oam_below := m.oam ▸ h.oam_below, vram_wf := m.vram ▸ h.vram_wf,
          vram_below := m.vram ▸ h.vram_below, palette_wf := m.palette ▸ h.palette_wf,
          palette_below := m.palette ▸ h.palette_below, chr_wf := m.chr ▸ h.chr_wf, chr_below := m.chr ▸ h.chr_below }

end Sys2Proof.Machine
end

