-- ==== Sys2Proof/Laws/State.lean ====
section
/-! SUPPORT. The state updates, field by field: what each update writes and what it leaves, true by unfolding once, so that no later proof
unfolds a record update. -/

namespace Sys2Proof.Machine

@[simp] theorem setA_a (s : State) (v : Byte) : (s.setA v).cpu.a = v := rfl
@[simp] theorem setA_x (s : State) (v : Byte) : (s.setA v).cpu.x = s.cpu.x := rfl
@[simp] theorem setA_y (s : State) (v : Byte) : (s.setA v).cpu.y = s.cpu.y := rfl
@[simp] theorem setA_sp (s : State) (v : Byte) : (s.setA v).cpu.sp = s.cpu.sp := rfl
@[simp] theorem setA_p (s : State) (v : Byte) : (s.setA v).cpu.p = s.cpu.p := rfl
@[simp] theorem setA_pc (s : State) (v : Byte) : (s.setA v).cpu.pc = s.cpu.pc := rfl
@[simp] theorem setA_run (s : State) (v : Byte) : (s.setA v).cpu.run = s.cpu.run := rfl
@[simp] theorem setA_cyc (s : State) (v : Byte) : (s.setA v).cpu.cyc = s.cpu.cyc := rfl
@[simp] theorem setA_ppu (s : State) (v : Byte) : (s.setA v).ppu = s.ppu := rfl
@[simp] theorem setA_bus (s : State) (v : Byte) : (s.setA v).bus = s.bus := rfl
@[simp] theorem setA_pad (s : State) (v : Byte) : (s.setA v).pad = s.pad := rfl
@[simp] theorem setA_host (s : State) (v : Byte) : (s.setA v).host = s.host := rfl

@[simp] theorem setX_a (s : State) (v : Byte) : (s.setX v).cpu.a = s.cpu.a := rfl
@[simp] theorem setX_x (s : State) (v : Byte) : (s.setX v).cpu.x = v := rfl
@[simp] theorem setX_y (s : State) (v : Byte) : (s.setX v).cpu.y = s.cpu.y := rfl
@[simp] theorem setX_sp (s : State) (v : Byte) : (s.setX v).cpu.sp = s.cpu.sp := rfl
@[simp] theorem setX_p (s : State) (v : Byte) : (s.setX v).cpu.p = s.cpu.p := rfl
@[simp] theorem setX_pc (s : State) (v : Byte) : (s.setX v).cpu.pc = s.cpu.pc := rfl
@[simp] theorem setX_run (s : State) (v : Byte) : (s.setX v).cpu.run = s.cpu.run := rfl
@[simp] theorem setX_cyc (s : State) (v : Byte) : (s.setX v).cpu.cyc = s.cpu.cyc := rfl
@[simp] theorem setX_ppu (s : State) (v : Byte) : (s.setX v).ppu = s.ppu := rfl
@[simp] theorem setX_bus (s : State) (v : Byte) : (s.setX v).bus = s.bus := rfl
@[simp] theorem setX_pad (s : State) (v : Byte) : (s.setX v).pad = s.pad := rfl
@[simp] theorem setX_host (s : State) (v : Byte) : (s.setX v).host = s.host := rfl

@[simp] theorem setY_a (s : State) (v : Byte) : (s.setY v).cpu.a = s.cpu.a := rfl
@[simp] theorem setY_x (s : State) (v : Byte) : (s.setY v).cpu.x = s.cpu.x := rfl
@[simp] theorem setY_y (s : State) (v : Byte) : (s.setY v).cpu.y = v := rfl
@[simp] theorem setY_sp (s : State) (v : Byte) : (s.setY v).cpu.sp = s.cpu.sp := rfl
@[simp] theorem setY_p (s : State) (v : Byte) : (s.setY v).cpu.p = s.cpu.p := rfl
@[simp] theorem setY_pc (s : State) (v : Byte) : (s.setY v).cpu.pc = s.cpu.pc := rfl
@[simp] theorem setY_run (s : State) (v : Byte) : (s.setY v).cpu.run = s.cpu.run := rfl
@[simp] theorem setY_cyc (s : State) (v : Byte) : (s.setY v).cpu.cyc = s.cpu.cyc := rfl
@[simp] theorem setY_ppu (s : State) (v : Byte) : (s.setY v).ppu = s.ppu := rfl
@[simp] theorem setY_bus (s : State) (v : Byte) : (s.setY v).bus = s.bus := rfl
@[simp] theorem setY_pad (s : State) (v : Byte) : (s.setY v).pad = s.pad := rfl
@[simp] theorem setY_host (s : State) (v : Byte) : (s.setY v).host = s.host := rfl

@[simp] theorem setSp_a (s : State) (v : Byte) : (s.setSp v).cpu.a = s.cpu.a := rfl
@[simp] theorem setSp_x (s : State) (v : Byte) : (s.setSp v).cpu.x = s.cpu.x := rfl
@[simp] theorem setSp_y (s : State) (v : Byte) : (s.setSp v).cpu.y = s.cpu.y := rfl
@[simp] theorem setSp_sp (s : State) (v : Byte) : (s.setSp v).cpu.sp = v := rfl
@[simp] theorem setSp_p (s : State) (v : Byte) : (s.setSp v).cpu.p = s.cpu.p := rfl
@[simp] theorem setSp_pc (s : State) (v : Byte) : (s.setSp v).cpu.pc = s.cpu.pc := rfl
@[simp] theorem setSp_run (s : State) (v : Byte) : (s.setSp v).cpu.run = s.cpu.run := rfl
@[simp] theorem setSp_cyc (s : State) (v : Byte) : (s.setSp v).cpu.cyc = s.cpu.cyc := rfl
@[simp] theorem setSp_ppu (s : State) (v : Byte) : (s.setSp v).ppu = s.ppu := rfl
@[simp] theorem setSp_bus (s : State) (v : Byte) : (s.setSp v).bus = s.bus := rfl
@[simp] theorem setSp_pad (s : State) (v : Byte) : (s.setSp v).pad = s.pad := rfl
@[simp] theorem setSp_host (s : State) (v : Byte) : (s.setSp v).host = s.host := rfl

@[simp] theorem setP_a (s : State) (v : Byte) : (s.setP v).cpu.a = s.cpu.a := rfl
@[simp] theorem setP_x (s : State) (v : Byte) : (s.setP v).cpu.x = s.cpu.x := rfl
@[simp] theorem setP_y (s : State) (v : Byte) : (s.setP v).cpu.y = s.cpu.y := rfl
@[simp] theorem setP_sp (s : State) (v : Byte) : (s.setP v).cpu.sp = s.cpu.sp := rfl
@[simp] theorem setP_p (s : State) (v : Byte) : (s.setP v).cpu.p = v := rfl
@[simp] theorem setP_pc (s : State) (v : Byte) : (s.setP v).cpu.pc = s.cpu.pc := rfl
@[simp] theorem setP_run (s : State) (v : Byte) : (s.setP v).cpu.run = s.cpu.run := rfl
@[simp] theorem setP_cyc (s : State) (v : Byte) : (s.setP v).cpu.cyc = s.cpu.cyc := rfl
@[simp] theorem setP_ppu (s : State) (v : Byte) : (s.setP v).ppu = s.ppu := rfl
@[simp] theorem setP_bus (s : State) (v : Byte) : (s.setP v).bus = s.bus := rfl
@[simp] theorem setP_pad (s : State) (v : Byte) : (s.setP v).pad = s.pad := rfl
@[simp] theorem setP_host (s : State) (v : Byte) : (s.setP v).host = s.host := rfl

@[simp] theorem setPc_a (s : State) (w : Word) : (s.setPc w).cpu.a = s.cpu.a := rfl
@[simp] theorem setPc_x (s : State) (w : Word) : (s.setPc w).cpu.x = s.cpu.x := rfl
@[simp] theorem setPc_y (s : State) (w : Word) : (s.setPc w).cpu.y = s.cpu.y := rfl
@[simp] theorem setPc_sp (s : State) (w : Word) : (s.setPc w).cpu.sp = s.cpu.sp := rfl
@[simp] theorem setPc_p (s : State) (w : Word) : (s.setPc w).cpu.p = s.cpu.p := rfl
@[simp] theorem setPc_pc (s : State) (w : Word) : (s.setPc w).cpu.pc = w := rfl
@[simp] theorem setPc_run (s : State) (w : Word) : (s.setPc w).cpu.run = s.cpu.run := rfl
@[simp] theorem setPc_cyc (s : State) (w : Word) : (s.setPc w).cpu.cyc = s.cpu.cyc := rfl
@[simp] theorem setPc_ppu (s : State) (w : Word) : (s.setPc w).ppu = s.ppu := rfl
@[simp] theorem setPc_bus (s : State) (w : Word) : (s.setPc w).bus = s.bus := rfl
@[simp] theorem setPc_pad (s : State) (w : Word) : (s.setPc w).pad = s.pad := rfl
@[simp] theorem setPc_host (s : State) (w : Word) : (s.setPc w).host = s.host := rfl

@[simp] theorem setRun_a (s : State) (r : RunState) : (s.setRun r).cpu.a = s.cpu.a := rfl
@[simp] theorem setRun_x (s : State) (r : RunState) : (s.setRun r).cpu.x = s.cpu.x := rfl
@[simp] theorem setRun_y (s : State) (r : RunState) : (s.setRun r).cpu.y = s.cpu.y := rfl
@[simp] theorem setRun_sp (s : State) (r : RunState) : (s.setRun r).cpu.sp = s.cpu.sp := rfl
@[simp] theorem setRun_p (s : State) (r : RunState) : (s.setRun r).cpu.p = s.cpu.p := rfl
@[simp] theorem setRun_pc (s : State) (r : RunState) : (s.setRun r).cpu.pc = s.cpu.pc := rfl
@[simp] theorem setRun_run (s : State) (r : RunState) : (s.setRun r).cpu.run = r := rfl
@[simp] theorem setRun_cyc (s : State) (r : RunState) : (s.setRun r).cpu.cyc = s.cpu.cyc := rfl
@[simp] theorem setRun_ppu (s : State) (r : RunState) : (s.setRun r).ppu = s.ppu := rfl
@[simp] theorem setRun_bus (s : State) (r : RunState) : (s.setRun r).bus = s.bus := rfl
@[simp] theorem setRun_pad (s : State) (r : RunState) : (s.setRun r).pad = s.pad := rfl
@[simp] theorem setRun_host (s : State) (r : RunState) : (s.setRun r).host = s.host := rfl

@[simp] theorem setCyc_a (s : State) (n : Nat) : (s.setCyc n).cpu.a = s.cpu.a := rfl
@[simp] theorem setCyc_x (s : State) (n : Nat) : (s.setCyc n).cpu.x = s.cpu.x := rfl
@[simp] theorem setCyc_y (s : State) (n : Nat) : (s.setCyc n).cpu.y = s.cpu.y := rfl
@[simp] theorem setCyc_sp (s : State) (n : Nat) : (s.setCyc n).cpu.sp = s.cpu.sp := rfl
@[simp] theorem setCyc_p (s : State) (n : Nat) : (s.setCyc n).cpu.p = s.cpu.p := rfl
@[simp] theorem setCyc_pc (s : State) (n : Nat) : (s.setCyc n).cpu.pc = s.cpu.pc := rfl
@[simp] theorem setCyc_run (s : State) (n : Nat) : (s.setCyc n).cpu.run = s.cpu.run := rfl
@[simp] theorem setCyc_cyc (s : State) (n : Nat) : (s.setCyc n).cpu.cyc = n := rfl
@[simp] theorem setCyc_ppu (s : State) (n : Nat) : (s.setCyc n).ppu = s.ppu := rfl
@[simp] theorem setCyc_bus (s : State) (n : Nat) : (s.setCyc n).bus = s.bus := rfl
@[simp] theorem setCyc_pad (s : State) (n : Nat) : (s.setCyc n).pad = s.pad := rfl
@[simp] theorem setCyc_host (s : State) (n : Nat) : (s.setCyc n).host = s.host := rfl

@[simp] theorem charge_a (s : State) (n : Nat) : (s.charge n).cpu.a = s.cpu.a := rfl
@[simp] theorem charge_x (s : State) (n : Nat) : (s.charge n).cpu.x = s.cpu.x := rfl
@[simp] theorem charge_y (s : State) (n : Nat) : (s.charge n).cpu.y = s.cpu.y := rfl
@[simp] theorem charge_sp (s : State) (n : Nat) : (s.charge n).cpu.sp = s.cpu.sp := rfl
@[simp] theorem charge_p (s : State) (n : Nat) : (s.charge n).cpu.p = s.cpu.p := rfl
@[simp] theorem charge_pc (s : State) (n : Nat) : (s.charge n).cpu.pc = s.cpu.pc := rfl
@[simp] theorem charge_run (s : State) (n : Nat) : (s.charge n).cpu.run = s.cpu.run := rfl
@[simp] theorem charge_cyc (s : State) (n : Nat) : (s.charge n).cpu.cyc = s.cpu.cyc + n := rfl
@[simp] theorem charge_ppu (s : State) (n : Nat) : (s.charge n).ppu = s.ppu := rfl
@[simp] theorem charge_bus (s : State) (n : Nat) : (s.charge n).bus = s.bus := rfl
@[simp] theorem charge_pad (s : State) (n : Nat) : (s.charge n).pad = s.pad := rfl
@[simp] theorem charge_host (s : State) (n : Nat) : (s.charge n).host = s.host := rfl

@[simp] theorem state_setZN_a (s : State) (v : Byte) : (s.setZN v).cpu.a = s.cpu.a := rfl
@[simp] theorem state_setZN_x (s : State) (v : Byte) : (s.setZN v).cpu.x = s.cpu.x := rfl
@[simp] theorem state_setZN_y (s : State) (v : Byte) : (s.setZN v).cpu.y = s.cpu.y := rfl
@[simp] theorem state_setZN_sp (s : State) (v : Byte) : (s.setZN v).cpu.sp = s.cpu.sp := rfl
@[simp] theorem state_setZN_p (s : State) (v : Byte) : (s.setZN v).cpu.p = setZN s.cpu.p v := rfl
@[simp] theorem state_setZN_pc (s : State) (v : Byte) : (s.setZN v).cpu.pc = s.cpu.pc := rfl
@[simp] theorem state_setZN_run (s : State) (v : Byte) : (s.setZN v).cpu.run = s.cpu.run := rfl
@[simp] theorem state_setZN_cyc (s : State) (v : Byte) : (s.setZN v).cpu.cyc = s.cpu.cyc := rfl
@[simp] theorem state_setZN_ppu (s : State) (v : Byte) : (s.setZN v).ppu = s.ppu := rfl
@[simp] theorem state_setZN_bus (s : State) (v : Byte) : (s.setZN v).bus = s.bus := rfl
@[simp] theorem state_setZN_pad (s : State) (v : Byte) : (s.setZN v).pad = s.pad := rfl
@[simp] theorem state_setZN_host (s : State) (v : Byte) : (s.setZN v).host = s.host := rfl

@[simp] theorem state_setFlag_a (s : State) (f : Flag) (b : Bool) : (s.setFlag f b).cpu.a = s.cpu.a := rfl
@[simp] theorem state_setFlag_x (s : State) (f : Flag) (b : Bool) : (s.setFlag f b).cpu.x = s.cpu.x := rfl
@[simp] theorem state_setFlag_y (s : State) (f : Flag) (b : Bool) : (s.setFlag f b).cpu.y = s.cpu.y := rfl
@[simp] theorem state_setFlag_sp (s : State) (f : Flag) (b : Bool) : (s.setFlag f b).cpu.sp = s.cpu.sp := rfl
@[simp] theorem state_setFlag_p (s : State) (f : Flag) (b : Bool) : (s.setFlag f b).cpu.p = setFlag s.cpu.p f b := rfl
@[simp] theorem state_setFlag_pc (s : State) (f : Flag) (b : Bool) : (s.setFlag f b).cpu.pc = s.cpu.pc := rfl
@[simp] theorem state_setFlag_run (s : State) (f : Flag) (b : Bool) : (s.setFlag f b).cpu.run = s.cpu.run := rfl
@[simp] theorem state_setFlag_cyc (s : State) (f : Flag) (b : Bool) : (s.setFlag f b).cpu.cyc = s.cpu.cyc := rfl
@[simp] theorem state_setFlag_ppu (s : State) (f : Flag) (b : Bool) : (s.setFlag f b).ppu = s.ppu := rfl
@[simp] theorem state_setFlag_bus (s : State) (f : Flag) (b : Bool) : (s.setFlag f b).bus = s.bus := rfl
@[simp] theorem state_setFlag_pad (s : State) (f : Flag) (b : Bool) : (s.setFlag f b).pad = s.pad := rfl
@[simp] theorem state_setFlag_host (s : State) (f : Flag) (b : Bool) : (s.setFlag f b).host = s.host := rfl

@[simp] theorem setPpu_a (s : State) (q : Ppu) : (s.setPpu q).cpu.a = s.cpu.a := rfl
@[simp] theorem setPpu_x (s : State) (q : Ppu) : (s.setPpu q).cpu.x = s.cpu.x := rfl
@[simp] theorem setPpu_y (s : State) (q : Ppu) : (s.setPpu q).cpu.y = s.cpu.y := rfl
@[simp] theorem setPpu_sp (s : State) (q : Ppu) : (s.setPpu q).cpu.sp = s.cpu.sp := rfl
@[simp] theorem setPpu_p (s : State) (q : Ppu) : (s.setPpu q).cpu.p = s.cpu.p := rfl
@[simp] theorem setPpu_pc (s : State) (q : Ppu) : (s.setPpu q).cpu.pc = s.cpu.pc := rfl
@[simp] theorem setPpu_run (s : State) (q : Ppu) : (s.setPpu q).cpu.run = s.cpu.run := rfl
@[simp] theorem setPpu_cyc (s : State) (q : Ppu) : (s.setPpu q).cpu.cyc = s.cpu.cyc := rfl
@[simp] theorem setPpu_ppu (s : State) (q : Ppu) : (s.setPpu q).ppu = q := rfl
@[simp] theorem setPpu_bus (s : State) (q : Ppu) : (s.setPpu q).bus = s.bus := rfl
@[simp] theorem setPpu_pad (s : State) (q : Ppu) : (s.setPpu q).pad = s.pad := rfl
@[simp] theorem setPpu_host (s : State) (q : Ppu) : (s.setPpu q).host = s.host := rfl

@[simp] theorem writeRam_a (s : State) (i : Nat) (v : Byte) : (s.writeRam i v).cpu.a = s.cpu.a := rfl
@[simp] theorem writeRam_x (s : State) (i : Nat) (v : Byte) : (s.writeRam i v).cpu.x = s.cpu.x := rfl
@[simp] theorem writeRam_y (s : State) (i : Nat) (v : Byte) : (s.writeRam i v).cpu.y = s.cpu.y := rfl
@[simp] theorem writeRam_sp (s : State) (i : Nat) (v : Byte) : (s.writeRam i v).cpu.sp = s.cpu.sp := rfl
@[simp] theorem writeRam_p (s : State) (i : Nat) (v : Byte) : (s.writeRam i v).cpu.p = s.cpu.p := rfl
@[simp] theorem writeRam_pc (s : State) (i : Nat) (v : Byte) : (s.writeRam i v).cpu.pc = s.cpu.pc := rfl
@[simp] theorem writeRam_run (s : State) (i : Nat) (v : Byte) : (s.writeRam i v).cpu.run = s.cpu.run := rfl
@[simp] theorem writeRam_cyc (s : State) (i : Nat) (v : Byte) : (s.writeRam i v).cpu.cyc = s.cpu.cyc := rfl
@[simp] theorem writeRam_ppu (s : State) (i : Nat) (v : Byte) : (s.writeRam i v).ppu = s.ppu := rfl
@[simp] theorem writeRam_bus (s : State) (i : Nat) (v : Byte) : (s.writeRam i v).bus = { s.bus with ram := s.bus.ram.write i v } := rfl
@[simp] theorem writeRam_pad (s : State) (i : Nat) (v : Byte) : (s.writeRam i v).pad = s.pad := rfl
@[simp] theorem writeRam_host (s : State) (i : Nat) (v : Byte) : (s.writeRam i v).host = s.host := rfl

@[simp] theorem setPad_a (s : State) (d : Pad) : (s.setPad d).cpu.a = s.cpu.a := rfl
@[simp] theorem setPad_x (s : State) (d : Pad) : (s.setPad d).cpu.x = s.cpu.x := rfl
@[simp] theorem setPad_y (s : State) (d : Pad) : (s.setPad d).cpu.y = s.cpu.y := rfl
@[simp] theorem setPad_sp (s : State) (d : Pad) : (s.setPad d).cpu.sp = s.cpu.sp := rfl
@[simp] theorem setPad_p (s : State) (d : Pad) : (s.setPad d).cpu.p = s.cpu.p := rfl
@[simp] theorem setPad_pc (s : State) (d : Pad) : (s.setPad d).cpu.pc = s.cpu.pc := rfl
@[simp] theorem setPad_run (s : State) (d : Pad) : (s.setPad d).cpu.run = s.cpu.run := rfl
@[simp] theorem setPad_cyc (s : State) (d : Pad) : (s.setPad d).cpu.cyc = s.cpu.cyc := rfl
@[simp] theorem setPad_ppu (s : State) (d : Pad) : (s.setPad d).ppu = s.ppu := rfl
@[simp] theorem setPad_bus (s : State) (d : Pad) : (s.setPad d).bus = s.bus := rfl
@[simp] theorem setPad_pad (s : State) (d : Pad) : (s.setPad d).pad = d := rfl
@[simp] theorem setPad_host (s : State) (d : Pad) : (s.setPad d).host = s.host := rfl

@[simp] theorem nextDraw_a (s : State) : (s.nextDraw).cpu.a = s.cpu.a := rfl
@[simp] theorem nextDraw_x (s : State) : (s.nextDraw).cpu.x = s.cpu.x := rfl
@[simp] theorem nextDraw_y (s : State) : (s.nextDraw).cpu.y = s.cpu.y := rfl
@[simp] theorem nextDraw_sp (s : State) : (s.nextDraw).cpu.sp = s.cpu.sp := rfl
@[simp] theorem nextDraw_p (s : State) : (s.nextDraw).cpu.p = s.cpu.p := rfl
@[simp] theorem nextDraw_pc (s : State) : (s.nextDraw).cpu.pc = s.cpu.pc := rfl
@[simp] theorem nextDraw_run (s : State) : (s.nextDraw).cpu.run = s.cpu.run := rfl
@[simp] theorem nextDraw_cyc (s : State) : (s.nextDraw).cpu.cyc = s.cpu.cyc := rfl
@[simp] theorem nextDraw_ppu (s : State) : (s.nextDraw).ppu = s.ppu := rfl
@[simp] theorem nextDraw_bus (s : State) : (s.nextDraw).bus = s.bus := rfl
@[simp] theorem nextDraw_pad (s : State) : (s.nextDraw).pad = s.pad := rfl
@[simp] theorem nextDraw_host (s : State) : (s.nextDraw).host = { s.host with draws := s.host.draws + 1 } := rfl

@[simp] theorem advance_a (s : State) (n : Nat) : (s.advance n).cpu.a = s.cpu.a := rfl
@[simp] theorem advance_x (s : State) (n : Nat) : (s.advance n).cpu.x = s.cpu.x := rfl
@[simp] theorem advance_y (s : State) (n : Nat) : (s.advance n).cpu.y = s.cpu.y := rfl
@[simp] theorem advance_sp (s : State) (n : Nat) : (s.advance n).cpu.sp = s.cpu.sp := rfl
@[simp] theorem advance_p (s : State) (n : Nat) : (s.advance n).cpu.p = s.cpu.p := rfl
@[simp] theorem advance_pc (s : State) (n : Nat) : (s.advance n).cpu.pc = s.cpu.pc + BitVec.ofNat 16 n := rfl
@[simp] theorem advance_run (s : State) (n : Nat) : (s.advance n).cpu.run = s.cpu.run := rfl
@[simp] theorem advance_cyc (s : State) (n : Nat) : (s.advance n).cpu.cyc = s.cpu.cyc := rfl
@[simp] theorem advance_ppu (s : State) (n : Nat) : (s.advance n).ppu = s.ppu := rfl
@[simp] theorem advance_bus (s : State) (n : Nat) : (s.advance n).bus = s.bus := rfl
@[simp] theorem advance_pad (s : State) (n : Nat) : (s.advance n).pad = s.pad := rfl
@[simp] theorem advance_host (s : State) (n : Nat) : (s.advance n).host = s.host := rfl

@[simp] theorem add8_a (s : State) (m : Byte) : (s.add8 m).cpu.a = addResult s.cpu.a m (getFlag s.cpu.p .c) := rfl
@[simp] theorem add8_x (s : State) (m : Byte) : (s.add8 m).cpu.x = s.cpu.x := rfl
@[simp] theorem add8_y (s : State) (m : Byte) : (s.add8 m).cpu.y = s.cpu.y := rfl
@[simp] theorem add8_sp (s : State) (m : Byte) : (s.add8 m).cpu.sp = s.cpu.sp := rfl
@[simp] theorem add8_p (s : State) (m : Byte) : (s.add8 m).cpu.p = addFlags s.cpu.p s.cpu.a m := rfl
@[simp] theorem add8_pc (s : State) (m : Byte) : (s.add8 m).cpu.pc = s.cpu.pc := rfl
@[simp] theorem add8_run (s : State) (m : Byte) : (s.add8 m).cpu.run = s.cpu.run := rfl
@[simp] theorem add8_cyc (s : State) (m : Byte) : (s.add8 m).cpu.cyc = s.cpu.cyc := rfl
@[simp] theorem add8_ppu (s : State) (m : Byte) : (s.add8 m).ppu = s.ppu := rfl
@[simp] theorem add8_bus (s : State) (m : Byte) : (s.add8 m).bus = s.bus := rfl
@[simp] theorem add8_pad (s : State) (m : Byte) : (s.add8 m).pad = s.pad := rfl
@[simp] theorem add8_host (s : State) (m : Byte) : (s.add8 m).host = s.host := rfl

@[simp] theorem compare_a (s : State) (r m : Byte) : (s.compare r m).cpu.a = s.cpu.a := rfl
@[simp] theorem compare_x (s : State) (r m : Byte) : (s.compare r m).cpu.x = s.cpu.x := rfl
@[simp] theorem compare_y (s : State) (r m : Byte) : (s.compare r m).cpu.y = s.cpu.y := rfl
@[simp] theorem compare_sp (s : State) (r m : Byte) : (s.compare r m).cpu.sp = s.cpu.sp := rfl
@[simp] theorem compare_p (s : State) (r m : Byte) : (s.compare r m).cpu.p = compareFlags s.cpu.p r m := rfl
@[simp] theorem compare_pc (s : State) (r m : Byte) : (s.compare r m).cpu.pc = s.cpu.pc := rfl
@[simp] theorem compare_run (s : State) (r m : Byte) : (s.compare r m).cpu.run = s.cpu.run := rfl
@[simp] theorem compare_cyc (s : State) (r m : Byte) : (s.compare r m).cpu.cyc = s.cpu.cyc := rfl
@[simp] theorem compare_ppu (s : State) (r m : Byte) : (s.compare r m).ppu = s.ppu := rfl
@[simp] theorem compare_bus (s : State) (r m : Byte) : (s.compare r m).bus = s.bus := rfl
@[simp] theorem compare_pad (s : State) (r m : Byte) : (s.compare r m).pad = s.pad := rfl
@[simp] theorem compare_host (s : State) (r m : Byte) : (s.compare r m).host = s.host := rfl

@[simp] theorem raiseFault_a (s : State) (k : FaultKind) (op : Byte) : (raiseFault k op s).cpu.a = s.cpu.a := rfl
@[simp] theorem raiseFault_x (s : State) (k : FaultKind) (op : Byte) : (raiseFault k op s).cpu.x = s.cpu.x := rfl
@[simp] theorem raiseFault_y (s : State) (k : FaultKind) (op : Byte) : (raiseFault k op s).cpu.y = s.cpu.y := rfl
@[simp] theorem raiseFault_sp (s : State) (k : FaultKind) (op : Byte) : (raiseFault k op s).cpu.sp = s.cpu.sp := rfl
@[simp] theorem raiseFault_p (s : State) (k : FaultKind) (op : Byte) : (raiseFault k op s).cpu.p = s.cpu.p := rfl
@[simp] theorem raiseFault_pc (s : State) (k : FaultKind) (op : Byte) : (raiseFault k op s).cpu.pc = s.cpu.pc := rfl
@[simp] theorem raiseFault_run (s : State) (k : FaultKind) (op : Byte) : (raiseFault k op s).cpu.run = .faulted ⟨k, op, s.cpu.pc⟩ := rfl
@[simp] theorem raiseFault_cyc (s : State) (k : FaultKind) (op : Byte) : (raiseFault k op s).cpu.cyc = s.cpu.cyc := rfl
@[simp] theorem raiseFault_ppu (s : State) (k : FaultKind) (op : Byte) : (raiseFault k op s).ppu = s.ppu := rfl
@[simp] theorem raiseFault_bus (s : State) (k : FaultKind) (op : Byte) : (raiseFault k op s).bus = s.bus := rfl
@[simp] theorem raiseFault_pad (s : State) (k : FaultKind) (op : Byte) : (raiseFault k op s).pad = s.pad := rfl
@[simp] theorem raiseFault_host (s : State) (k : FaultKind) (op : Byte) : (raiseFault k op s).host = s.host := rfl

end Sys2Proof.Machine
end

