-- ==== Sys2Proof/Laws/Bus.lean ====
section
/-! SUPPORT. What a Bus read and a Bus write can do, once for every address; the stack, interrupts and the Bus clock over them. -/

namespace Sys2Proof.Machine

/-! ### What holds of the state in the middle of an instruction -/

/-- The invariant of a state in the middle of an instruction: that of a boundary, but for the cycle count. -/
structure MidLegal (s : State) : Prop where
  flagU : getFlag s.cpu.p .u = true
  flagB : getFlag s.cpu.p .b = false
  ppu : PpuLegal s.ppu
  ram_wf : s.bus.ram.wf = true
  ram_below : s.bus.ram.below 2048 = true
  prg_wf : s.bus.prg.wf = true
  prg_below : s.bus.prg.below (prgLength s.bus.prgSize) = true
  index_le : s.pad.index ≤ 8

theorem inv_iff (s : State) : s.inv = true ↔ MidLegal s ∧ s.cpu.cyc = 0 := by
  unfold State.inv
  rw [Bool.and_eq_true, Bool.and_eq_true, Bool.and_eq_true, ppuInv_iff]
  unfold cpuInv busInv padInv
  simp only [Bool.and_eq_true, decide_eq_true_eq, Bool.not_eq_true']
  constructor
  · rintro ⟨⟨⟨⟨⟨h1, h2⟩, h3⟩, h4⟩, ⟨⟨h5, h6⟩, h7⟩, h8⟩, h9⟩
    exact ⟨⟨h1, h2, h4, h5, h6, h7, h8, h9⟩, h3⟩
  · rintro ⟨⟨h1, h2, h4, h5, h6, h7, h8, h9⟩, h3⟩
    exact ⟨⟨⟨⟨⟨h1, h2⟩, h3⟩, h4⟩, ⟨⟨h5, h6⟩, h7⟩, h8⟩, h9⟩

/-- The invariant does not look at the registers other than P, at the cycle count or at the host's fields. -/
theorem MidLegal.of_eq {s t : State} (h : MidLegal s) (hp : t.cpu.p = s.cpu.p) (hq : t.ppu = s.ppu) (hb : t.bus = s.bus)
    (hd : t.pad = s.pad) : MidLegal t := by
  obtain ⟨h1, h2, h3, h4, h5, h6, h7, h8⟩ := h
  exact ⟨hp ▸ h1, hp ▸ h2, hq ▸ h3, hb ▸ h4, hb ▸ h5, hb ▸ h6, hb ▸ h7, hd ▸ h8⟩

/-- Writing P keeps the invariant when U stays 1 and B stays 0. -/
theorem MidLegal.setP {s : State} (h : MidLegal s) {p : Byte} (hu : getFlag p .u = true) (hb : getFlag p .b = false) :
    MidLegal (s.setP p) := { h with flagU := hu, flagB := hb }

theorem MidLegal.setPpu {s : State} (h : MidLegal s) {q : Ppu} (hq : PpuLegal q) : MidLegal (s.setPpu q) := { h with ppu := hq }

theorem MidLegal.setPad {s : State} (h : MidLegal s) {d : Pad} (hd : d.index ≤ 8) : MidLegal (s.setPad d) := { h with index_le := hd }

/-! ### Bus dispatch -/

theorem ramIndex_lt (a : Word) : (a &&& 0x07FF).toNat < 2048 := by
  rw [BitVec.toNat_and]
  exact Nat.lt_of_le_of_lt Nat.and_le_right (by decide)

/-- Every address selects RAM inside its 2048 bytes, or one of the six other targets (20 R101). -/
theorem busTarget_ram_lt {a : Word} {i : Nat} (h : busTarget a = .ram i) : i < 2048 := by
  unfold busTarget at h
  split at h
  · cases h; exact ramIndex_lt a
  all_goals (repeat' split at h) <;> cases h

theorem busTarget_of_lt_2000 {a : Word} (h : a < 0x2000) : busTarget a = .ram (a &&& 0x07FF).toNat := if_pos h

/-- A zero-page address is RAM. -/
theorem busTarget_zext16 (b : Byte) : busTarget (zext16 b) = .ram b.toNat := by
  have h : zext16 b < 0x2000 := by
    rw [BitVec.lt_def]
    have := b.isLt
    have h2 : (0x2000 : Word).toNat = 0x2000 := rfl
    rw [h2]
    simp only [zext16, BitVec.toNat_setWidth]
    omega
  rw [busTarget_of_lt_2000 h]
  have key : ∀ b : Byte, (zext16 b &&& 0x07FF).toNat = b.toNat := by decide +kernel
  rw [key]

/-- A stack address is RAM. -/
theorem busTarget_stackAddr (b : Byte) : busTarget (stackAddr b) = .ram (256 + b.toNat) := by
  have key : ∀ b : Byte, busTarget (stackAddr b) = .ram (256 + b.toNat) := by decide +kernel
  exact key b

/-! ### Reads -/

/-- A peek is what a read gives, and the read then has no side effect (70 R630). -/
theorem memRead_of_peek {a : Word} {s : State} {v : Byte} (h : peek s a = some v) : memRead a s = (v, s) := by
  unfold peek at h
  unfold memRead
  split at h <;> simp_all

/-- A read changes neither the CPU nor the Bus. -/
theorem memRead_cpu (a : Word) (s : State) : (memRead a s).2.cpu = s.cpu := by
  unfold memRead readPpuReg
  split <;> first | rfl | (split <;> rfl)

theorem memRead_bus (a : Word) (s : State) : (memRead a s).2.bus = s.bus := by
  unfold memRead readPpuReg
  split <;> first | rfl | (split <;> rfl)

theorem ReadKeepsPpu.refl (q : Ppu) : ReadKeepsPpu q q := ⟨rfl, rfl, rfl, rfl, rfl, rfl, rfl, rfl, rfl, rfl, rfl, rfl, rfl⟩

theorem ReadKeepsPpu.trans {q r t : Ppu} (h : ReadKeepsPpu q r) (k : ReadKeepsPpu r t) : ReadKeepsPpu q t :=
  ⟨k.ctrl.trans h.ctrl, k.mask.trans h.mask, k.oamAddr.trans h.oamAddr, k.oam.trans h.oam, k.scrollX.trans h.scrollX,
   k.scrollY.trans h.scrollY, k.vram.trans h.vram, k.palette.trans h.palette, k.chr.trans h.chr, k.mirroring.trans h.mirroring,
   k.scanline.trans h.scanline, k.cycle.trans h.cycle, k.nmiPending.trans h.nmiPending⟩

theorem readPpuData_keeps (q : Ppu) : ReadKeepsPpu q (readPpuData q).2 := by
  unfold readPpuData
  split <;> constructor <;> rfl

theorem memRead_ppu (a : Word) (s : State) : ReadKeepsPpu s.ppu (memRead a s).2.ppu := by
  unfold memRead
  split
  case h_2 r _ =>
    cases r
    case status => constructor <;> rfl
    case data => exact readPpuData_keeps s.ppu
    all_goals exact ReadKeepsPpu.refl _
  all_goals exact ReadKeepsPpu.refl _

/-- A read leaves the controller's strobe and buttons. -/
theorem memRead_pad (a : Word) (s : State) :
    (memRead a s).2.pad.strobe = s.pad.strobe ∧ (memRead a s).2.pad.buttons = s.pad.buttons := by
  unfold memRead readPpuReg
  split
  case h_2 r _ => split <;> exact ⟨rfl, rfl⟩
  case h_4 => simp only [setPad_pad, padAfterRead]; split <;> exact ⟨rfl, rfl⟩
  all_goals exact ⟨rfl, rfl⟩

/-- A read keeps the invariant. -/
theorem MidLegal.read {s : State} (h : MidLegal s) (a : Word) : MidLegal (memRead a s).2 := by
  unfold memRead
  split
  case h_2 r _ =>
    cases r
    case status => exact h.setPpu h.ppu.readStatus
    case data => exact h.setPpu h.ppu.readData
    all_goals exact h.of_eq rfl rfl rfl rfl
  case h_4 =>
    refine h.setPad ?_
    have := h.index_le
    unfold padAfterRead
    split
    · simp only; omega
    · exact this
  all_goals exact h

/-! ### Writes -/

theorem dmaByte_keeps (v : Byte) (s : State) (i : Nat) :
    (dmaByte v s i).cpu = s.cpu ∧ (dmaByte v s i).bus = s.bus ∧ (dmaByte v s i).ppu.chr = s.ppu.chr ∧
    (dmaByte v s i).ppu.mirroring = s.ppu.mirroring := by
  have hp := memRead_ppu (joinBytes v (BitVec.ofNat 8 i)) s
  exact ⟨memRead_cpu _ s, memRead_bus _ s, hp.chr, hp.mirroring⟩

theorem MidLegal.dmaByte {s : State} (h : MidLegal s) (v : Byte) (i : Nat) : MidLegal (Machine.dmaByte v s i) :=
  (h.read _).setPpu ((h.read _).ppu.writeOam _)

/-- The copy loop of an OAM DMA over any list of indexes. -/
theorem dmaFold_keeps (v : Byte) : ∀ (is : List Nat) (s : State),
    (is.foldl (dmaByte v) s).cpu = s.cpu ∧ (is.foldl (dmaByte v) s).bus = s.bus ∧ (is.foldl (dmaByte v) s).ppu.chr = s.ppu.chr ∧
    (is.foldl (dmaByte v) s).ppu.mirroring = s.ppu.mirroring
  | [], _ => ⟨rfl, rfl, rfl, rfl⟩
  | i :: is, s => by
    obtain ⟨h1, h2, h3, h4⟩ := dmaFold_keeps v is (Machine.dmaByte v s i)
    obtain ⟨k1, k2, k3, k4⟩ := dmaByte_keeps v s i
    exact ⟨h1.trans k1, h2.trans k2, h3.trans k3, h4.trans k4⟩

theorem MidLegal.dmaFold (v : Byte) : ∀ (is : List Nat) {s : State}, MidLegal s → MidLegal (is.foldl (Machine.dmaByte v) s)
  | [], _, h => h
  | i :: is, _, h => MidLegal.dmaFold v is (h.dmaByte v i)

/-- The cycles a write to an address charges: the DMA's for `$4014`, none elsewhere (40 R230, 60 R571). -/
def writeCycles (a : Word) : Nat :=
  match busTarget a with
  | .oamDma => Config.oamDmaCycles
  | .ram _ | .ppu _ | .controller | .reserved | .unmapped | .prg => 0

/-- A write changes no register of the CPU: only a DMA's cycles are charged. -/
theorem memWrite_cpu (a : Word) (v : Byte) (s : State) :
    (memWrite a v s).cpu = { s.cpu with cyc := s.cpu.cyc + writeCycles a } := by
  unfold memWrite writeCycles
  cases busTarget a
  case oamDma =>
    obtain ⟨h1, _⟩ := dmaFold_keeps v (List.range 256) s
    simp only [oamDma, State.charge, State.setCyc]
    rw [h1]
  all_goals rfl

/-- A write changes no PRG byte, no PRG size and no master cycle count; RAM changes only where the address is RAM. -/
theorem memWrite_bus (a : Word) (v : Byte) (s : State) :
    (memWrite a v s).bus =
      match busTarget a with
      | .ram i => { s.bus with ram := s.bus.ram.write i v }
      | .ppu _ | .oamDma | .controller | .reserved | .unmapped | .prg => s.bus := by
  unfold memWrite
  cases busTarget a
  case oamDma => exact (dmaFold_keeps v (List.range 256) s).2.1
  all_goals rfl

/-- The pattern data and the mirroring never change. -/
theorem memWrite_chr (a : Word) (v : Byte) (s : State) :
    (memWrite a v s).ppu.chr = s.ppu.chr ∧ (memWrite a v s).ppu.mirroring = s.ppu.mirroring := by
  unfold memWrite
  cases busTarget a
  case ppu r =>
    cases r <;> simp only [setPpu_ppu, writePpuReg]
    case scroll => unfold writePpuScroll; split <;> exact ⟨rfl, rfl⟩
    case addr => unfold writePpuAddr; split <;> exact ⟨rfl, rfl⟩
    case data =>
      unfold writePpuData ppuWrite
      split
      · exact ⟨rfl, rfl⟩
      · split <;> exact ⟨rfl, rfl⟩
    case ctrl => exact ⟨rfl, rfl⟩
    case mask => exact ⟨rfl, rfl⟩
    case oamAddr => exact ⟨rfl, rfl⟩
    case oamData => exact ⟨rfl, rfl⟩
    case status => exact ⟨trivial, trivial⟩
  case oamDma => exact (dmaFold_keeps v (List.range 256) s).2.2
  all_goals exact ⟨rfl, rfl⟩

/-- A write keeps the invariant. -/
theorem MidLegal.write {s : State} (h : MidLegal s) (a : Word) (v : Byte) : MidLegal (memWrite a v s) := by
  unfold memWrite
  split
  case h_1 i hi =>
    exact { h with ram_wf := write_wf _ _ _ h.ram_wf, ram_below := write_below _ _ (busTarget_ram_lt hi) h.ram_below }
  case h_2 r _ => exact h.setPpu (h.ppu.writeReg r v)
  case h_3 => exact (MidLegal.dmaFold v _ h).of_eq rfl rfl rfl rfl
  case h_4 =>
    refine h.setPad ?_
    have := h.index_le
    simp only [padAfterWrite]
    split <;> omega
  all_goals exact h

/-! ### The stack -/

/-- A push writes the stack byte in RAM and moves S down; nothing else (20 R125). -/
theorem push_eq (v : Byte) (s : State) : push v s = (s.writeRam (256 + s.cpu.sp.toNat) v).setSp (s.cpu.sp - 1) := by
  unfold push memWrite
  rw [busTarget_stackAddr]
  rfl

/-- A pull moves S up and reads the stack byte; nothing else (20 R126). -/
theorem pull_eq (s : State) : pull s = (s.bus.ram.read (256 + (s.cpu.sp + 1).toNat), s.setSp (s.cpu.sp + 1)) := by
  unfold pull memRead
  simp only [setSp_sp, busTarget_stackAddr]
  rfl

theorem stackIndex_lt (b : Byte) : 256 + b.toNat < 2048 := by have := b.isLt; omega

theorem MidLegal.push {s : State} (h : MidLegal s) (v : Byte) : MidLegal (Machine.push v s) := by
  rw [push_eq]
  exact { h with ram_wf := write_wf _ _ _ h.ram_wf, ram_below := write_below _ _ (stackIndex_lt _) h.ram_below }

theorem MidLegal.pull {s : State} (h : MidLegal s) : MidLegal (Machine.pull s).2 := by
  rw [pull_eq]
  exact h.of_eq rfl rfl rfl rfl

theorem MidLegal.push16 {s : State} (h : MidLegal s) (w : Word) : MidLegal (Machine.push16 w s) := (h.push _).push _

theorem MidLegal.pull16 {s : State} (h : MidLegal s) : MidLegal (Machine.pull16 s).2 := (h.pull).pull

/-! ### Interrupts -/

theorem MidLegal.read16 {s : State} (h : MidLegal s) (a : Word) : MidLegal (Machine.read16 a s).2 := (h.read _).read _

theorem MidLegal.enterInterrupt {s : State} (h : MidLegal s) (ret : Word) (brk : Bool) (vec : Word) :
    MidLegal (Machine.enterInterrupt ret brk vec s) := by
  have hp := (h.push16 ret).push (pushImage s.cpu.p brk)
  have hf : MidLegal ((Machine.push (pushImage s.cpu.p brk) (Machine.push16 ret s)).setFlag .i true) := by
    refine hp.setP ?_ ?_
    · rw [getFlag_setFlag_other _ _ (by decide)]; exact hp.flagU
    · rw [getFlag_setFlag_other _ _ (by decide)]; exact hp.flagB
  exact (hf.read16 vec).of_eq rfl rfl rfl rfl

theorem MidLegal.returnFromInterrupt {s : State} (h : MidLegal s) : MidLegal (Machine.returnFromInterrupt s) := by
  have hp : MidLegal ((Machine.pull s).2.setP (pulledStatus (Machine.pull s).1)) :=
    h.pull.setP (by rw [getFlag_pulledStatus]; simp) (by rw [getFlag_pulledStatus]; simp)
  exact hp.pull16.of_eq rfl rfl rfl rfl

/-! ### The Bus clock -/

/-- The host's callback changes only the buttons and the model's own fields (60 R566). -/
theorem frameCallback_keeps (s : State) :
    (frameCallback s).cpu = s.cpu ∧ (frameCallback s).ppu = s.ppu ∧ (frameCallback s).bus = s.bus ∧
    (frameCallback s).pad.index = s.pad.index ∧ (frameCallback s).pad.strobe = s.pad.strobe ∧
    (frameCallback s).host.draws = s.host.draws := by
  unfold frameCallback hostInput
  dsimp only
  split <;> exact ⟨rfl, rfl, rfl, rfl, rfl, rfl⟩

/-- What a Bus tick does: the PPU's tick, the master cycle counter, and the callback, which touches none of these (60 R565). -/
theorem busTick_spec (c : Nat) (s : State) :
    (busTick c s).cpu = s.cpu ∧ (busTick c s).ppu = (ppuTick (3 * c) s.ppu).1 ∧
    (busTick c s).bus = { s.bus with cycles := s.bus.cycles + c } ∧
    (busTick c s).pad.index = s.pad.index ∧ (busTick c s).pad.strobe = s.pad.strobe := by
  unfold busTick ppuRatio
  dsimp only
  split
  · obtain ⟨h1, h2, h3, h4, h5, _⟩ :=
      frameCallback_keeps { s with ppu := (ppuTick (3 * c) s.ppu).1, bus := { s.bus with cycles := s.bus.cycles + c } }
    exact ⟨h1, h2, h3, h4, h5⟩
  · exact ⟨rfl, rfl, rfl, rfl, rfl⟩

theorem MidLegal.tick {s : State} (h : MidLegal s) (c : Nat) : MidLegal (busTick c s) := by
  obtain ⟨h1, h2, h3, h4, _⟩ := busTick_spec c s
  obtain ⟨u, b, q, r1, r2, p1, p2, ix⟩ := h
  refine ⟨?_, ?_, ?_, ?_, ?_, ?_, ?_, ?_⟩
  · rw [h1]; exact u
  · rw [h1]; exact b
  · rw [h2]; exact q.tick _
  · rw [h3]; exact r1
  · rw [h3]; exact r2
  · rw [h3]; exact p1
  · rw [h3]; exact p2
  · rw [h4]; exact ix

end Sys2Proof.Machine
end

