-- ==== Sys2Proof/Laws/Dma.lean ====
section
/-! SUPPORT. What the copy loop of an OAM DMA does (60 R570): where its cursor stands, what each byte of it leaves in OAM, and what it
leaves alone where its reads have no side effect. -/

namespace Sys2Proof.Machine

/-- The loop's last byte comes after the others. -/
theorem dmaRange_succ (v : Byte) (s : State) (k : Nat) :
    (List.range (k + 1)).foldl (dmaByte v) s = dmaByte v ((List.range k).foldl (dmaByte v) s) k := by
  rw [List.range_succ, List.foldl_append]
  rfl

/-- One byte of the loop: OAM at the cursor gets the byte read, and the cursor moves on. -/
theorem dmaByte_ppu (v : Byte) (s : State) (i : Nat) :
    (dmaByte v s i).ppu.oam = s.ppu.oam.write s.ppu.oamAddr.toNat (memRead (joinBytes v (BitVec.ofNat 8 i)) s).1 ∧
    (dmaByte v s i).ppu.oamAddr = s.ppu.oamAddr + 1 := by
  have h := memRead_ppu (joinBytes v (BitVec.ofNat 8 i)) s
  simp only [dmaByte, writeOamData, setPpu_ppu]
  rw [h.oam, h.oamAddr]
  exact ⟨rfl, rfl⟩

/-- The cursor after `k` bytes, and OAM still in its canonical form. -/
theorem dmaRange_cursor (v : Byte) (s : State) : ∀ k : Nat,
    ((List.range k).foldl (dmaByte v) s).ppu.oamAddr = s.ppu.oamAddr + BitVec.ofNat 8 k ∧
    (s.ppu.oam.wf = true → ((List.range k).foldl (dmaByte v) s).ppu.oam.wf = true)
  | 0 => ⟨by simp, id⟩
  | k + 1 => by
    obtain ⟨h1, h2⟩ := dmaRange_cursor v s k
    obtain ⟨k1, k2⟩ := dmaByte_ppu v ((List.range k).foldl (dmaByte v) s) k
    rw [dmaRange_succ, k1, k2, h1]
    refine ⟨?_, fun hw => write_wf _ _ _ (h2 hw)⟩
    rw [BitVec.ofNat_add, BitVec.add_assoc]
    rfl

/-- The byte that the `k`-th turn leaves in OAM, and that no later turn of the loop's 256 replaces: the one it read. -/
theorem dmaRange_oam (v : Byte) {s : State} (hw : s.ppu.oam.wf = true) {k : Nat} : ∀ {n : Nat}, k < n → n ≤ 256 →
    ((List.range n).foldl (dmaByte v) s).ppu.oam.read (s.ppu.oamAddr + BitVec.ofNat 8 k).toNat =
      (memRead (joinBytes v (BitVec.ofNat 8 k)) ((List.range k).foldl (dmaByte v) s)).1
  | n + 1, hk, hn => by
    obtain ⟨h1, h2⟩ := dmaRange_cursor v s n
    obtain ⟨k1, _⟩ := dmaByte_ppu v ((List.range n).foldl (dmaByte v) s) n
    rw [dmaRange_succ, k1, h1]
    by_cases h : k = n
    · rw [h, read_write_same _ (h2 hw)]
    · rw [read_write_other, dmaRange_oam v hw (n := n) (by omega) (by omega)]
      intro he
      have := BitVec.add_right_inj _ |>.mp (BitVec.eq_of_toNat_eq he)
      have := congrArg BitVec.toNat this
      simp only [BitVec.toNat_ofNat] at this
      omega

/-- Where no read of the loop has a side effect, the loop changes OAM and the cursor, and nothing else. -/
theorem dmaFold_plain (v : Byte) : ∀ (is : List Nat) (s : State),
    (∀ i ∈ is, ∀ t : State, (memRead (joinBytes v (BitVec.ofNat 8 i)) t).2 = t) →
    is.foldl (dmaByte v) s = { s with ppu := { s.ppu with
      oam := (is.foldl (dmaByte v) s).ppu.oam, oamAddr := (is.foldl (dmaByte v) s).ppu.oamAddr } }
  | [], _, _ => rfl
  | i :: is, s, h => by
    have h1 : dmaByte v s i = { s with ppu := writeOamData s.ppu (memRead (joinBytes v (BitVec.ofNat 8 i)) s).1 } := by
      simp only [dmaByte, h i List.mem_cons_self]
      rfl
    rw [List.foldl_cons, dmaFold_plain v is _ fun j hj => h j (List.mem_cons_of_mem _ hj), h1]
    rfl

/-- Page `$40` holds the controller: the turn that reads `$4016` reads it once, and the other turns have no side effect (20 R106, R107). -/
theorem dmaFold_controller (before after : List Nat) (s : State)
    (hb : ∀ i ∈ before, ∀ t : State, (memRead (joinBytes 0x40 (BitVec.ofNat 8 i)) t).2 = t)
    (ha : ∀ i ∈ after, ∀ t : State, (memRead (joinBytes 0x40 (BitVec.ofNat 8 i)) t).2 = t) :
    ∃ oam oamAddr, (before ++ 0x16 :: after).foldl (dmaByte 0x40) s =
      { s with pad := padAfterRead s.pad, ppu := { s.ppu with oam := oam, oamAddr := oamAddr } } := by
  rw [List.foldl_append, List.foldl_cons, dmaFold_plain _ after _ ha, dmaFold_plain _ before _ hb]
  exact ⟨_, _, rfl⟩

/-! ### What the addresses of a page select -/

theorem joinBytes_toNat (h l : Byte) : (joinBytes h l).toNat = h.toNat * 256 + l.toNat := by
  unfold joinBytes
  rw [BitVec.toNat_append, ← Nat.shiftLeft_add_eq_or_of_lt (by omega), Nat.shiftLeft_eq]

/-- A page below `$20` is RAM, mirrored (20 R102). -/
theorem busTarget_ramPage {v : Byte} (hv : v < 0x20) (l : Byte) :
    busTarget (joinBytes v l) = .ram ((v.toNat * 256 + l.toNat) % 2048) := by
  have h : joinBytes v l < 0x2000 := by
    have : v.toNat < 32 := hv
    rw [BitVec.lt_def, joinBytes_toNat]
    show _ < 8192
    omega
  rw [busTarget_of_lt_2000 h, ← joinBytes_toNat, BitVec.toNat_and]
  exact congrArg _ (Nat.and_two_pow_sub_one_eq_mod _ 11)

/-- A page from `$41` to `$7F` is unmapped (20 R107). -/
theorem busTarget_unmappedPage {v : Byte} (h1 : 0x41 ≤ v) (h2 : v < 0x80) (l : Byte) : busTarget (joinBytes v l) = .unmapped := by
  have lo : 0x4100 ≤ joinBytes v l := by
    have : 65 ≤ v.toNat := h1
    rw [BitVec.le_def, joinBytes_toNat]
    show 16640 ≤ _
    omega
  have hi : joinBytes v l < 0x8000 := by
    have : v.toNat < 128 := h2
    rw [BitVec.lt_def, joinBytes_toNat]
    show _ < 32768
    omega
  unfold busTarget
  rw [if_neg (by bv_omega), if_neg (by bv_omega), if_neg (by bv_omega), if_neg (by bv_omega), if_neg (by bv_omega), if_pos hi]

/-- A page from `$80` on is PRG ROM (20 R108). -/
theorem busTarget_prgPage {v : Byte} (hv : 0x80 ≤ v) (l : Byte) : busTarget (joinBytes v l) = .prg := by
  have h : 0x8000 ≤ joinBytes v l := by
    have : 128 ≤ v.toNat := hv
    rw [BitVec.le_def, joinBytes_toNat]
    show 32768 ≤ _
    omega
  unfold busTarget
  rw [if_neg (by bv_omega), if_neg (by bv_omega), if_neg (by bv_omega), if_neg (by bv_omega), if_neg (by bv_omega),
    if_neg (by bv_omega)]

end Sys2Proof.Machine
end

