-- ==== Sys2Proof/Laws/Operands.lean ====
section
/-! SUPPORT. The laws of the operand forms: the pointer reads of the indexed indirect modes are plain RAM reads, the address decoder
answers for every memory mode, and the three shapes of an instruction keep the invariant. -/

namespace Sys2Proof.Machine

/-- A zero-page pointer is read from RAM, with no side effect (20 R112). -/
theorem read16ZP_eq (z : Byte) (s : State) :
    read16ZP z s = (joinBytes (s.bus.ram.read (z + 1).toNat) (s.bus.ram.read z.toNat), s) := by
  simp only [read16ZP, memRead, busTarget_zext16]

/-- The modes whose effective address needs no side-effecting pointer read: all memory modes but JMP's indirect one. -/
def isMemoryMode : Mode → Bool
  | .zp | .zpx | .zpy | .abs | .absx | .absy | .indx | .indy => true
  | .impl | .acc | .imm | .ind | .rel => false

/-- The address decoder answers for every memory mode, and its pointer reads change nothing. -/
theorem resolve_memory {o : Operand} (h : isMemoryMode o.mode = true) (s : State) : ∃ r, resolve o s = some r ∧ r.st = s := by
  cases o <;> first
    | exact absurd h Bool.false_ne_true
    | exact ⟨_, rfl, rfl⟩
    | exact ⟨_, rfl, by simp [indexed, direct, read16ZP_eq]⟩

/-- The address decoder never changes the CPU or the Bus. -/
theorem resolve_keeps {o : Operand} {s : State} {r : Resolved} (h : resolve o s = some r) : r.st.cpu = s.cpu ∧ r.st.bus = s.bus := by
  cases o <;> simp only [resolve, Option.some.injEq, reduceCtorEq] at h <;> subst h <;>
    simp only [direct, indexed, read16ZP_eq, and_self, read16InPage, memRead_cpu, memRead_bus]

theorem MidLegal.resolve {o : Operand} {s : State} {r : Resolved} (hs : MidLegal s) (h : Machine.resolve o s = some r) : MidLegal r.st := by
  cases o <;> simp only [Machine.resolve, Option.some.injEq, reduceCtorEq] at h <;> subst h <;>
    first | exact hs | (simp only [direct, indexed, read16ZP_eq]; exact hs) | exact (hs.read _).read _

/-- An operand read of a memory mode is one Bus read of the effective address, the page-cross penalty charged before it. -/
theorem readOperand_of_resolve {o : Operand} {s : State} {r : Resolved} (h : resolve o s = some r) :
    readOperand o s = some (memRead r.ea (chargePage r.crossed r.st)) := by
  cases o <;> simp_all [readOperand, resolve]

theorem MidLegal.chargePage {s : State} (h : MidLegal s) (b : Bool) : MidLegal (Machine.chargePage b s) := by
  cases b
  · exact h
  · exact h.of_eq rfl rfl rfl rfl

theorem MidLegal.readOperand {o : Operand} {s : State} {x : Byte × State} (hs : MidLegal s) (h : Machine.readOperand o s = some x) :
    MidLegal x.2 := by
  unfold Machine.readOperand at h
  split at h
  · cases h; exact hs
  · cases h; exact hs
  · split at h
    · rename_i r hr
      cases h
      exact ((hs.resolve hr).chargePage _).read _
    · cases h

/-- A read instruction's answer is legal when what it does to a legal state is. -/
theorem MidLegal.readThen {o : Operand} {s u : State} {k : Byte → State → State} (hs : MidLegal s)
    (hk : ∀ m t, MidLegal t → MidLegal (k m t)) (h : Machine.readThen o s k = .next u) : MidLegal u := by
  unfold Machine.readThen at h
  split at h
  · rename_i x hx
    cases h
    exact (hk _ _ (hs.readOperand hx)).of_eq rfl rfl rfl rfl
  · cases h

theorem MidLegal.storeThen {o : Operand} {s u : State} {v : Byte} (hs : MidLegal s) (h : Machine.storeThen o s v = .next u) :
    MidLegal u := by
  unfold Machine.storeThen at h
  split at h
  · rename_i r hr
    cases h
    exact ((hs.resolve hr).write _ _).of_eq rfl rfl rfl rfl
  · cases h

theorem MidLegal.modifyThen {o : Operand} {s u : State} {f : Byte → Byte → Byte} {k : Byte → State → State} (hs : MidLegal s)
    (hk : ∀ m t, MidLegal t → MidLegal (k m t)) (h : Machine.modifyThen o s f k = .next u) : MidLegal u := by
  unfold Machine.modifyThen at h
  split at h
  · rename_i r hr
    cases h
    exact (hk _ _ (((hs.resolve hr).read _).write _ _)).of_eq rfl rfl rfl rfl
  · cases h

/-- Writing a flag other than U and B keeps the invariant. -/
theorem MidLegal.setFlag {s : State} (h : MidLegal s) {f : Flag} (b : Bool) (hu : f ≠ .u) (hb : f ≠ .b) : MidLegal (s.setFlag f b) :=
  h.setP (by rw [getFlag_setFlag_other _ _ hu.symm]; exact h.flagU) (by rw [getFlag_setFlag_other _ _ hb.symm]; exact h.flagB)

theorem MidLegal.setZN {s : State} (h : MidLegal s) (v : Byte) : MidLegal (s.setZN v) :=
  h.setP (by rw [getFlag_setZN]; simpa using h.flagU) (by rw [getFlag_setZN]; simpa using h.flagB)

theorem MidLegal.add8 {s : State} (h : MidLegal s) (m : Byte) : MidLegal (s.add8 m) :=
  (h.setP (p := addFlags s.cpu.p s.cpu.a m) (by rw [getFlag_addFlags]; exact h.flagU) (by rw [getFlag_addFlags]; exact h.flagB)).of_eq
    rfl rfl rfl rfl

theorem MidLegal.compare {s : State} (h : MidLegal s) (r m : Byte) : MidLegal (s.compare r m) :=
  h.setP (by rw [getFlag_compareFlags]; simpa using h.flagU) (by rw [getFlag_compareFlags]; simpa using h.flagB)

theorem MidLegal.shiftFlags {s : State} (h : MidLegal s) (r : Shifted) : MidLegal (s.setP (Machine.shiftFlags s.cpu.p r)) :=
  h.setP (by rw [getFlag_shiftFlags]; simpa using h.flagU) (by rw [getFlag_shiftFlags]; simpa using h.flagB)

end Sys2Proof.Machine
end

