-- ==== Sys2Proof/Laws/Shapes.lean ====
section
/-! SUPPORT. Reads and writes do not look at the CPU's registers; the frame of a read and of a write; and how a read, a store and a
read-modify-write instruction complete, once for each shape. -/

namespace Sys2Proof.Machine

/-- A read does not look at the CPU: it commutes with any change of the CPU's registers. -/
theorem memRead_setCpu (a : Word) (s : State) (c : Cpu) :
    memRead a { s with cpu := c } = ((memRead a s).1, { (memRead a s).2 with cpu := c }) := by
  unfold memRead readPpuReg
  cases busTarget a
  case ppu r => cases r <;> rfl
  all_goals rfl

theorem ReadFrame.refl (s : State) : ReadFrame s s := ⟨rfl, ReadKeepsPpu.refl _, rfl, rfl, rfl, rfl, rfl⟩

theorem ReadFrame.trans {s t u : State} (h : ReadFrame s t) (k : ReadFrame t u) : ReadFrame s u :=
  ⟨k.bus.trans h.bus, h.ppu.trans k.ppu, k.strobe.trans h.strobe, k.buttons.trans h.buttons, k.frames.trans h.frames,
   k.view.trans h.view, k.inputs.trans h.inputs⟩

/-- A read keeps the frame of a read. -/
theorem memRead_frame (a : Word) (s : State) : ReadFrame s (memRead a s).2 := by
  refine ⟨memRead_bus a s, memRead_ppu a s, (memRead_pad a s).1, (memRead_pad a s).2, ?_, ?_, ?_⟩ <;>
    (unfold memRead readPpuReg; split <;> first | rfl | (split <;> rfl))

/-- One byte of a DMA does not look at the CPU. -/
theorem dmaByte_setCpu (v : Byte) (s : State) (i : Nat) (c : Cpu) :
    dmaByte v { s with cpu := c } i = { dmaByte v s i with cpu := c } := by
  unfold dmaByte
  rw [memRead_setCpu]
  rfl

theorem dmaFold_setCpu (v : Byte) : ∀ (is : List Nat) (s : State) (c : Cpu),
    is.foldl (dmaByte v) { s with cpu := c } = { is.foldl (dmaByte v) s with cpu := c }
  | [], _, _ => rfl
  | i :: is, s, c => by
    rw [List.foldl_cons, List.foldl_cons, dmaByte_setCpu, dmaFold_setCpu v is]

/-- `$4014` alone starts an OAM DMA (20 R104). -/
theorem busTarget_oamDma {a : Word} : busTarget a = .oamDma ↔ a = 0x4014 := by
  constructor
  · unfold busTarget
    intro h
    repeat' split at h
    all_goals first | assumption | cases h
  · rintro rfl; rfl

theorem writeCycles_eq (a : Word) : writeCycles a = dmaCharge a := by
  unfold writeCycles dmaCharge
  by_cases h : a = 0x4014
  · rw [if_pos h, busTarget_oamDma.mpr h]
  · rw [if_neg h]
    have := mt busTarget_oamDma.mp h
    cases hb : busTarget a <;> first | rfl | exact absurd hb this

/-- A write commutes with a change of the CPU's registers, its charge going to the new cycle count. -/
theorem memWrite_setCpu (a : Word) (v : Byte) (s : State) (c : Cpu) :
    memWrite a v { s with cpu := c } = { memWrite a v s with cpu := { c with cyc := c.cyc + dmaCharge a } } := by
  have hc := memWrite_cpu a v { s with cpu := c }
  rw [writeCycles_eq] at hc
  have : ∀ t u : State, t.cpu = u.cpu → t.ppu = u.ppu → t.bus = u.bus → t.pad = u.pad → t.host = u.host → t = u := by
    rintro ⟨⟩ ⟨⟩; simp_all
  refine this _ _ hc ?_ ?_ ?_ ?_ <;> unfold memWrite <;> cases busTarget a
  case refine_1.oamDma | refine_2.oamDma | refine_3.oamDma | refine_4.oamDma => simp only [oamDma, dmaFold_setCpu, State.charge, State.setCyc]
  all_goals rfl

/-- A write changes no byte of RAM or ROM but the one its address names (20 R101). -/
theorem sameBytesBut_memWrite {s t : State} (ea : Word) (v : Byte) (h : t.bus = s.bus) : SameBytesBut ea s (memWrite ea v t) := by
  intro a ha
  unfold peek
  have hb := memWrite_bus ea v t
  cases he : busTarget a with
  | ram i =>
    have hi := ha i he
    rw [hb, h]
    cases hj : busTarget ea with
    | ram j =>
      simp only
      rw [read_write_other]
      rintro rfl
      exact hi hj
    | _ => rfl
  | prg =>
    simp only [Bus.prgByte]
    rw [hb, h]
    cases busTarget ea <;> rfl
  | _ => rfl

/-- The page-cross penalty of a read instruction is the one its operand's addresses say (40 R231). -/
theorem chargePage_resolve {o : Operand} {s : State} {r : Resolved} (ho : o.mode ≠ .ind) (h : resolve o s = some r) :
    chargePage r.crossed r.st = s.setCyc (s.cpu.cyc + pageCharge o s) := by
  cases o <;> simp only [resolve, Option.some.injEq, reduceCtorEq] at h <;> subst h <;>
    simp only [direct, indexed, read16ZP_eq, chargePage, pageCharge, bne_iff_ne, ne_eq, ite_not]
  case ind => exact absurd rfl ho
  all_goals first | rfl | (split <;> rfl)

/-- What a read instruction does, for every mode that gives a value: the operand is read once, with the frame of a read; the CPU's
registers stand as before but for the page-cross penalty (40 R218, R231). -/
theorem readOperand_spec {o : Operand} (h : isMemoryMode o.mode = true ∨ o.mode = .imm ∨ o.mode = .acc) (s : State) :
    ∃ m t, readOperand o s = some (m, t) ∧ ReadFrame s t ∧ t.cpu = { s.cpu with cyc := s.cpu.cyc + pageCharge o s } := by
  rcases h with h | h | h
  · obtain ⟨r, hr, hst⟩ := resolve_memory h s
    refine ⟨_, _, readOperand_of_resolve hr, ?_, ?_⟩
    · rw [chargePage_resolve (by rintro h2; rw [h2] at h; exact absurd h Bool.false_ne_true) hr]
      have := memRead_frame r.ea (s.setCyc (s.cpu.cyc + pageCharge o s))
      exact ⟨this.bus, this.ppu, this.strobe, this.buttons, this.frames, this.view, this.inputs⟩
    · refine (memRead_cpu _ _).trans ?_
      rw [chargePage_resolve (by rintro h2; rw [h2] at h; exact absurd h Bool.false_ne_true) hr]
      rfl
  · cases o <;> simp only [Operand.mode, reduceCtorEq] at h
    exact ⟨_, s, rfl, ReadFrame.refl s, rfl⟩
  · cases o <;> simp only [Operand.mode, reduceCtorEq] at h
    exact ⟨_, s, rfl, ReadFrame.refl s, rfl⟩

/-- How a read instruction completes, from the answer of its meaning: `k` writes registers only, as `f` says. -/
theorem completesReading_of {i : Instr} {o : Operand} {f : Cpu → Byte → Cpu} {k : Byte → State → State}
    (hm : isMemoryMode o.mode = true ∨ o.mode = .imm ∨ o.mode = .acc) (he : ∀ s, exec i s = readThen o s k)
    (hk : ∀ m t, k m t = { t with cpu := f t.cpu m })
    (hf : ∀ c m n, f { c with cyc := n } m = { f c m with cyc := n }) (hp : ∀ c m, (f c m).pc = c.pc) :
    CompletesReading i o f := by
  intro s
  obtain ⟨m, t, h1, h2, h3⟩ := readOperand_spec hm s
  refine ⟨m, t, h1, h2, ?_⟩
  rw [he]
  unfold readThen
  rw [h1]
  simp only [hk, State.advance, State.setPc, hp]
  rw [h3, hf]

/-- How a store instruction completes (40 R218). -/
theorem completesStoring_of {i : Instr} {o : Operand} {v : Cpu → Byte} (hm : isMemoryMode o.mode = true)
    (he : ∀ s, exec i s = storeThen o s (v s.cpu)) : CompletesStoring i o v := by
  intro s
  obtain ⟨r, h1, h2⟩ := resolve_memory hm s
  refine ⟨r, h1, h2, ?_, sameBytesBut_memWrite _ _ rfl⟩
  rw [he]
  unfold storeThen
  rw [h1]
  simp only [h2, State.advance, State.setPc, memWrite_cpu, writeCycles_eq]

/-- How a read-modify-write instruction completes (40 R222). -/
theorem completesModifying_of {i : Instr} {o : Operand} {f : Cpu → Byte → Byte} {g : Cpu → Byte → Cpu} {f' : Byte → Byte → Byte}
    {k : Byte → State → State} (hm : isMemoryMode o.mode = true) (he : ∀ s, exec i s = modifyThen o s f' k)
    (hv : ∀ c m, f' c.p m = f c m) (hk : ∀ m t, k m t = { t with cpu := g t.cpu m })
    (hg : ∀ c m n, g { c with cyc := n } m = { g c m with cyc := n }) (hp : ∀ c m, (g c m).pc = c.pc) :
    CompletesModifying i o f g := by
  intro s
  obtain ⟨r, h1, h2⟩ := resolve_memory hm s
  refine ⟨r, _, _, h1, h2, rfl, memRead_frame _ _, ?_, sameBytesBut_memWrite _ _ (memRead_bus _ _)⟩
  rw [he]
  unfold modifyThen
  rw [h1]
  simp only [h2, hk, State.advance, State.setPc, hp]
  rw [memWrite_cpu, memRead_cpu, writeCycles_eq, hg, hv]
  rfl

end Sys2Proof.Machine
end

