-- ==== Sys2Proof/Laws/Interrupts.lean ====
section
/-! SUPPORT. The PRG window, words read from it, and what taking an interrupt does, once for BRK and NMI. -/

namespace Sys2Proof.Machine

theorem busTarget_prg {a : Word} (h : 0x8000 ≤ a) : busTarget a = .prg := by
  unfold busTarget
  (repeat' split) <;> first | rfl | (exfalso; bv_omega)

/-- A read of the PRG window gives the image's byte and has no side effect (20 R108). -/
theorem memRead_prg {a : Word} (h : 0x8000 ≤ a) (s : State) : memRead a s = (s.bus.prgByte a, s) := by
  unfold memRead
  rw [busTarget_prg h]

/-- A word read from the PRG window, low byte first (20 R111). -/
theorem read16_prg {a : Word} (h : 0x8000 ≤ a) (h2 : a < 0xFFFF) (s : State) :
    read16 a s = (joinBytes (s.bus.prgByte (a + 1)) (s.bus.prgByte a), s) := by
  unfold read16
  rw [memRead_prg h]
  dsimp only
  rw [memRead_prg (show (0x8000 : Word) ≤ a + 1 by bv_omega)]

theorem joinBytes_hi_lo (w : Word) : joinBytes (hiByte w) (loByte w) = w := by
  unfold joinBytes hiByte loByte
  apply BitVec.eq_of_toNat_eq
  simp only [BitVec.toNat_append, BitVec.extractLsb'_toNat, Nat.shiftLeft_eq, Nat.shiftRight_eq_div_pow]
  have := w.isLt
  rw [← Nat.shiftLeft_eq, ← Nat.shiftLeft_add_eq_or_of_lt (by omega), Nat.shiftLeft_eq]
  omega

/-- Taking an interrupt through a vector in the PRG window: three stack bytes, S, I and PC; nothing else (44 R383, 60 R507). -/
theorem enterInterrupt_eq (ret : Word) (brk : Bool) {vec : Word} (s : State) (h : 0x8000 ≤ vec) (h2 : vec < 0xFFFF) :
    enterInterrupt ret brk vec s = { s with
      cpu := { s.cpu with
        sp := s.cpu.sp - 3
        p := setFlag s.cpu.p .i true
        pc := joinBytes (s.bus.prgByte (vec + 1)) (s.bus.prgByte vec) }
      bus := { s.bus with
        ram := ((s.bus.ram.write (256 + s.cpu.sp.toNat) (hiByte ret)).write (256 + (s.cpu.sp - 1).toNat)
          (loByte ret)).write (256 + (s.cpu.sp - 2).toNat) (pushImage s.cpu.p brk) } } := by
  have e : s.cpu.sp - 2 - 1 = s.cpu.sp - 3 := by bv_omega
  have e2 : s.cpu.sp - 1 - 1 = s.cpu.sp - 2 := by bv_omega
  simp only [enterInterrupt, push16, push_eq, read16_prg h h2, State.setFlag, State.setP, State.setPc, State.setSp, State.writeRam, e2, e]
  rfl

end Sys2Proof.Machine
end

