-- ==== Sys2Proof/Laws/Exec.lean ====
section
/-! SUPPORT. What running an instruction can do, by shape: it completes, it keeps the cartridge, the master counter and the run
state, it never lowers the cycle count, and it keeps the invariant. -/

namespace Sys2Proof.Machine

/-- What no instruction's own rule changes: the cartridge, the master counter, the run state; and its cycle count only grows. -/
structure Kept (s u : State) : Prop where
  prg : u.bus.prg = s.bus.prg
  prgSize : u.bus.prgSize = s.bus.prgSize
  cycles : u.bus.cycles = s.bus.cycles
  chr : u.ppu.chr = s.ppu.chr
  mirroring : u.ppu.mirroring = s.ppu.mirroring
  run : u.cpu.run = s.cpu.run
  cyc : s.cpu.cyc ≤ u.cpu.cyc

theorem Kept.refl (s : State) : Kept s s := ⟨rfl, rfl, rfl, rfl, rfl, rfl, Nat.le_refl _⟩

theorem Kept.trans {s t u : State} (h : Kept s t) (k : Kept t u) : Kept s u :=
  ⟨k.prg.trans h.prg, k.prgSize.trans h.prgSize, k.cycles.trans h.cycles, k.chr.trans h.chr, k.mirroring.trans h.mirroring,
   k.run.trans h.run, Nat.le_trans h.cyc k.cyc⟩

/-- Writing registers keeps it, when run and the cycle count stand. -/
theorem Kept.of_eq {s t u : State} (h : Kept s t) (hb : u.bus = t.bus) (hq : u.ppu = t.ppu) (hr : u.cpu.run = t.cpu.run)
    (hc : t.cpu.cyc ≤ u.cpu.cyc) : Kept s u :=
  h.trans ⟨by rw [hb], by rw [hb], by rw [hb], by rw [hq], by rw [hq], hr, hc⟩

theorem Kept.read {s t : State} (h : Kept s t) (a : Word) : Kept s (memRead a t).2 :=
  h.trans ⟨by rw [memRead_bus], by rw [memRead_bus], by rw [memRead_bus], (memRead_ppu a t).chr, (memRead_ppu a t).mirroring,
    by rw [memRead_cpu], by rw [memRead_cpu]⟩

theorem Kept.write {s t : State} (h : Kept s t) (a : Word) (v : Byte) : Kept s (memWrite a v t) := by
  refine h.trans ⟨?_, ?_, ?_, (memWrite_chr a v t).1, (memWrite_chr a v t).2, by rw [memWrite_cpu], by rw [memWrite_cpu]; simp⟩ <;>
    (rw [memWrite_bus]; split <;> rfl)

theorem Kept.push {s t : State} (h : Kept s t) (v : Byte) : Kept s (Machine.push v t) := by
  rw [push_eq]
  exact h.trans ⟨rfl, rfl, rfl, rfl, rfl, rfl, Nat.le_refl _⟩

theorem Kept.pull {s t : State} (h : Kept s t) : Kept s (Machine.pull t).2 := by
  rw [pull_eq]
  exact h.of_eq rfl rfl rfl (Nat.le_refl _)

/-- A legal state in the middle of an instruction that began in `s`: kept, and legal where `s` is. -/
structure Reached (s u : State) : Prop where
  kept : Kept s u
  legal : MidLegal s → MidLegal u

theorem Reached.refl (s : State) : Reached s s := ⟨Kept.refl s, fun h => h⟩

/-- Writing registers other than P. -/
theorem Reached.regs {s t u : State} (h : Reached s t) (hp : u.cpu.p = t.cpu.p) (hq : u.ppu = t.ppu) (hb : u.bus = t.bus)
    (hd : u.pad = t.pad) (hr : u.cpu.run = t.cpu.run) (hc : t.cpu.cyc ≤ u.cpu.cyc) : Reached s u :=
  ⟨h.kept.of_eq hb hq hr hc, fun m => (h.legal m).of_eq hp hq hb hd⟩

theorem Reached.read {s t : State} (h : Reached s t) (a : Word) : Reached s (memRead a t).2 :=
  ⟨h.kept.read a, fun m => (h.legal m).read a⟩

theorem Reached.write {s t : State} (h : Reached s t) (a : Word) (v : Byte) : Reached s (memWrite a v t) :=
  ⟨h.kept.write a v, fun m => (h.legal m).write a v⟩

theorem Reached.push {s t : State} (h : Reached s t) (v : Byte) : Reached s (Machine.push v t) :=
  ⟨h.kept.push v, fun m => (h.legal m).push v⟩

theorem Reached.pull {s t : State} (h : Reached s t) : Reached s (Machine.pull t).2 :=
  ⟨h.kept.pull, fun m => (h.legal m).pull⟩

theorem Reached.setA {s t : State} (h : Reached s t) (v : Byte) : Reached s (t.setA v) := h.regs rfl rfl rfl rfl rfl (Nat.le_refl _)
theorem Reached.setX {s t : State} (h : Reached s t) (v : Byte) : Reached s (t.setX v) := h.regs rfl rfl rfl rfl rfl (Nat.le_refl _)
theorem Reached.setY {s t : State} (h : Reached s t) (v : Byte) : Reached s (t.setY v) := h.regs rfl rfl rfl rfl rfl (Nat.le_refl _)
theorem Reached.setSp {s t : State} (h : Reached s t) (v : Byte) : Reached s (t.setSp v) := h.regs rfl rfl rfl rfl rfl (Nat.le_refl _)
theorem Reached.setPc {s t : State} (h : Reached s t) (w : Word) : Reached s (t.setPc w) := h.regs rfl rfl rfl rfl rfl (Nat.le_refl _)
theorem Reached.charge {s t : State} (h : Reached s t) (n : Nat) : Reached s (t.charge n) :=
  h.regs rfl rfl rfl rfl rfl (Nat.le_add_right _ _)
theorem Reached.advance {s t : State} (h : Reached s t) (n : Nat) : Reached s (t.advance n) := h.setPc _

/-- Writing P with U = 1 and B = 0. -/
theorem Reached.setP {s t : State} (h : Reached s t) {p : Byte} (hp : MidLegal t → MidLegal (t.setP p)) : Reached s (t.setP p) :=
  ⟨h.kept.of_eq rfl rfl rfl (Nat.le_refl _), fun m => hp (h.legal m)⟩

theorem Reached.setFlag {s t : State} (h : Reached s t) {f : Flag} (b : Bool) (hu : f ≠ .u) (hb : f ≠ .b) : Reached s (t.setFlag f b) :=
  h.setP fun m => m.setFlag b hu hb

theorem Reached.setZN {s t : State} (h : Reached s t) (v : Byte) : Reached s (t.setZN v) := h.setP fun m => m.setZN v

theorem Reached.add8 {s t : State} (h : Reached s t) (m : Byte) : Reached s (t.add8 m) :=
  ⟨h.kept.of_eq rfl rfl rfl (Nat.le_refl _), fun l => (h.legal l).add8 m⟩

theorem Reached.compare {s t : State} (h : Reached s t) (r m : Byte) : Reached s (t.compare r m) := h.setP fun l => l.compare r m

theorem Reached.shiftFlags {s t : State} (h : Reached s t) (r : Shifted) : Reached s (t.setP (Machine.shiftFlags t.cpu.p r)) :=
  h.setP fun l => l.shiftFlags r

/-- The answer of a meaning that completes. -/
def Completes (s : State) (a : Answer) : Prop := ∃ u, a = .next u ∧ Reached s u

theorem completes_next {s u : State} (h : Reached s u) : Completes s (.next u) := ⟨u, rfl, h⟩

theorem reached_resolve {o : Operand} {s : State} {r : Resolved} (h : resolve o s = some r) : Reached s r.st := by
  cases o <;> simp only [resolve, Option.some.injEq, reduceCtorEq] at h <;> subst h <;>
    first | exact Reached.refl s | (simp only [direct, indexed, read16ZP_eq]; exact Reached.refl s) | exact ((Reached.refl s).read _).read _

theorem completes_readThen {o : Operand} {s : State} {k : Byte → State → State}
    (hm : isMemoryMode o.mode = true ∨ o.mode = .imm ∨ o.mode = .acc) (hk : ∀ m t, Reached s t → Reached s (k m t)) :
    Completes s (readThen o s k) := by
  have key : ∀ m t, readOperand o s = some (m, t) → Reached s t → Completes s (readThen o s k) := by
    intro m t h ht
    unfold readThen
    rw [h]
    exact completes_next ((hk m t ht).advance _)
  rcases hm with hm | hm | hm
  · obtain ⟨r, hr, _⟩ := resolve_memory hm s
    refine key _ _ (readOperand_of_resolve hr) (Reached.read ?_ _)
    cases r.crossed
    · exact reached_resolve hr
    · exact (reached_resolve hr).charge 1
  · cases o <;> simp only [Operand.mode, reduceCtorEq] at hm
    exact key _ _ rfl (Reached.refl s)
  · cases o <;> simp only [Operand.mode, reduceCtorEq] at hm
    exact key _ _ rfl (Reached.refl s)

theorem completes_storeThen {o : Operand} {s : State} {v : Byte} (hm : isMemoryMode o.mode = true) : Completes s (storeThen o s v) := by
  obtain ⟨r, hr, _⟩ := resolve_memory hm s
  unfold storeThen
  rw [hr]
  exact completes_next (((reached_resolve hr).write _ _).advance _)

theorem completes_modifyThen {o : Operand} {s : State} {f : Byte → Byte → Byte} {k : Byte → State → State}
    (hm : isMemoryMode o.mode = true) (hk : ∀ m t, Reached s t → Reached s (k m t)) : Completes s (modifyThen o s f k) := by
  obtain ⟨r, hr, _⟩ := resolve_memory hm s
  unfold modifyThen
  rw [hr]
  exact completes_next ((hk _ _ (((reached_resolve hr).read _).write _ _)).advance _)

theorem completes_shiftThen {o : Operand} {s : State} {f : Byte → Bool → Shifted} (hm : isMemoryMode o.mode = true ∨ o.mode = .acc) :
    Completes s (shiftThen o s f) := by
  unfold shiftThen
  split
  · exact completes_next ((((Reached.refl s).setA _).shiftFlags _).advance 1)
  · rename_i hne
    refine completes_modifyThen (hm.resolve_right ?_) fun m t h => h.shiftFlags _
    cases o <;> simp_all [Operand.mode]

theorem reached_branchIf (taken : Bool) (off : Byte) (s : State) : Reached s (branchIf taken off s) := by
  unfold branchIf
  split
  · exact (((Reached.refl s).charge _).charge _).setPc _
  · exact (Reached.refl s).advance 2

theorem reached_storeHigh {s : State} {r : Resolved} (reg : Byte) (h : Reached s r.st) : Reached s (storeHigh r reg) := h.write _ _

theorem reached_enterInterrupt (ret : Word) (brk : Bool) (vec : Word) (s : State) : Reached s (enterInterrupt ret brk vec s) := by
  have h1 := ((Reached.refl s).push (hiByte ret)).push (loByte ret)
  have h2 := (h1.push (pushImage s.cpu.p brk)).setFlag (f := .i) true (by decide) (by decide)
  exact ((h2.read vec).read (vec + 1)).setPc _

theorem reached_returnFromInterrupt (s : State) : Reached s (returnFromInterrupt s) := by
  have h1 := (Reached.refl s).pull
  have h2 : Reached s ((pull s).2.setP (pulledStatus (pull s).1)) :=
    h1.setP fun m => m.setP (by rw [getFlag_pulledStatus]; simp) (by rw [getFlag_pulledStatus]; simp)
  exact (h2.pull.pull).setPc _

/-- A mode list all of whose modes give an operand value. -/
theorem readable_of_mem {m : Mode} {ms : List Mode} (h : ms.contains m = true)
    (hs : (ms.all fun m => isMemoryMode m || m == .imm || m == .acc) = true) : isMemoryMode m = true ∨ m = .imm ∨ m = .acc := by
  rw [List.all_eq_true] at hs
  have := hs m (by simpa using h)
  simpa [or_assoc] using this

/-- A mode list all of whose modes are memory modes or the accumulator. -/
theorem shiftable_of_mem {m : Mode} {ms : List Mode} (h : ms.contains m = true)
    (hs : (ms.all fun m => isMemoryMode m || m == .acc) = true) : isMemoryMode m = true ∨ m = .acc := by
  rw [List.all_eq_true] at hs
  have := hs m (by simpa using h)
  simpa using this

/-- A well-formed memory operand form. -/
theorem memoryMode_of_mem {m : Mode} {ms : List Mode} (h : ms.contains m = true) (hs : (ms.all isMemoryMode) = true) :
    isMemoryMode m = true := by
  rw [List.all_eq_true] at hs
  exact hs m (by simpa using h)

end Sys2Proof.Machine
end

