-- ==== Sys2Proof/Laws/ExecControl.lean ====
section
/-! SUPPORT. Control flow, stack, flag and unofficial instructions complete, one lemma a constructor. -/

namespace Sys2Proof.Machine

theorem completes_bpl (off : Byte) (s : State) : Completes s (execBpl off s) := by
  unfold execBpl
  exact completes_next (reached_branchIf _ _ _)

theorem completes_bmi (off : Byte) (s : State) : Completes s (execBmi off s) := by
  unfold execBmi
  exact completes_next (reached_branchIf _ _ _)

theorem completes_bvc (off : Byte) (s : State) : Completes s (execBvc off s) := by
  unfold execBvc
  exact completes_next (reached_branchIf _ _ _)

theorem completes_bvs (off : Byte) (s : State) : Completes s (execBvs off s) := by
  unfold execBvs
  exact completes_next (reached_branchIf _ _ _)

theorem completes_bcc (off : Byte) (s : State) : Completes s (execBcc off s) := by
  unfold execBcc
  exact completes_next (reached_branchIf _ _ _)

theorem completes_bcs (off : Byte) (s : State) : Completes s (execBcs off s) := by
  unfold execBcs
  exact completes_next (reached_branchIf _ _ _)

theorem completes_bne (off : Byte) (s : State) : Completes s (execBne off s) := by
  unfold execBne
  exact completes_next (reached_branchIf _ _ _)

theorem completes_beq (off : Byte) (s : State) : Completes s (execBeq off s) := by
  unfold execBeq
  exact completes_next (reached_branchIf _ _ _)

theorem completes_jmp (o : Operand) (s : State) (hw : (Instr.jmp o).wf = true) : Completes s (execJmp o s) := by
  unfold execJmp
  have : ∃ r, resolve o s = some r := by
    cases o <;> first | exact ⟨_, rfl⟩ | exact absurd hw Bool.false_ne_true
  obtain ⟨r, hr⟩ := this
  rw [hr]
  exact completes_next ((reached_resolve hr).setPc _)

theorem completes_jsr (w : Word) (s : State) : Completes s (execJsr w s) := by
  unfold execJsr
  have r0 := Reached.refl s
  exact completes_next (((r0.push _).push _).setPc _)

theorem completes_rts (s : State) : Completes s (execRts s) := by
  unfold execRts
  have r0 := Reached.refl s
  exact completes_next ((r0.pull.pull).setPc _)

theorem completes_brk (s : State) : Completes s (execBrk s) := by
  unfold execBrk
  exact completes_next (reached_enterInterrupt _ _ _ _)

theorem completes_rti (s : State) : Completes s (execRti s) := by
  unfold execRti
  exact completes_next (reached_returnFromInterrupt _)

theorem completes_pha (s : State) : Completes s (execPha s) := by
  unfold execPha
  have r0 := Reached.refl s
  exact completes_next ((r0.push _).advance 1)

theorem completes_pla (s : State) : Completes s (execPla s) := by
  unfold execPla
  have r0 := Reached.refl s
  exact completes_next (((r0.pull.setA _).setZN _).advance 1)

theorem completes_php (s : State) : Completes s (execPhp s) := by
  unfold execPhp
  have r0 := Reached.refl s
  exact completes_next ((r0.push _).advance 1)

theorem completes_plp (s : State) : Completes s (execPlp s) := by
  unfold execPlp
  have r0 := Reached.refl s
  exact completes_next ((r0.pull.setP fun m =>
    m.setP (by rw [getFlag_pulledStatus]; simp) (by rw [getFlag_pulledStatus]; simp)).advance 1)

theorem completes_clc (s : State) : Completes s (execClc s) := by
  unfold execClc
  have r0 := Reached.refl s
  exact completes_next ((r0.setFlag _ (by decide) (by decide)).advance 1)

theorem completes_sec (s : State) : Completes s (execSec s) := by
  unfold execSec
  have r0 := Reached.refl s
  exact completes_next ((r0.setFlag _ (by decide) (by decide)).advance 1)

theorem completes_cli (s : State) : Completes s (execCli s) := by
  unfold execCli
  have r0 := Reached.refl s
  exact completes_next ((r0.setFlag _ (by decide) (by decide)).advance 1)

theorem completes_sei (s : State) : Completes s (execSei s) := by
  unfold execSei
  have r0 := Reached.refl s
  exact completes_next ((r0.setFlag _ (by decide) (by decide)).advance 1)

theorem completes_clv (s : State) : Completes s (execClv s) := by
  unfold execClv
  have r0 := Reached.refl s
  exact completes_next ((r0.setFlag _ (by decide) (by decide)).advance 1)

theorem completes_cld (s : State) : Completes s (execCld s) := by
  unfold execCld
  have r0 := Reached.refl s
  exact completes_next ((r0.setFlag _ (by decide) (by decide)).advance 1)

theorem completes_sed (s : State) : Completes s (execSed s) := by
  unfold execSed
  have r0 := Reached.refl s
  exact completes_next ((r0.setFlag _ (by decide) (by decide)).advance 1)

theorem completes_nop (op : Byte) (o : Operand) (s : State) (hw : (Instr.nop op o).wf = true) : Completes s (execNop op o s) := by
  unfold execNop
  have r0 := Reached.refl s
  split
  · exact completes_next (r0.advance 1)
  · rename_i hne
    refine completes_readThen ?_ fun m t h => h
    have key : ∀ q ∈ nopForms, q.2 = .impl ∨ q.2 = .imm ∨ isMemoryMode q.2 = true := by decide
    simp only [Instr.wf, List.contains_iff_mem] at hw
    rcases key _ hw with h | h | h
    · cases o <;> simp_all [Operand.mode]
    · exact Or.inr (Or.inl h)
    · exact Or.inl h

theorem completes_slo (o : Operand) (s : State) (hw : (Instr.slo o).wf = true) : Completes s (execSlo o s) := by
  unfold execSlo
  exact completes_modifyThen (memoryMode_of_mem hw rfl) fun m t h => ((h.setFlag _ (by decide) (by decide)).setA _).setZN _

theorem completes_rla (o : Operand) (s : State) (hw : (Instr.rla o).wf = true) : Completes s (execRla o s) := by
  unfold execRla
  exact completes_modifyThen (memoryMode_of_mem hw rfl) fun m t h => ((h.setFlag _ (by decide) (by decide)).setA _).setZN _

theorem completes_sre (o : Operand) (s : State) (hw : (Instr.sre o).wf = true) : Completes s (execSre o s) := by
  unfold execSre
  exact completes_modifyThen (memoryMode_of_mem hw rfl) fun m t h => ((h.setFlag _ (by decide) (by decide)).setA _).setZN _

theorem completes_rra (o : Operand) (s : State) (hw : (Instr.rra o).wf = true) : Completes s (execRra o s) := by
  unfold execRra
  exact completes_modifyThen (memoryMode_of_mem hw rfl) fun m t h => (h.setFlag _ (by decide) (by decide)).add8 _

theorem completes_dcp (o : Operand) (s : State) (hw : (Instr.dcp o).wf = true) : Completes s (execDcp o s) := by
  unfold execDcp
  exact completes_modifyThen (memoryMode_of_mem hw rfl) fun m t h => h.compare _ _

theorem completes_isb (o : Operand) (s : State) (hw : (Instr.isb o).wf = true) : Completes s (execIsb o s) := by
  unfold execIsb
  exact completes_modifyThen (memoryMode_of_mem hw rfl) fun m t h => h.add8 _

theorem completes_lax (o : Operand) (s : State) (hw : (Instr.lax o).wf = true) : Completes s (execLax o s) := by
  unfold execLax
  exact completes_readThen (Or.inl (memoryMode_of_mem hw rfl)) fun m t h => ((h.setA m).setX m).setZN m

theorem completes_anc (op : Byte) (b : Byte) (s : State) : Completes s (execAnc op b s) := by
  unfold execAnc
  have r0 := Reached.refl s
  exact completes_next ((((r0.setA _).setZN _).setFlag _ (by decide) (by decide)).advance 2)

theorem completes_alr (b : Byte) (s : State) : Completes s (execAlr b s) := by
  unfold execAlr
  have r0 := Reached.refl s
  exact completes_next (((r0.setA _).shiftFlags _).advance 2)

theorem completes_arr (b : Byte) (s : State) : Completes s (execArr b s) := by
  unfold execArr
  have r0 := Reached.refl s
  exact completes_next (((((r0.setA _).setZN _).setFlag _ (by decide) (by decide)).setFlag _ (by decide) (by decide)).advance 2)

theorem completes_sbx (b : Byte) (s : State) : Completes s (execSbx b s) := by
  unfold execSbx
  have r0 := Reached.refl s
  exact completes_next (((r0.setX _).compare _ _).advance 2)

theorem completes_ane (b : Byte) (s : State) : Completes s (execAne b s) := by
  unfold execAne
  have r0 := Reached.refl s
  exact completes_next (((r0.setA _).setZN _).advance 2)

theorem completes_lxa (b : Byte) (s : State) : Completes s (execLxa b s) := by
  unfold execLxa
  have r0 := Reached.refl s
  exact completes_next ((((r0.setA _).setX _).setZN _).advance 2)

theorem completes_usbc (b : Byte) (s : State) : Completes s (execUsbc b s) := by
  unfold execUsbc
  have r0 := Reached.refl s
  exact completes_next ((r0.add8 _).advance 2)

theorem completes_las (w : Word) (s : State) : Completes s (execLas w s) := by
  unfold execLas
  exact completes_readThen (Or.inl rfl) fun m t h => (((h.setA _).setX _).setSp _).setZN _

theorem completes_tas (w : Word) (s : State) : Completes s (execTas w s) := by
  unfold execTas
  have r0 := Reached.refl s
  exact completes_next ((reached_storeHigh _ (r0.setSp _)).advance 3)

theorem completes_sha (o : Operand) (s : State) (hw : (Instr.sha o).wf = true) : Completes s (execSha o s) := by
  unfold execSha
  obtain ⟨r, hr, _⟩ := resolve_memory (memoryMode_of_mem hw rfl) s
  rw [hr]
  exact completes_next ((reached_storeHigh _ (reached_resolve hr)).advance _)

theorem completes_shx (w : Word) (s : State) : Completes s (execShx w s) := by
  unfold execShx
  have r0 := Reached.refl s
  exact completes_next ((reached_storeHigh _ r0).advance 3)

theorem completes_shy (w : Word) (s : State) : Completes s (execShy w s) := by
  unfold execShy
  have r0 := Reached.refl s
  exact completes_next ((reached_storeHigh _ r0).advance 3)

end Sys2Proof.Machine
end

