-- ==== Sys2Proof/Laws/ExecData.lean ====
section
/-! SUPPORT. Loads, stores, transfers, arithmetic and shifts complete, one lemma a constructor. -/

namespace Sys2Proof.Machine

theorem completes_lda (o : Operand) (s : State) (hw : (Instr.lda o).wf = true) : Completes s (execLda o s) := by
  unfold execLda
  exact completes_readThen (readable_of_mem hw rfl) fun m t h => (h.setA m).setZN m

theorem completes_ldx (o : Operand) (s : State) (hw : (Instr.ldx o).wf = true) : Completes s (execLdx o s) := by
  unfold execLdx
  exact completes_readThen (readable_of_mem hw rfl) fun m t h => (h.setX m).setZN m

theorem completes_ldy (o : Operand) (s : State) (hw : (Instr.ldy o).wf = true) : Completes s (execLdy o s) := by
  unfold execLdy
  exact completes_readThen (readable_of_mem hw rfl) fun m t h => (h.setY m).setZN m

theorem completes_sta (o : Operand) (s : State) (hw : (Instr.sta o).wf = true) : Completes s (execSta o s) := by
  unfold execSta
  exact completes_storeThen (memoryMode_of_mem hw rfl)

theorem completes_stx (o : Operand) (s : State) (hw : (Instr.stx o).wf = true) : Completes s (execStx o s) := by
  unfold execStx
  exact completes_storeThen (memoryMode_of_mem hw rfl)

theorem completes_sty (o : Operand) (s : State) (hw : (Instr.sty o).wf = true) : Completes s (execSty o s) := by
  unfold execSty
  exact completes_storeThen (memoryMode_of_mem hw rfl)

theorem completes_sax (o : Operand) (s : State) (hw : (Instr.sax o).wf = true) : Completes s (execSax o s) := by
  unfold execSax
  exact completes_storeThen (memoryMode_of_mem hw rfl)

theorem completes_tax (s : State) : Completes s (execTax s) := by
  unfold execTax
  have r0 := Reached.refl s
  exact completes_next (((r0.setX _).setZN _).advance 1)

theorem completes_tay (s : State) : Completes s (execTay s) := by
  unfold execTay
  have r0 := Reached.refl s
  exact completes_next (((r0.setY _).setZN _).advance 1)

theorem completes_txa (s : State) : Completes s (execTxa s) := by
  unfold execTxa
  have r0 := Reached.refl s
  exact completes_next (((r0.setA _).setZN _).advance 1)

theorem completes_tya (s : State) : Completes s (execTya s) := by
  unfold execTya
  have r0 := Reached.refl s
  exact completes_next (((r0.setA _).setZN _).advance 1)

theorem completes_tsx (s : State) : Completes s (execTsx s) := by
  unfold execTsx
  have r0 := Reached.refl s
  exact completes_next (((r0.setX _).setZN _).advance 1)

theorem completes_txs (s : State) : Completes s (execTxs s) := by
  unfold execTxs
  have r0 := Reached.refl s
  exact completes_next ((r0.setSp _).advance 1)

theorem completes_adc (o : Operand) (s : State) (hw : (Instr.adc o).wf = true) : Completes s (execAdc o s) := by
  unfold execAdc
  exact completes_readThen (readable_of_mem hw rfl) fun m t h => h.add8 m

theorem completes_sbc (o : Operand) (s : State) (hw : (Instr.sbc o).wf = true) : Completes s (execSbc o s) := by
  unfold execSbc
  exact completes_readThen (readable_of_mem hw rfl) fun m t h => h.add8 _

theorem completes_and (o : Operand) (s : State) (hw : (Instr.and o).wf = true) : Completes s (execAnd o s) := by
  unfold execAnd
  exact completes_readThen (readable_of_mem hw rfl) fun m t h => (h.setA _).setZN _

theorem completes_ora (o : Operand) (s : State) (hw : (Instr.ora o).wf = true) : Completes s (execOra o s) := by
  unfold execOra
  exact completes_readThen (readable_of_mem hw rfl) fun m t h => (h.setA _).setZN _

theorem completes_eor (o : Operand) (s : State) (hw : (Instr.eor o).wf = true) : Completes s (execEor o s) := by
  unfold execEor
  exact completes_readThen (readable_of_mem hw rfl) fun m t h => (h.setA _).setZN _

theorem completes_bit (o : Operand) (s : State) (hw : (Instr.bit o).wf = true) : Completes s (execBit o s) := by
  unfold execBit
  exact completes_readThen (Or.inl (memoryMode_of_mem hw rfl)) fun m t h =>
    ((h.setFlag _ (by decide) (by decide)).setFlag _ (by decide) (by decide)).setFlag _ (by decide) (by decide)

theorem completes_cmp (o : Operand) (s : State) (hw : (Instr.cmp o).wf = true) : Completes s (execCmp o s) := by
  unfold execCmp
  exact completes_readThen (readable_of_mem hw rfl) fun m t h => h.compare _ _

theorem completes_cpx (o : Operand) (s : State) (hw : (Instr.cpx o).wf = true) : Completes s (execCpx o s) := by
  unfold execCpx
  exact completes_readThen (readable_of_mem hw rfl) fun m t h => h.compare _ _

theorem completes_cpy (o : Operand) (s : State) (hw : (Instr.cpy o).wf = true) : Completes s (execCpy o s) := by
  unfold execCpy
  exact completes_readThen (readable_of_mem hw rfl) fun m t h => h.compare _ _

theorem completes_inc (o : Operand) (s : State) (hw : (Instr.inc o).wf = true) : Completes s (execInc o s) := by
  unfold execInc
  exact completes_modifyThen (memoryMode_of_mem hw rfl) fun m t h => h.setZN _

theorem completes_dec (o : Operand) (s : State) (hw : (Instr.dec o).wf = true) : Completes s (execDec o s) := by
  unfold execDec
  exact completes_modifyThen (memoryMode_of_mem hw rfl) fun m t h => h.setZN _

theorem completes_inx (s : State) : Completes s (execInx s) := by
  unfold execInx
  have r0 := Reached.refl s
  exact completes_next (((r0.setX _).setZN _).advance 1)

theorem completes_iny (s : State) : Completes s (execIny s) := by
  unfold execIny
  have r0 := Reached.refl s
  exact completes_next (((r0.setY _).setZN _).advance 1)

theorem completes_dex (s : State) : Completes s (execDex s) := by
  unfold execDex
  have r0 := Reached.refl s
  exact completes_next (((r0.setX _).setZN _).advance 1)

theorem completes_dey (s : State) : Completes s (execDey s) := by
  unfold execDey
  have r0 := Reached.refl s
  exact completes_next (((r0.setY _).setZN _).advance 1)

theorem completes_asl (o : Operand) (s : State) (hw : (Instr.asl o).wf = true) : Completes s (execAsl o s) := by
  unfold execAsl
  exact completes_shiftThen (shiftable_of_mem hw rfl)

theorem completes_lsr (o : Operand) (s : State) (hw : (Instr.lsr o).wf = true) : Completes s (execLsr o s) := by
  unfold execLsr
  exact completes_shiftThen (shiftable_of_mem hw rfl)

theorem completes_rol (o : Operand) (s : State) (hw : (Instr.rol o).wf = true) : Completes s (execRol o s) := by
  unfold execRol
  exact completes_shiftThen (shiftable_of_mem hw rfl)

theorem completes_ror (o : Operand) (s : State) (hw : (Instr.ror o).wf = true) : Completes s (execRor o s) := by
  unfold execRor
  exact completes_shiftThen (shiftable_of_mem hw rfl)

end Sys2Proof.Machine
end

