-- ==== Sys2Proof/Laws/ExecAll.lean ====
section
/-! SUPPORT. Every well-formed instruction but JAM completes. -/

namespace Sys2Proof.Machine

/-- Every well-formed instruction but JAM completes, from every state. -/
theorem exec_completes (i : Instr) (s : State) (hw : i.wf = true) (hj : ∀ op, i ≠ .jam op) : Completes s (exec i s) := by
  cases i
  case lda o => exact completes_lda o s hw
  case ldx o => exact completes_ldx o s hw
  case ldy o => exact completes_ldy o s hw
  case sta o => exact completes_sta o s hw
  case stx o => exact completes_stx o s hw
  case sty o => exact completes_sty o s hw
  case sax o => exact completes_sax o s hw
  case tax => exact completes_tax s
  case tay => exact completes_tay s
  case txa => exact completes_txa s
  case tya => exact completes_tya s
  case tsx => exact completes_tsx s
  case txs => exact completes_txs s
  case adc o => exact completes_adc o s hw
  case sbc o => exact completes_sbc o s hw
  case and o => exact completes_and o s hw
  case ora o => exact completes_ora o s hw
  case eor o => exact completes_eor o s hw
  case bit o => exact completes_bit o s hw
  case cmp o => exact completes_cmp o s hw
  case cpx o => exact completes_cpx o s hw
  case cpy o => exact completes_cpy o s hw
  case inc o => exact completes_inc o s hw
  case dec o => exact completes_dec o s hw
  case inx => exact completes_inx s
  case iny => exact completes_iny s
  case dex => exact completes_dex s
  case dey => exact completes_dey s
  case asl o => exact completes_asl o s hw
  case lsr o => exact completes_lsr o s hw
  case rol o => exact completes_rol o s hw
  case ror o => exact completes_ror o s hw
  case bpl off => exact completes_bpl off s
  case bmi off => exact completes_bmi off s
  case bvc off => exact completes_bvc off s
  case bvs off => exact completes_bvs off s
  case bcc off => exact completes_bcc off s
  case bcs off => exact completes_bcs off s
  case bne off => exact completes_bne off s
  case beq off => exact completes_beq off s
  case jmp o => exact completes_jmp o s hw
  case jsr w => exact completes_jsr w s
  case rts => exact completes_rts s
  case brk => exact completes_brk s
  case rti => exact completes_rti s
  case pha => exact completes_pha s
  case pla => exact completes_pla s
  case php => exact completes_php s
  case plp => exact completes_plp s
  case clc => exact completes_clc s
  case sec => exact completes_sec s
  case cli => exact completes_cli s
  case sei => exact completes_sei s
  case clv => exact completes_clv s
  case cld => exact completes_cld s
  case sed => exact completes_sed s
  case nop op o => exact completes_nop op o s hw
  case slo o => exact completes_slo o s hw
  case rla o => exact completes_rla o s hw
  case sre o => exact completes_sre o s hw
  case rra o => exact completes_rra o s hw
  case dcp o => exact completes_dcp o s hw
  case isb o => exact completes_isb o s hw
  case lax o => exact completes_lax o s hw
  case anc op b => exact completes_anc op b s
  case alr b => exact completes_alr b s
  case arr b => exact completes_arr b s
  case sbx b => exact completes_sbx b s
  case ane b => exact completes_ane b s
  case lxa b => exact completes_lxa b s
  case usbc b => exact completes_usbc b s
  case las w => exact completes_las w s
  case tas w => exact completes_tas w s
  case sha o => exact completes_sha o s hw
  case shx w => exact completes_shx w s
  case shy w => exact completes_shy w s
  case jam op => exact absurd rfl (hj op)

end Sys2Proof.Machine
end

