-- ==== Sys2Proof/Laws/Fetch.lean ====
section
/-! SUPPORT. The fetch: every opcode byte decodes, to a well-formed instruction; JAM comes from the twelve JAM bytes alone; and what the
reads of a fetch leave alone. -/

namespace Sys2Proof.Machine

/-- One operand of each mode. -/
def zeroOperand : Mode → Operand
  | .impl => .impl
  | .acc => .acc
  | .imm => .imm 0x00
  | .zp => .zp 0x00
  | .zpx => .zpx 0x00
  | .zpy => .zpy 0x00
  | .abs => .abs 0x0000
  | .absx => .absx 0x0000
  | .absy => .absy 0x0000
  | .ind => .ind 0x0000
  | .indx => .indx 0x00
  | .indy => .indy 0x00
  | .rel => .rel 0x00

/-- Is the instruction well-formed, of the opcode `op`, and no JAM unless its byte is one? -/
def goodInstr (op : Byte) (i : Instr) : Bool :=
  i.wf && (i.opcode == some op) && match i with
    | .jam b => b == op
    | _ => true

/-- Whether a row assembles to a good instruction depends on its operand's mode alone. -/
theorem assemble_mode (op : Byte) (n : Mnemonic) (o : Operand) :
    (assemble op n o).any (goodInstr op) = (assemble op n (zeroOperand o.mode)).any (goodInstr op) := by
  cases n <;> cases o <;> rfl

/-- The 256 rows assemble, and ask for the bytes their mode reads (30 R163). -/
theorem rows_assemble : ∀ op : Byte, (descriptor op).any (fun d =>
    (assemble op d.mnemonic (zeroOperand d.mode)).any (goodInstr op) && (fetchLength op == d.mode.length)) = true := by
  decide +kernel

/-- As many bytes as a mode reads give its operand. -/
theorem operandOf_length (m : Mode) (bs : List Byte) (h : bs.length + 1 = m.length) :
    ∃ o, operandOf m bs = some (o, []) ∧ o.mode = m := by
  rcases bs with _ | ⟨b1, _ | ⟨b2, _ | ⟨b3, bs⟩⟩⟩ <;> cases m <;> simp [Mode.length] at h <;> exact ⟨_, rfl, rfl⟩

/-- The bytes a fetch reads decode, to a well-formed instruction of the opcode fetched. -/
theorem decode_fetched (op : Byte) (bs : List Byte) (h : bs.length + 1 = fetchLength op) :
    ∃ i rest, decode (op :: bs) = .ok i rest ∧ i.wf = true ∧ i.opcode = some op ∧ ∀ b, i = .jam b → b = op := by
  have hr := rows_assemble op
  rw [Option.any_eq_true] at hr
  obtain ⟨d, hd, hg⟩ := hr
  rw [Bool.and_eq_true, beq_iff_eq] at hg
  obtain ⟨o, ho, hm⟩ := operandOf_length d.mode bs (by rw [h, hg.2])
  have ha := assemble_mode op d.mnemonic o
  rw [hm, hg.1, Option.any_eq_true] at ha
  obtain ⟨i, hi, hw⟩ := ha
  refine ⟨i, (op :: bs).drop d.length, ?_, ?_⟩
  · simp only [decode, hd, ho, hi]
  · unfold goodInstr at hw
    rw [Bool.and_eq_true, Bool.and_eq_true] at hw
    refine ⟨hw.1.1, by simpa using hw.1.2, ?_⟩
    rintro b rfl
    simpa using hw.2

theorem readBytes_length : ∀ (n : Nat) (a : Word) (s : State), (readBytes n a s).1.length = n
  | 0, _, _ => rfl
  | n + 1, a, s => by simp only [readBytes, List.length_cons, readBytes_length n]

theorem Reached.readBytes {s : State} : ∀ (n : Nat) (a : Word) {t : State}, Reached s t → Reached s (Machine.readBytes n a t).2
  | 0, _, _, h => h
  | n + 1, a, _, h => Reached.readBytes n (a + 1) (h.read a)

theorem readBytes_cpu : ∀ (n : Nat) (a : Word) (s : State), (readBytes n a s).2.cpu = s.cpu
  | 0, _, _ => rfl
  | n + 1, a, s => (readBytes_cpu n (a + 1) _).trans (memRead_cpu a s)

theorem fetchLength_pos : ∀ op : Byte, 1 ≤ fetchLength op := by decide +kernel

/-- Every opcode but JAM's costs at least 2 cycles before its penalties (30 R158). -/
theorem two_le_baseCycles : ∀ op : Byte, 2 ≤ baseCycles op := by decide +kernel

/-- What a fetch gives: the byte at PC, an instruction of it, and the state after the reads, its cycle count the base cost. -/
theorem fetch_spec (s : State) :
    (fetch s).op = (memRead s.cpu.pc s).1 ∧
    (∃ i rest, (fetch s).decoded = .ok i rest ∧ i.wf = true ∧ i.opcode = some (fetch s).op ∧ ∀ b, i = .jam b → b = (fetch s).op) ∧
    (fetch s).st.cpu = { s.cpu with cyc := baseCycles (fetch s).op } ∧
    Reached (s.setCyc 0) (fetch s).st := by
  have hpos := fetchLength_pos (memRead s.cpu.pc s).1
  refine ⟨rfl, ?_, ?_, ?_⟩
  · exact decode_fetched _ _ (by rw [readBytes_length]; omega)
  · simp only [fetch, State.setCyc, readBytes_cpu, memRead_cpu]
  · have h := ((Reached.refl s).read s.cpu.pc).readBytes (fetchLength (memRead s.cpu.pc s).1 - 1) (s.cpu.pc + 1)
    exact ⟨⟨h.kept.prg, h.kept.prgSize, h.kept.cycles, h.kept.chr, h.kept.mirroring, h.kept.run, Nat.zero_le _⟩,
      fun m => (h.legal (m.of_eq rfl rfl rfl rfl)).of_eq rfl rfl rfl rfl⟩

end Sys2Proof.Machine
end

