-- ==== Sys2Proof/Laws/PerInstr.lean ====
section
/-! SUPPORT. Facts of every instruction as syntax, one lemma a constructor: a well-formed instruction's encoding has as many bytes as the
opcode table gives its opcode. -/

namespace Sys2Proof.Laws

/-- The encoding of a well-formed instruction starts with its opcode, and its length is the descriptor's (30 R150, R151). -/
def EncodedLength.Statement (i : Instr) : Prop :=
  i.wf = true → ∃ op d, i.opcode = some op ∧ descriptor op = some d ∧ (encode i).length = d.length

/-- A form whose opcode list is searched: by cases on the mode. -/
theorem EncodedLength.of_operand {c : Operand → Instr} (hb : ∀ o, (c o).operandBytes = o.bytes)
    (h : ∀ o, (c o).wf = true → ∃ op d, (c o).opcode = some op ∧ descriptor op = some d ∧ o.bytes.length + 1 = d.length) (o : Operand) :
    EncodedLength.Statement (c o) := by
  intro hw
  obtain ⟨op, d, h1, h2, h3⟩ := h o hw
  refine ⟨op, d, h1, h2, ?_⟩
  simp only [encode, h1, List.length_cons, hb]
  exact h3

theorem EncodedLength.lda (o : Operand) : EncodedLength.Statement (.lda o) :=
  EncodedLength.of_operand (c := .lda) (fun _ => rfl)
    (fun o h => by cases o <;> first | exact ⟨_, _, rfl, rfl, rfl⟩ | exact absurd h Bool.false_ne_true) o

theorem EncodedLength.ldx (o : Operand) : EncodedLength.Statement (.ldx o) :=
  EncodedLength.of_operand (c := .ldx) (fun _ => rfl)
    (fun o h => by cases o <;> first | exact ⟨_, _, rfl, rfl, rfl⟩ | exact absurd h Bool.false_ne_true) o

theorem EncodedLength.ldy (o : Operand) : EncodedLength.Statement (.ldy o) :=
  EncodedLength.of_operand (c := .ldy) (fun _ => rfl)
    (fun o h => by cases o <;> first | exact ⟨_, _, rfl, rfl, rfl⟩ | exact absurd h Bool.false_ne_true) o

theorem EncodedLength.sta (o : Operand) : EncodedLength.Statement (.sta o) :=
  EncodedLength.of_operand (c := .sta) (fun _ => rfl)
    (fun o h => by cases o <;> first | exact ⟨_, _, rfl, rfl, rfl⟩ | exact absurd h Bool.false_ne_true) o

theorem EncodedLength.stx (o : Operand) : EncodedLength.Statement (.stx o) :=
  EncodedLength.of_operand (c := .stx) (fun _ => rfl)
    (fun o h => by cases o <;> first | exact ⟨_, _, rfl, rfl, rfl⟩ | exact absurd h Bool.false_ne_true) o

theorem EncodedLength.sty (o : Operand) : EncodedLength.Statement (.sty o) :=
  EncodedLength.of_operand (c := .sty) (fun _ => rfl)
    (fun o h => by cases o <;> first | exact ⟨_, _, rfl, rfl, rfl⟩ | exact absurd h Bool.false_ne_true) o

theorem EncodedLength.tax : EncodedLength.Statement .tax :=
  fun _ => ⟨_, _, rfl, rfl, rfl⟩

theorem EncodedLength.tay : EncodedLength.Statement .tay :=
  fun _ => ⟨_, _, rfl, rfl, rfl⟩

theorem EncodedLength.txa : EncodedLength.Statement .txa :=
  fun _ => ⟨_, _, rfl, rfl, rfl⟩

theorem EncodedLength.tya : EncodedLength.Statement .tya :=
  fun _ => ⟨_, _, rfl, rfl, rfl⟩

theorem EncodedLength.tsx : EncodedLength.Statement .tsx :=
  fun _ => ⟨_, _, rfl, rfl, rfl⟩

theorem EncodedLength.txs : EncodedLength.Statement .txs :=
  fun _ => ⟨_, _, rfl, rfl, rfl⟩

theorem EncodedLength.adc (o : Operand) : EncodedLength.Statement (.adc o) :=
  EncodedLength.of_operand (c := .adc) (fun _ => rfl)
    (fun o h => by cases o <;> first | exact ⟨_, _, rfl, rfl, rfl⟩ | exact absurd h Bool.false_ne_true) o

theorem EncodedLength.sbc (o : Operand) : EncodedLength.Statement (.sbc o) :=
  EncodedLength.of_operand (c := .sbc) (fun _ => rfl)
    (fun o h => by cases o <;> first | exact ⟨_, _, rfl, rfl, rfl⟩ | exact absurd h Bool.false_ne_true) o

theorem EncodedLength.and (o : Operand) : EncodedLength.Statement (.and o) :=
  EncodedLength.of_operand (c := .and) (fun _ => rfl)
    (fun o h => by cases o <;> first | exact ⟨_, _, rfl, rfl, rfl⟩ | exact absurd h Bool.false_ne_true) o

theorem EncodedLength.ora (o : Operand) : EncodedLength.Statement (.ora o) :=
  EncodedLength.of_operand (c := .ora) (fun _ => rfl)
    (fun o h => by cases o <;> first | exact ⟨_, _, rfl, rfl, rfl⟩ | exact absurd h Bool.false_ne_true) o

theorem EncodedLength.eor (o : Operand) : EncodedLength.Statement (.eor o) :=
  EncodedLength.of_operand (c := .eor) (fun _ => rfl)
    (fun o h => by cases o <;> first | exact ⟨_, _, rfl, rfl, rfl⟩ | exact absurd h Bool.false_ne_true) o

theorem EncodedLength.bit (o : Operand) : EncodedLength.Statement (.bit o) :=
  EncodedLength.of_operand (c := .bit) (fun _ => rfl)
    (fun o h => by cases o <;> first | exact ⟨_, _, rfl, rfl, rfl⟩ | exact absurd h Bool.false_ne_true) o

theorem EncodedLength.cmp (o : Operand) : EncodedLength.Statement (.cmp o) :=
  EncodedLength.of_operand (c := .cmp) (fun _ => rfl)
    (fun o h => by cases o <;> first | exact ⟨_, _, rfl, rfl, rfl⟩ | exact absurd h Bool.false_ne_true) o

theorem EncodedLength.cpx (o : Operand) : EncodedLength.Statement (.cpx o) :=
  EncodedLength.of_operand (c := .cpx) (fun _ => rfl)
    (fun o h => by cases o <;> first | exact ⟨_, _, rfl, rfl, rfl⟩ | exact absurd h Bool.false_ne_true) o

theorem EncodedLength.cpy (o : Operand) : EncodedLength.Statement (.cpy o) :=
  EncodedLength.of_operand (c := .cpy) (fun _ => rfl)
    (fun o h => by cases o <;> first | exact ⟨_, _, rfl, rfl, rfl⟩ | exact absurd h Bool.false_ne_true) o

theorem EncodedLength.inc (o : Operand) : EncodedLength.Statement (.inc o) :=
  EncodedLength.of_operand (c := .inc) (fun _ => rfl)
    (fun o h => by cases o <;> first | exact ⟨_, _, rfl, rfl, rfl⟩ | exact absurd h Bool.false_ne_true) o

theorem EncodedLength.dec (o : Operand) : EncodedLength.Statement (.dec o) :=
  EncodedLength.of_operand (c := .dec) (fun _ => rfl)
    (fun o h => by cases o <;> first | exact ⟨_, _, rfl, rfl, rfl⟩ | exact absurd h Bool.false_ne_true) o

theorem EncodedLength.inx : EncodedLength.Statement .inx :=
  fun _ => ⟨_, _, rfl, rfl, rfl⟩

theorem EncodedLength.iny : EncodedLength.Statement .iny :=
  fun _ => ⟨_, _, rfl, rfl, rfl⟩

theorem EncodedLength.dex : EncodedLength.Statement .dex :=
  fun _ => ⟨_, _, rfl, rfl, rfl⟩

theorem EncodedLength.dey : EncodedLength.Statement .dey :=
  fun _ => ⟨_, _, rfl, rfl, rfl⟩

theorem EncodedLength.asl (o : Operand) : EncodedLength.Statement (.asl o) :=
  EncodedLength.of_operand (c := .asl) (fun _ => rfl)
    (fun o h => by cases o <;> first | exact ⟨_, _, rfl, rfl, rfl⟩ | exact absurd h Bool.false_ne_true) o

theorem EncodedLength.lsr (o : Operand) : EncodedLength.Statement (.lsr o) :=
  EncodedLength.of_operand (c := .lsr) (fun _ => rfl)
    (fun o h => by cases o <;> first | exact ⟨_, _, rfl, rfl, rfl⟩ | exact absurd h Bool.false_ne_true) o

theorem EncodedLength.rol (o : Operand) : EncodedLength.Statement (.rol o) :=
  EncodedLength.of_operand (c := .rol) (fun _ => rfl)
    (fun o h => by cases o <;> first | exact ⟨_, _, rfl, rfl, rfl⟩ | exact absurd h Bool.false_ne_true) o

theorem EncodedLength.ror (o : Operand) : EncodedLength.Statement (.ror o) :=
  EncodedLength.of_operand (c := .ror) (fun _ => rfl)
    (fun o h => by cases o <;> first | exact ⟨_, _, rfl, rfl, rfl⟩ | exact absurd h Bool.false_ne_true) o

theorem EncodedLength.bpl (off : Byte) : EncodedLength.Statement (.bpl off) :=
  fun _ => ⟨_, _, rfl, rfl, rfl⟩

theorem EncodedLength.bmi (off : Byte) : EncodedLength.Statement (.bmi off) :=
  fun _ => ⟨_, _, rfl, rfl, rfl⟩

theorem EncodedLength.bvc (off : Byte) : EncodedLength.Statement (.bvc off) :=
  fun _ => ⟨_, _, rfl, rfl, rfl⟩

theorem EncodedLength.bvs (off : Byte) : EncodedLength.Statement (.bvs off) :=
  fun _ => ⟨_, _, rfl, rfl, rfl⟩

theorem EncodedLength.bcc (off : Byte) : EncodedLength.Statement (.bcc off) :=
  fun _ => ⟨_, _, rfl, rfl, rfl⟩

theorem EncodedLength.bcs (off : Byte) : EncodedLength.Statement (.bcs off) :=
  fun _ => ⟨_, _, rfl, rfl, rfl⟩

theorem EncodedLength.bne (off : Byte) : EncodedLength.Statement (.bne off) :=
  fun _ => ⟨_, _, rfl, rfl, rfl⟩

theorem EncodedLength.beq (off : Byte) : EncodedLength.Statement (.beq off) :=
  fun _ => ⟨_, _, rfl, rfl, rfl⟩

theorem EncodedLength.jmp (o : Operand) : EncodedLength.Statement (.jmp o) :=
  EncodedLength.of_operand (c := .jmp) (fun _ => rfl)
    (fun o h => by cases o <;> first | exact ⟨_, _, rfl, rfl, rfl⟩ | exact absurd h Bool.false_ne_true) o

theorem EncodedLength.jsr (target : Word) : EncodedLength.Statement (.jsr target) :=
  fun _ => ⟨_, _, rfl, rfl, rfl⟩

theorem EncodedLength.rts : EncodedLength.Statement .rts :=
  fun _ => ⟨_, _, rfl, rfl, rfl⟩

theorem EncodedLength.brk : EncodedLength.Statement .brk :=
  fun _ => ⟨_, _, rfl, rfl, rfl⟩

theorem EncodedLength.rti : EncodedLength.Statement .rti :=
  fun _ => ⟨_, _, rfl, rfl, rfl⟩

theorem EncodedLength.pha : EncodedLength.Statement .pha :=
  fun _ => ⟨_, _, rfl, rfl, rfl⟩

theorem EncodedLength.pla : EncodedLength.Statement .pla :=
  fun _ => ⟨_, _, rfl, rfl, rfl⟩

theorem EncodedLength.php : EncodedLength.Statement .php :=
  fun _ => ⟨_, _, rfl, rfl, rfl⟩

theorem EncodedLength.plp : EncodedLength.Statement .plp :=
  fun _ => ⟨_, _, rfl, rfl, rfl⟩

theorem EncodedLength.clc : EncodedLength.Statement .clc :=
  fun _ => ⟨_, _, rfl, rfl, rfl⟩

theorem EncodedLength.sec : EncodedLength.Statement .sec :=
  fun _ => ⟨_, _, rfl, rfl, rfl⟩

theorem EncodedLength.cli : EncodedLength.Statement .cli :=
  fun _ => ⟨_, _, rfl, rfl, rfl⟩

theorem EncodedLength.sei : EncodedLength.Statement .sei :=
  fun _ => ⟨_, _, rfl, rfl, rfl⟩

theorem EncodedLength.clv : EncodedLength.Statement .clv :=
  fun _ => ⟨_, _, rfl, rfl, rfl⟩

theorem EncodedLength.cld : EncodedLength.Statement .cld :=
  fun _ => ⟨_, _, rfl, rfl, rfl⟩

theorem EncodedLength.sed : EncodedLength.Statement .sed :=
  fun _ => ⟨_, _, rfl, rfl, rfl⟩

theorem EncodedLength.nop (op : Byte) (o : Operand) : EncodedLength.Statement (.nop op o) := by
  intro hw
  have hop : (Instr.nop op o).opcode = some op := if_pos hw
  have key : ∀ x ∈ nopForms, ∃ d, descriptor x.1 = some d ∧ d.length = x.2.length := by decide
  obtain ⟨d, h1, h2⟩ := key (op, o.mode) (by simpa [Instr.wf] using hw)
  refine ⟨op, d, hop, h1, ?_⟩
  simp only [encode, hop, List.length_cons, Instr.operandBytes, h2]
  cases o <;> rfl

theorem EncodedLength.slo (o : Operand) : EncodedLength.Statement (.slo o) :=
  EncodedLength.of_operand (c := .slo) (fun _ => rfl)
    (fun o h => by cases o <;> first | exact ⟨_, _, rfl, rfl, rfl⟩ | exact absurd h Bool.false_ne_true) o

theorem EncodedLength.rla (o : Operand) : EncodedLength.Statement (.rla o) :=
  EncodedLength.of_operand (c := .rla) (fun _ => rfl)
    (fun o h => by cases o <;> first | exact ⟨_, _, rfl, rfl, rfl⟩ | exact absurd h Bool.false_ne_true) o

theorem EncodedLength.sre (o : Operand) : EncodedLength.Statement (.sre o) :=
  EncodedLength.of_operand (c := .sre) (fun _ => rfl)
    (fun o h => by cases o <;> first | exact ⟨_, _, rfl, rfl, rfl⟩ | exact absurd h Bool.false_ne_true) o

theorem EncodedLength.rra (o : Operand) : EncodedLength.Statement (.rra o) :=
  EncodedLength.of_operand (c := .rra) (fun _ => rfl)
    (fun o h => by cases o <;> first | exact ⟨_, _, rfl, rfl, rfl⟩ | exact absurd h Bool.false_ne_true) o

theorem EncodedLength.sax (o : Operand) : EncodedLength.Statement (.sax o) :=
  EncodedLength.of_operand (c := .sax) (fun _ => rfl)
    (fun o h => by cases o <;> first | exact ⟨_, _, rfl, rfl, rfl⟩ | exact absurd h Bool.false_ne_true) o

theorem EncodedLength.lax (o : Operand) : EncodedLength.Statement (.lax o) :=
  EncodedLength.of_operand (c := .lax) (fun _ => rfl)
    (fun o h => by cases o <;> first | exact ⟨_, _, rfl, rfl, rfl⟩ | exact absurd h Bool.false_ne_true) o

theorem EncodedLength.dcp (o : Operand) : EncodedLength.Statement (.dcp o) :=
  EncodedLength.of_operand (c := .dcp) (fun _ => rfl)
    (fun o h => by cases o <;> first | exact ⟨_, _, rfl, rfl, rfl⟩ | exact absurd h Bool.false_ne_true) o

theorem EncodedLength.isb (o : Operand) : EncodedLength.Statement (.isb o) :=
  EncodedLength.of_operand (c := .isb) (fun _ => rfl)
    (fun o h => by cases o <;> first | exact ⟨_, _, rfl, rfl, rfl⟩ | exact absurd h Bool.false_ne_true) o

theorem EncodedLength.anc (op b1 : Byte) : EncodedLength.Statement (.anc op b1) := by
  intro hw
  have hop : (Instr.anc op b1).opcode = some op := if_pos hw
  have key : ∀ x ∈ ancOpcodes, ∃ d, descriptor x = some d ∧ d.length = 2 := by decide
  obtain ⟨d, h1, h2⟩ := key op (by simpa [Instr.wf] using hw)
  refine ⟨op, d, hop, h1, ?_⟩
  simp only [encode, hop, List.length_cons, Instr.operandBytes, List.length_nil, h2]

theorem EncodedLength.alr (b1 : Byte) : EncodedLength.Statement (.alr b1) :=
  fun _ => ⟨_, _, rfl, rfl, rfl⟩

theorem EncodedLength.arr (b1 : Byte) : EncodedLength.Statement (.arr b1) :=
  fun _ => ⟨_, _, rfl, rfl, rfl⟩

theorem EncodedLength.sbx (b1 : Byte) : EncodedLength.Statement (.sbx b1) :=
  fun _ => ⟨_, _, rfl, rfl, rfl⟩

theorem EncodedLength.ane (b1 : Byte) : EncodedLength.Statement (.ane b1) :=
  fun _ => ⟨_, _, rfl, rfl, rfl⟩

theorem EncodedLength.lxa (b1 : Byte) : EncodedLength.Statement (.lxa b1) :=
  fun _ => ⟨_, _, rfl, rfl, rfl⟩

theorem EncodedLength.usbc (b1 : Byte) : EncodedLength.Statement (.usbc b1) :=
  fun _ => ⟨_, _, rfl, rfl, rfl⟩

theorem EncodedLength.las (base : Word) : EncodedLength.Statement (.las base) :=
  fun _ => ⟨_, _, rfl, rfl, rfl⟩

theorem EncodedLength.tas (base : Word) : EncodedLength.Statement (.tas base) :=
  fun _ => ⟨_, _, rfl, rfl, rfl⟩

theorem EncodedLength.sha (o : Operand) : EncodedLength.Statement (.sha o) :=
  EncodedLength.of_operand (c := .sha) (fun _ => rfl)
    (fun o h => by cases o <;> first | exact ⟨_, _, rfl, rfl, rfl⟩ | exact absurd h Bool.false_ne_true) o

theorem EncodedLength.shx (base : Word) : EncodedLength.Statement (.shx base) :=
  fun _ => ⟨_, _, rfl, rfl, rfl⟩

theorem EncodedLength.shy (base : Word) : EncodedLength.Statement (.shy base) :=
  fun _ => ⟨_, _, rfl, rfl, rfl⟩

theorem EncodedLength.jam (op : Byte) : EncodedLength.Statement (.jam op) := by
  intro hw
  have hop : (Instr.jam op).opcode = some op := if_pos hw
  have key : ∀ x ∈ jamOpcodes, ∃ d, descriptor x = some d ∧ d.length = 1 := by decide
  obtain ⟨d, h1, h2⟩ := key op (by simpa [Instr.wf] using hw)
  refine ⟨op, d, hop, h1, ?_⟩
  simp only [encode, hop, List.length_cons, Instr.operandBytes, List.length_nil, h2]

end Sys2Proof.Laws
end

