-- ==== Sys2Proof/Laws/Step.lean ====
section
/-! SUPPORT. What a step can do, said once: the boundary after the NMI poll, then either an instruction that completes and its tick, or
JAM's fault at that boundary. -/

namespace Sys2Proof.Machine

/-- What the Bus's clock and the NMI entry leave alone: the cartridge and the run state; the master counter only grows. -/
structure Onward (s u : State) : Prop where
  prg : u.bus.prg = s.bus.prg
  prgSize : u.bus.prgSize = s.bus.prgSize
  cycles : s.bus.cycles ≤ u.bus.cycles
  chr : u.ppu.chr = s.ppu.chr
  mirroring : u.ppu.mirroring = s.ppu.mirroring
  run : u.cpu.run = s.cpu.run

theorem busTick_onward (c : Nat) (s : State) : Onward s (busTick c s) := by
  obtain ⟨h1, h2, h3, _, _⟩ := busTick_spec c s
  have hp := ppuTick_same (3 * c) s.ppu
  exact ⟨by rw [h3], by rw [h3], by rw [h3]; exact Nat.le_add_right _ _, by rw [h2]; exact hp.chr, by rw [h2]; exact hp.mirroring, by rw [h1]⟩

theorem serviceNmi_onward (s : State) : Onward s (serviceNmi s) := by
  unfold serviceNmi
  split
  · have h := (reached_enterInterrupt s.cpu.pc false nmiVector (s.setPpu { s.ppu with nmiPending := false })).kept
    have k := busTick_onward nmiCycles (enterInterrupt s.cpu.pc false nmiVector (s.setPpu { s.ppu with nmiPending := false }))
    exact ⟨k.prg.trans h.prg, k.prgSize.trans h.prgSize, Nat.le_trans (Nat.le_of_eq h.cycles.symm) k.cycles, k.chr.trans h.chr,
      k.mirroring.trans h.mirroring, k.run.trans h.run⟩
  · exact ⟨rfl, rfl, Nat.le_refl _, rfl, rfl, rfl⟩

theorem MidLegal.serviceNmi {s : State} (h : MidLegal s) : MidLegal (Machine.serviceNmi s) := by
  unfold Machine.serviceNmi
  split
  · exact ((h.setPpu (q := { s.ppu with nmiPending := false }) { h.ppu with }).enterInterrupt _ _ _).tick _
  · exact h

/-- The NMI entry counts no cycle of an instruction: its 7 go to the Bus at once (60 R508). -/
theorem serviceNmi_cyc (s : State) : (serviceNmi s).cpu.cyc = s.cpu.cyc := by
  unfold serviceNmi
  split
  · unfold nmiEntry
    rw [(busTick_spec _ _).1, enterInterrupt_eq _ _ _ (by decide) (by decide)]
    rfl
  · rfl

/-- A step of a running machine (40 R200, 60 R501): an instruction that completes, its cycles ticked, or JAM's record at the boundary. -/
theorem step_cases (s : State) (hr : s.cpu.run = .running) :
    (∃ u, step s = .next (busTick u.cpu.cyc (u.setCyc 0)) ∧ Reached (fetch (serviceNmi s)).st u) ∨
    (step s = .next ((serviceNmi s).setRun
        (.faulted ⟨.jam, (memRead (serviceNmi s).cpu.pc (serviceNmi s)).1, (serviceNmi s).cpu.pc⟩)) ∧
      (memRead (serviceNmi s).cpu.pc (serviceNmi s)).1 ∈ jamOpcodes) := by
  obtain ⟨h1, ⟨i, rest, h2, hw, ho, hj⟩, h3, -⟩ := fetch_spec (serviceNmi s)
  have hrun : (serviceNmi s).cpu.run = .running := (serviceNmi_onward s).run.trans hr
  by_cases hji : ∃ op, i = .jam op
  · right
    obtain ⟨op, rfl⟩ := hji
    have hop := hj op rfl
    constructor
    · unfold step
      rw [hr]
      dsimp only
      rw [h2]
      dsimp only [exec]
      unfold execJam raiseFault complete
      simp only [State.setRun, h3, hop, h1]
    · rw [← h1, ← hop]
      simpa [Instr.wf] using hw
  · left
    obtain ⟨u, hu, hk⟩ := exec_completes i (fetch (serviceNmi s)).st hw (fun op h => hji ⟨op, h⟩)
    refine ⟨u, ?_, hk⟩
    unfold step
    rw [hr]
    dsimp only
    rw [h2]
    dsimp only
    rw [hu]
    dsimp only
    unfold complete
    rw [hk.kept.run, h3]
    dsimp only
    rw [hrun]

/-- Only a running machine steps (10 R45). -/
theorem running_of_step {s t : State} (h : step s = .next t) : s.cpu.run = .running := by
  cases hr : s.cpu.run with
  | running => rfl
  | faulted r => simp [step, hr] at h

end Sys2Proof.Machine
end

