-- ==== Sys2Proof/Tests/Slice0.lean ====
section
/-! SUPPORT. Small tests. Expected results are the spec's own vectors (95_test_vectors.md, V<n>.<m>) or worked by hand from the rule a
comment names. -/

namespace Sys2Proof.Tests

open Sys2Proof.Machine

/-! ### WellFormed refuses a form the opcode table does not have -/

theorem test_illFormed_loads :
    (Instr.lda .acc).wf = false ∧
    (Instr.ldx (.zpx 0x10)).wf = false ∧
    (Instr.ldy (.zpy 0x10)).wf = false ∧
    (Instr.sta (.imm 0x01)).wf = false ∧
    (Instr.stx (.zpx 0x10)).wf = false ∧
    (Instr.sty (.zpy 0x10)).wf = false := by decide

theorem test_illFormed_arithmetic :
    (Instr.adc (.zpy 0x10)).wf = false ∧
    (Instr.sbc .impl).wf = false ∧
    (Instr.and .acc).wf = false ∧
    (Instr.ora (.ind 0x1234)).wf = false ∧
    (Instr.eor (.rel 0x10)).wf = false ∧
    (Instr.bit (.imm 0x01)).wf = false ∧
    (Instr.cmp (.zpy 0x10)).wf = false ∧
    (Instr.cpx (.zpx 0x10)).wf = false ∧
    (Instr.cpy (.absx 0x1234)).wf = false ∧
    (Instr.inc .acc).wf = false ∧
    (Instr.dec (.absy 0x1234)).wf = false := by decide

theorem test_illFormed_shifts_jump :
    (Instr.asl (.absy 0x1234)).wf = false ∧
    (Instr.lsr (.imm 0x01)).wf = false ∧
    (Instr.rol (.zpy 0x10)).wf = false ∧
    (Instr.ror (.indy 0x10)).wf = false ∧
    (Instr.jmp (.absx 0x1234)).wf = false := by decide

theorem test_illFormed_unofficial :
    (Instr.slo (.imm 0x01)).wf = false ∧
    (Instr.rla (.zpy 0x10)).wf = false ∧
    (Instr.sre .acc).wf = false ∧
    (Instr.rra .impl).wf = false ∧
    (Instr.dcp (.imm 0x01)).wf = false ∧
    (Instr.isb (.zpy 0x10)).wf = false ∧
    (Instr.sax (.absx 0x1234)).wf = false ∧
    (Instr.lax (.imm 0x01)).wf = false ∧
    (Instr.sha (.abs 0x1234)).wf = false := by decide

theorem test_illFormed_opcodes :
    (Instr.nop 0xEA (.zp 0x10)).wf = false ∧ (Instr.nop 0x00 .impl).wf = false ∧ (Instr.nop 0x89 .impl).wf = false ∧
    (Instr.anc 0x4B 0x01).wf = false ∧ (Instr.jam 0x82).wf = false ∧ encode (.nop 0xEA (.zp 0x10)) = [] := by decide

/-! ### Words written out from the spec's encodings, one or more for every constructor -/

/-- 41 R250-R255. -/
theorem test_decode_loads :
    decode [0b10101001, 0b00000101] = .ok (.lda (.imm 0x05)) [] ∧
    decode [0b10110101, 0b11111111] = .ok (.lda (.zpx 0xFF)) [] ∧
    decode [0b10111101, 0b11111111, 0b00000010] = .ok (.lda (.absx 0x02FF)) [] ∧
    decode [0b10100001, 0b11111110] = .ok (.lda (.indx 0xFE)) [] ∧
    decode [0b10110001, 0b11111111] = .ok (.lda (.indy 0xFF)) [] ∧
    decode [0b10110110, 0b11110000] = .ok (.ldx (.zpy 0xF0)) [] ∧
    decode [0b10111100, 0b00110100, 0b00010010] = .ok (.ldy (.absx 0x1234)) [] ∧
    decode [0b10011001, 0b00000000, 0b00000011] = .ok (.sta (.absy 0x0300)) [] ∧
    decode [0b10010110, 0b00100000] = .ok (.stx (.zpy 0x20)) [] ∧
    decode [0b10001100, 0b00000000, 0b00000010] = .ok (.sty (.abs 0x0200)) [] := by decide

/-- 41 R256-R261. -/
theorem test_decode_transfers :
    decode [0b10101010] = .ok (.tax) [] ∧
    decode [0b10101000] = .ok (.tay) [] ∧
    decode [0b10001010] = .ok (.txa) [] ∧
    decode [0b10011000] = .ok (.tya) [] ∧
    decode [0b10111010] = .ok (.tsx) [] ∧
    decode [0b10011010] = .ok (.txs) [] := by decide

/-- 42 R302-R310. -/
theorem test_decode_arithmetic :
    decode [0b01101001, 0b00000001] = .ok (.adc (.imm 0x01)) [] ∧
    decode [0b11100101, 0b00010000] = .ok (.sbc (.zp 0x10)) [] ∧
    decode [0b00110101, 0b00010000] = .ok (.and (.zpx 0x10)) [] ∧
    decode [0b00001101, 0b00110100, 0b00010010] = .ok (.ora (.abs 0x1234)) [] ∧
    decode [0b01011001, 0b00110100, 0b00010010] = .ok (.eor (.absy 0x1234)) [] ∧
    decode [0b00101100, 0b00110100, 0b00010010] = .ok (.bit (.abs 0x1234)) [] ∧
    decode [0b11000001, 0b00010000] = .ok (.cmp (.indx 0x10)) [] ∧
    decode [0b11100100, 0b00010000] = .ok (.cpx (.zp 0x10)) [] ∧
    decode [0b11000000, 0b00000110] = .ok (.cpy (.imm 0x06)) [] := by decide

/-- 42 R311-R316. -/
theorem test_decode_counters :
    decode [0b11110110, 0b00010000] = .ok (.inc (.zpx 0x10)) [] ∧
    decode [0b11001110, 0b00110100, 0b00010010] = .ok (.dec (.abs 0x1234)) [] ∧
    decode [0b11101000] = .ok (.inx) [] ∧
    decode [0b11001000] = .ok (.iny) [] ∧
    decode [0b11001010] = .ok (.dex) [] ∧
    decode [0b10001000] = .ok (.dey) [] := by decide

/-- 43 R351-R354. -/
theorem test_decode_shifts :
    decode [0b00001010] = .ok (.asl .acc) [] ∧
    decode [0b01000110, 0b00010000] = .ok (.lsr (.zp 0x10)) [] ∧
    decode [0b00111110, 0b11111111, 0b00000010] = .ok (.rol (.absx 0x02FF)) [] ∧
    decode [0b01110110, 0b00010000] = .ok (.ror (.zpx 0x10)) [] := by decide

/-- 44 R371-R378. -/
theorem test_decode_branches :
    decode [0b00010000, 0b01111111] = .ok (.bpl 0x7F) [] ∧
    decode [0b00110000, 0b10000000] = .ok (.bmi 0x80) [] ∧
    decode [0b01010000, 0b00000001] = .ok (.bvc 0x01) [] ∧
    decode [0b01110000, 0b00000010] = .ok (.bvs 0x02) [] ∧
    decode [0b10010000, 0b00000011] = .ok (.bcc 0x03) [] ∧
    decode [0b10110000, 0b00001101] = .ok (.bcs 0x0D) [] ∧
    decode [0b11010000, 0b11111011] = .ok (.bne 0xFB) [] ∧
    decode [0b11110000, 0b11111110] = .ok (.beq 0xFE) [] := by decide

/-- 44 R379-R384. -/
theorem test_decode_jumps :
    decode [0b01001100, 0b00110100, 0b00010010] = .ok (.jmp (.abs 0x1234)) [] ∧
    decode [0b01101100, 0b11111111, 0b00000010] = .ok (.jmp (.ind 0x02FF)) [] ∧
    decode [0b00100000, 0b00000000, 0b10010000] = .ok (.jsr 0x9000) [] ∧
    decode [0b01100000] = .ok (.rts) [] ∧
    decode [0b00000000, 0b11101010] = .ok (.brk) [] ∧
    decode [0b01000000] = .ok (.rti) [] := by decide

/-- 45 R400-R411. -/
theorem test_decode_stack_flags :
    decode [0b01001000] = .ok (.pha) [] ∧
    decode [0b01101000] = .ok (.pla) [] ∧
    decode [0b00001000] = .ok (.php) [] ∧
    decode [0b00101000] = .ok (.plp) [] ∧
    decode [0b00011000] = .ok (.clc) [] ∧
    decode [0b00111000] = .ok (.sec) [] ∧
    decode [0b01011000] = .ok (.cli) [] ∧
    decode [0b01111000] = .ok (.sei) [] ∧
    decode [0b10111000] = .ok (.clv) [] ∧
    decode [0b11011000] = .ok (.cld) [] ∧
    decode [0b11111000] = .ok (.sed) [] ∧
    decode [0b11101010] = .ok (.nop 0xEA .impl) [] := by decide

/-- 46 R431-R438. -/
theorem test_decode_composites :
    decode [0b00000111, 0b00010000] = .ok (.slo (.zp 0x10)) [] ∧
    decode [0b00110011, 0b00010000] = .ok (.rla (.indy 0x10)) [] ∧
    decode [0b01011011, 0b00110100, 0b00010010] = .ok (.sre (.absy 0x1234)) [] ∧
    decode [0b01100011, 0b00010000] = .ok (.rra (.indx 0x10)) [] ∧
    decode [0b10010111, 0b00010000] = .ok (.sax (.zpy 0x10)) [] ∧
    decode [0b10111111, 0b00110100, 0b00010010] = .ok (.lax (.absy 0x1234)) [] ∧
    decode [0b11001111, 0b00110100, 0b00010010] = .ok (.dcp (.abs 0x1234)) [] ∧
    decode [0b11111111, 0b00110100, 0b00010010] = .ok (.isb (.absx 0x1234)) [] := by decide

/-- 46 R439-R444, R450. -/
theorem test_decode_immediates :
    decode [0b00001011, 0b10000000] = .ok (.anc 0x0B 0x80) [] ∧
    decode [0b00101011, 0b10000000] = .ok (.anc 0x2B 0x80) [] ∧
    decode [0b01001011, 0b00000011] = .ok (.alr 0x03) [] ∧
    decode [0b01101011, 0b11111111] = .ok (.arr 0xFF) [] ∧
    decode [0b11001011, 0b00000101] = .ok (.sbx 0x05) [] ∧
    decode [0b10001011, 0b11111111] = .ok (.ane 0xFF) [] ∧
    decode [0b10101011, 0b00001111] = .ok (.lxa 0x0F) [] ∧
    decode [0b11101011, 0b00000001] = .ok (.usbc 0x01) [] := by decide

/-- 46 R445-R449. -/
theorem test_decode_high_stores :
    decode [0b10111011, 0b00000000, 0b00000010] = .ok (.las 0x0200) [] ∧
    decode [0b10011011, 0b00000000, 0b00010010] = .ok (.tas 0x1200) [] ∧
    decode [0b10011111, 0b11110000, 0b00010010] = .ok (.sha (.absy 0x12F0)) [] ∧
    decode [0b10010011, 0b00010000] = .ok (.sha (.indy 0x10)) [] ∧
    decode [0b10011110, 0b00000000, 0b00000010] = .ok (.shx 0x0200) [] ∧
    decode [0b10011100, 0b00000000, 0b00000010] = .ok (.shy 0x0200) [] := by decide

/-- 46 R451-R454. -/
theorem test_decode_nops_jam :
    decode [0b00011010] = .ok (.nop 0x1A .impl) [] ∧
    decode [0b10000000, 0b00010010] = .ok (.nop 0x80 (.imm 0x12)) [] ∧
    decode [0b00011100, 0b11111111, 0b00000010] = .ok (.nop 0x1C (.absx 0x02FF)) [] ∧
    decode [0b00000010] = .ok (.jam 0x02) [] ∧
    decode [0b11110010] = .ok (.jam 0xF2) [] := by decide

/-- Too few bytes, or none, decode to nothing, by name (30 R151). -/
theorem test_decode_errors :
    decode [] = .error .noBytes ∧ decode [0xA9] = .error (.truncated 0xA9) ∧ decode [0x4C, 0x34] = .error (.truncated 0x4C) := by decide

/-- The first byte of a table word is its lowest one (the opcode), the operand bytes stand above it. -/
theorem test_decodeTableWord :
    decodeTableWord 16 0x05A9 = some (.lda (.imm 0x05)) ∧ decodeTableWord 8 0xA9 = some (.lda (.imm 0x00)) ∧
    decodeTableWord 24 0x12344C = some (.jmp (.abs 0x1234)) := by decide

/-- 40 R231: of the rows of an indexed mode, the page penalty stands on those of the read instructions and on no other. -/
theorem test_page_penalty_rows :
    (opcodeTable.all fun d => !([Mode.absx, .absy, .indy].contains d.mode) ||
      (d.pagePenalty == [Mnemonic.adc, .and, .cmp, .eor, .lda, .ora, .sbc, .ldx, .ldy, .lax, .las, .nop].contains d.mnemonic)) = true := by
  decide +kernel

/-! ### One step of one instruction -/

/-- Registers `a x y sp p`. -/
def regs (a x y sp p : Byte) : Cpu := { State.reset.cpu with a := a, x := x, y := y, sp := sp, p := p, pc := 0x8000 }

/-- The code at `$8000`, the registers, and RAM bytes. -/
def start (code : List Byte) (c : Cpu) (ram : Memory) : State :=
  { State.reset with cpu := c, bus := { State.reset.bus with prg := Memory.ofBytes code, ram := ram } }

/-- One step gives a running state of which `p` holds. -/
def runs (s : State) (p : State → Bool) : Bool :=
  match step s with
  | .next t => t.isRunning && p t
  | .fault _ => false
  | .refused _ => false

/-- Cycles a step reported, from a machine after reset. -/
def cycled (t : State) (n : Nat) : Bool := t.bus.cycles == 7 + n

/-- V2.1.1 -/
theorem test_lda_imm :
    runs (start [0xA9, 0x80] (regs 0x00 0x00 0x00 0xFD 0x24) []) (fun t =>
      t.cpu.a == 0x80 && t.cpu.p == 0xA4 && t.cpu.pc == 0x8002 && cycled t 2) = true := by decide

/-- V2.1.6: base `$02F8`, crossed -/
theorem test_lda_indy :
    runs (start [0xB1, 0xFF] (regs 0x00 0x00 0x10 0xFD 0x24) [(0x0000, 0x02), (0x00FF, 0xF8), (0x0308, 0x5B)]) (fun t =>
      t.cpu.a == 0x5B && t.cpu.pc == 0x8002 && cycled t 6) = true := by decide

/-- V2.1.7 -/
theorem test_ldx_zpy :
    runs (start [0xB6, 0xF0] (regs 0x00 0x00 0x20 0xFD 0x24) [(0x0010, 0x44)]) (fun t =>
      t.cpu.x == 0x44 && t.cpu.p == 0x24 && cycled t 4) = true := by decide

/-- 41 R252 with 40 R212: `$FFFF + $11` wraps to `$0010`, another page -/
theorem test_ldy_absx_wrap :
    runs (start [0xBC, 0xFF, 0xFF] (regs 0x00 0x11 0x00 0xFD 0x24) [(0x0010, 0x33)]) (fun t =>
      t.cpu.y == 0x33 && t.cpu.p == 0x24 && t.cpu.pc == 0x8003 && cycled t 5) = true := by decide

/-- V2.1.8 -/
theorem test_sta_absx :
    runs (start [0x9D, 0xFF, 0x02] (regs 0x09 0x01 0x00 0xFD 0x24) []) (fun t =>
      t.bus.ram.read 0x0300 == 0x09 && t.cpu.p == 0x24 && cycled t 5) = true := by decide

/-- 41 R254 with 40 R210: the zero-page sum wraps to `$10`; no flag -/
theorem test_stx_zpy :
    runs (start [0x96, 0xF0] (regs 0x00 0x80 0x20 0xFD 0x24) []) (fun t =>
      t.bus.ram.read 0x0010 == 0x80 && t.cpu.p == 0x24 && cycled t 4) = true := by decide

/-- 41 R255; no flag -/
theorem test_sty_zp :
    runs (start [0x84, 0x10] (regs 0x00 0x00 0x80 0xFD 0x24) []) (fun t =>
      t.bus.ram.read 0x0010 == 0x80 && t.cpu.p == 0x24 && t.cpu.pc == 0x8002 && cycled t 3) = true := by decide

/-- 41 R256: N from the value -/
theorem test_tax :
    runs (start [0xAA] (regs 0x80 0x00 0x00 0xFD 0x24) []) (fun t =>
      t.cpu.x == 0x80 && t.cpu.a == 0x80 && t.cpu.p == 0xA4 && cycled t 2) = true := by decide

/-- 41 R257: Z from the value -/
theorem test_tay :
    runs (start [0xA8] (regs 0x00 0x00 0x55 0xFD 0x24) []) (fun t =>
      t.cpu.y == 0x00 && t.cpu.a == 0x00 && t.cpu.p == 0x26 && cycled t 2) = true := by decide

/-- 41 R258 -/
theorem test_txa :
    runs (start [0x8A] (regs 0x80 0x7F 0x00 0xFD 0x24) []) (fun t =>
      t.cpu.a == 0x7F && t.cpu.p == 0x24 && cycled t 2) = true := by decide

/-- 41 R259 -/
theorem test_tya :
    runs (start [0x98] (regs 0x00 0x00 0xFF 0xFD 0x24) []) (fun t =>
      t.cpu.a == 0xFF && t.cpu.p == 0xA4 && cycled t 2) = true := by decide

/-- V2.1.9 -/
theorem test_tsx :
    runs (start [0xBA] (regs 0x00 0x00 0x00 0x80 0x24) []) (fun t =>
      t.cpu.x == 0x80 && t.cpu.p == 0xA4 && cycled t 2) = true := by decide

/-- V2.1.10 -/
theorem test_txs :
    runs (start [0x9A] (regs 0x00 0x00 0x00 0xFD 0x24) []) (fun t =>
      t.cpu.sp == 0x00 && t.cpu.p == 0x24 && cycled t 2) = true := by decide

/-- V2.2, ADC row 2 -/
theorem test_adc_overflow :
    runs (start [0x69, 0x50] (regs 0x50 0x00 0x00 0xFD 0x24) []) (fun t =>
      t.cpu.a == 0xA0 && t.cpu.p == 0xE4 && cycled t 2) = true := by decide

/-- V2.2, ADC row 9 -/
theorem test_adc_carry :
    runs (start [0x69, 0x00] (regs 0xFF 0x00 0x00 0xFD 0x25) []) (fun t =>
      t.cpu.a == 0x00 && t.cpu.p == 0x27 && cycled t 2) = true := by decide

/-- V2.2, SBC row 10 -/
theorem test_sbc_borrow :
    runs (start [0xE9, 0x05] (regs 0x05 0x00 0x00 0xFD 0x24) []) (fun t =>
      t.cpu.a == 0xFF && t.cpu.p == 0xA4 && cycled t 2) = true := by decide

/-- V2.2, SBC row 8 with D = 1: no decimal mode -/
theorem test_sbc_decimal :
    runs (start [0xE9, 0x30] (regs 0xD0 0x00 0x00 0xFD 0x2D) []) (fun t =>
      t.cpu.a == 0xA0 && t.cpu.p == 0xAD) = true := by decide

/-- V2.2 -/
theorem test_usbc :
    runs (start [0xEB, 0x01] (regs 0x00 0x00 0x00 0xFD 0x25) []) (fun t =>
      t.cpu.a == 0xFF && t.cpu.p == 0xA4 && cycled t 2) = true := by decide

/-- V2.3.1 -/
theorem test_and :
    runs (start [0x29, 0x0F] (regs 0xF0 0x00 0x00 0xFD 0x24) []) (fun t =>
      t.cpu.a == 0x00 && t.cpu.p == 0x26) = true := by decide

/-- V2.3.2 -/
theorem test_ora :
    runs (start [0x09, 0x0F] (regs 0xF0 0x00 0x00 0xFD 0x24) []) (fun t =>
      t.cpu.a == 0xFF && t.cpu.p == 0xA4) = true := by decide

/-- V2.3.3 -/
theorem test_eor :
    runs (start [0x49, 0xFF] (regs 0xFF 0x00 0x00 0xFD 0x24) []) (fun t =>
      t.cpu.a == 0x00 && t.cpu.p == 0x26) = true := by decide

/-- V2.3.4 -/
theorem test_bit_high :
    runs (start [0x24, 0x10] (regs 0x01 0x00 0x00 0xFD 0x24) [(0x0010, 0xC0)]) (fun t =>
      t.cpu.a == 0x01 && t.cpu.p == 0xE6) = true := by decide

/-- V2.3.5 -/
theorem test_bit_v :
    runs (start [0x24, 0x10] (regs 0x41 0x00 0x00 0xFD 0x24) [(0x0010, 0x41)]) (fun t =>
      t.cpu.p == 0x64) = true := by decide

/-- V2.3.7 -/
theorem test_cmp_less :
    runs (start [0xC9, 0x20] (regs 0x10 0x00 0x00 0xFD 0x24) []) (fun t =>
      t.cpu.a == 0x10 && t.cpu.p == 0xA4) = true := by decide

/-- V2.3.10 -/
theorem test_cmp_unsigned :
    runs (start [0xC9, 0x01] (regs 0x80 0x00 0x00 0xFD 0x24) []) (fun t =>
      t.cpu.p == 0x25) = true := by decide

/-- V2.3.11 -/
theorem test_cpx :
    runs (start [0xE0, 0x05] (regs 0x00 0x05 0x00 0xFD 0x24) []) (fun t =>
      t.cpu.x == 0x05 && t.cpu.p == 0x27) = true := by decide

/-- V2.3.12 -/
theorem test_cpy :
    runs (start [0xC0, 0x06] (regs 0x00 0x00 0x05 0xFD 0x24) []) (fun t =>
      t.cpu.y == 0x05 && t.cpu.p == 0xA4) = true := by decide

/-- V2.3.13 -/
theorem test_inc :
    runs (start [0xE6, 0x10] (regs 0x00 0x00 0x00 0xFD 0x24) [(0x0010, 0xFF)]) (fun t =>
      t.bus.ram.read 0x0010 == 0x00 && t.cpu.p == 0x26 && cycled t 5) = true := by decide

/-- V2.3.14 -/
theorem test_dec :
    runs (start [0xC6, 0x10] (regs 0x00 0x00 0x00 0xFD 0x24) []) (fun t =>
      t.bus.ram.read 0x0010 == 0xFF && t.cpu.p == 0xA4 && cycled t 5) = true := by decide

/-- 42 R313: wraps to 0; C and V stay -/
theorem test_inx :
    runs (start [0xE8] (regs 0x00 0xFF 0x00 0xFD 0xE5) []) (fun t =>
      t.cpu.x == 0x00 && t.cpu.p == 0x67) = true := by decide

/-- V2.3.16 -/
theorem test_iny :
    runs (start [0xC8] (regs 0x00 0x00 0x7F 0xFD 0x24) []) (fun t =>
      t.cpu.y == 0x80 && t.cpu.p == 0xA4) = true := by decide

/-- V2.3.15 -/
theorem test_dex :
    runs (start [0xCA] (regs 0x00 0x00 0x00 0xFD 0x24) []) (fun t =>
      t.cpu.x == 0xFF && t.cpu.p == 0xA4) = true := by decide

/-- 42 R316 -/
theorem test_dey :
    runs (start [0x88] (regs 0x00 0x00 0x01 0xFD 0x24) []) (fun t =>
      t.cpu.y == 0x00 && t.cpu.p == 0x26) = true := by decide

/-- V2.4.1 -/
theorem test_asl_acc :
    runs (start [0x0A] (regs 0x80 0x00 0x00 0xFD 0x24) []) (fun t =>
      t.cpu.a == 0x00 && t.cpu.p == 0x27 && cycled t 2) = true := by decide

/-- V2.4.6 -/
theorem test_asl_absx :
    runs (start [0x1E, 0xFF, 0x02] (regs 0x00 0x01 0x00 0xFD 0x24) [(0x0300, 0x41)]) (fun t =>
      t.bus.ram.read 0x0300 == 0x82 && t.cpu.p == 0xA4 && cycled t 7) = true := by decide

/-- V2.4.2 -/
theorem test_lsr_acc :
    runs (start [0x4A] (regs 0x01 0x00 0x00 0xFD 0x24) []) (fun t =>
      t.cpu.a == 0x00 && t.cpu.p == 0x27 && cycled t 2) = true := by decide

/-- 43 R352 on memory: `$81` shifts to `$40`, its bit 0 to C -/
theorem test_lsr_zp :
    runs (start [0x46, 0x10] (regs 0x55 0x00 0x00 0xFD 0x24) [(0x0010, 0x81)]) (fun t =>
      t.cpu.a == 0x55 && t.bus.ram.read 0x0010 == 0x40 && t.cpu.p == 0x25 && cycled t 5) = true := by decide

/-- V2.4.3 -/
theorem test_rol_acc :
    runs (start [0x2A] (regs 0x80 0x00 0x00 0xFD 0x25) []) (fun t =>
      t.cpu.a == 0x01 && t.cpu.p == 0x25 && cycled t 2) = true := by decide

/-- 43 R353 on memory: the old carry enters bit 0 -/
theorem test_rol_zp :
    runs (start [0x26, 0x10] (regs 0x00 0x00 0x00 0xFD 0x25) [(0x0010, 0x40)]) (fun t =>
      t.bus.ram.read 0x0010 == 0x81 && t.cpu.p == 0xA4 && cycled t 5) = true := by decide

/-- V2.4.5 -/
theorem test_ror_acc :
    runs (start [0x6A] (regs 0x00 0x00 0x00 0xFD 0x25) []) (fun t =>
      t.cpu.a == 0x80 && t.cpu.p == 0xA4 && cycled t 2) = true := by decide

/-- 43 R354 on memory: the old carry enters bit 7, bit 0 goes to C -/
theorem test_ror_zp :
    runs (start [0x66, 0x10] (regs 0x00 0x00 0x00 0xFD 0x25) [(0x0010, 0x01)]) (fun t =>
      t.bus.ram.read 0x0010 == 0x80 && t.cpu.p == 0xA5 && cycled t 5) = true := by decide

/-- 44 R371: `$8002 + $7F`, same page -/
theorem test_bpl :
    runs (start [0x10, 0x7F] (regs 0x00 0x00 0x00 0xFD 0x24) []) (fun t =>
      t.cpu.pc == 0x8081 && t.cpu.p == 0x24 && cycled t 3) = true := by decide

/-- 44 R372: taken on N, back into another page -/
theorem test_bmi :
    runs (start [0x30, 0x80] (regs 0x00 0x00 0x00 0xFD 0xA4) []) (fun t =>
      t.cpu.pc == 0x7F82 && cycled t 4) = true := by decide

/-- 44 R373: V = 1, not taken -/
theorem test_bvc :
    runs (start [0x50, 0x10] (regs 0x00 0x00 0x00 0xFD 0x64) []) (fun t =>
      t.cpu.pc == 0x8002 && cycled t 2) = true := by decide

/-- 44 R374: V = 1, taken -/
theorem test_bvs :
    runs (start [0x70, 0x10] (regs 0x00 0x00 0x00 0xFD 0x64) []) (fun t =>
      t.cpu.pc == 0x8012 && cycled t 3) = true := by decide

/-- 44 R375: C = 1, not taken -/
theorem test_bcc :
    runs (start [0x90, 0x10] (regs 0x00 0x00 0x00 0xFD 0x25) []) (fun t =>
      t.cpu.pc == 0x8002 && cycled t 2) = true := by decide

/-- 44 R376: C = 1, taken -/
theorem test_bcs :
    runs (start [0xB0, 0x10] (regs 0x00 0x00 0x00 0xFD 0x25) []) (fun t =>
      t.cpu.pc == 0x8012 && cycled t 3) = true := by decide

/-- V2.5.3 -/
theorem test_bne_taken :
    runs (start [0xD0, 0x80] (regs 0x00 0x00 0x00 0xFD 0x24) []) (fun t =>
      t.cpu.pc == 0x7F82 && cycled t 4) = true := by decide

/-- V2.5.2 -/
theorem test_bne_not :
    runs (start [0xD0, 0x02] (regs 0x00 0x00 0x00 0xFD 0x26) []) (fun t =>
      t.cpu.pc == 0x8002 && cycled t 2) = true := by decide

/-- V2.5.4 -/
theorem test_beq :
    runs (start [0xF0, 0xFE] (regs 0x00 0x00 0x00 0xFD 0x26) []) (fun t =>
      t.cpu.pc == 0x8000 && cycled t 3) = true := by decide

/-- V2.5.7: the pointer wraps in its page -/
theorem test_jmp_ind :
    runs (start [0x6C, 0xFF, 0x02] (regs 0x00 0x00 0x00 0xFD 0x24) [(0x0200, 0x12), (0x02FF, 0x34), (0x0300, 0x99)]) (fun t =>
      t.cpu.pc == 0x1234 && cycled t 5) = true := by decide

/-- V2.5.8 -/
theorem test_jmp_abs :
    runs (start [0x4C, 0x34, 0x12] (regs 0x00 0x00 0x00 0xFD 0x24) []) (fun t =>
      t.cpu.pc == 0x1234 && cycled t 3) = true := by decide

/-- V2.6.1 -/
theorem test_jsr :
    runs (start [0x20, 0x00, 0x90] (regs 0x00 0x00 0x00 0xFD 0x24) []) (fun t =>
      t.bus.ram.read 0x01FD == 0x80 && t.bus.ram.read 0x01FC == 0x02 && t.cpu.sp == 0xFB && t.cpu.pc == 0x9000 && cycled t 6) = true := by decide

/-- V2.6.1, its RTS -/
theorem test_rts :
    runs (start [0x60] (regs 0x00 0x00 0x00 0xFB 0x24) [(0x01FC, 0x02), (0x01FD, 0x80)]) (fun t =>
      t.cpu.pc == 0x8003 && t.cpu.sp == 0xFD && cycled t 6) = true := by decide

/-- V2.6.2, its RTI -/
theorem test_rti :
    runs (start [0x40] (regs 0x00 0x00 0x00 0xFA 0xE7) [(0x01FB, 0xF3), (0x01FC, 0x02), (0x01FD, 0x80)]) (fun t =>
      t.cpu.pc == 0x8002 && t.cpu.sp == 0xFD && t.cpu.p == 0xE3 && cycled t 6) = true := by decide

/-- V2.7.1 -/
theorem test_pha_wrap :
    runs (start [0x48] (regs 0x42 0x00 0x00 0x00 0x24) []) (fun t =>
      t.bus.ram.read 0x0100 == 0x42 && t.cpu.sp == 0xFF && t.cpu.p == 0x24 && cycled t 3) = true := by decide

/-- V2.7.2 -/
theorem test_pla_wrap :
    runs (start [0x68] (regs 0x00 0x00 0x00 0xFF 0x24) [(0x0100, 0x80)]) (fun t =>
      t.cpu.a == 0x80 && t.cpu.sp == 0x00 && t.cpu.p == 0xA4 && cycled t 4) = true := by decide

/-- V2.7.3 -/
theorem test_php :
    runs (start [0x08] (regs 0x00 0x00 0x00 0xFD 0xE5) []) (fun t =>
      t.bus.ram.read 0x01FD == 0xF5 && t.cpu.sp == 0xFC && t.cpu.p == 0xE5 && cycled t 3) = true := by decide

/-- V2.7.4 -/
theorem test_plp_ones :
    runs (start [0x28] (regs 0x00 0x00 0x00 0xFC 0x24) [(0x01FD, 0xFF)]) (fun t =>
      t.cpu.p == 0xEF && t.cpu.sp == 0xFD && cycled t 4) = true := by decide

/-- V2.7.5 -/
theorem test_plp_zeros :
    runs (start [0x28] (regs 0x00 0x00 0x00 0xFC 0x24) []) (fun t =>
      t.cpu.p == 0x20 && cycled t 4) = true := by decide

/-- V2.7.6 -/
theorem test_sec :
    runs (start [0x38] (regs 0x00 0x00 0x00 0xFD 0x24) []) (fun t =>
      t.cpu.p == 0x25 && cycled t 2) = true := by decide

/-- V2.7.6 -/
theorem test_sed :
    runs (start [0xF8] (regs 0x00 0x00 0x00 0xFD 0x24) []) (fun t =>
      t.cpu.p == 0x2C && cycled t 2) = true := by decide

/-- V2.7.6 -/
theorem test_sei :
    runs (start [0x78] (regs 0x00 0x00 0x00 0xFD 0x24) []) (fun t =>
      t.cpu.p == 0x24 && cycled t 2) = true := by decide

/-- V2.7.7 -/
theorem test_clc :
    runs (start [0x18] (regs 0x00 0x00 0x00 0xFD 0xE7) []) (fun t =>
      t.cpu.p == 0xE6 && cycled t 2) = true := by decide

/-- V2.7.7 -/
theorem test_clv :
    runs (start [0xB8] (regs 0x00 0x00 0x00 0xFD 0xE7) []) (fun t =>
      t.cpu.p == 0xA7 && cycled t 2) = true := by decide

/-- V2.7.7 -/
theorem test_cli :
    runs (start [0x58] (regs 0x00 0x00 0x00 0xFD 0xE7) []) (fun t =>
      t.cpu.p == 0xE3 && cycled t 2) = true := by decide

/-- V2.7.7 -/
theorem test_cld :
    runs (start [0xD8] (regs 0x00 0x00 0x00 0xFD 0xE7) []) (fun t =>
      t.cpu.p == 0xE7 && cycled t 2) = true := by decide

/-- V2.8.20: the page penalty -/
theorem test_nop_read :
    runs (start [0x1C, 0xFF, 0x02] (regs 0x00 0x01 0x00 0xFD 0x24) []) (fun t =>
      t.cpu.a == 0x00 && t.cpu.p == 0x24 && t.cpu.pc == 0x8003 && cycled t 5) = true := by decide

/-- V2.8.21 -/
theorem test_nop_imm :
    runs (start [0x80, 0x12] (regs 0x00 0x00 0x00 0xFD 0x24) []) (fun t =>
      t.cpu.p == 0x24 && t.cpu.pc == 0x8002 && cycled t 2) = true := by decide

/-- V2.8.1 -/
theorem test_slo :
    runs (start [0x07, 0x10] (regs 0x01 0x00 0x00 0xFD 0x24) [(0x0010, 0x81)]) (fun t =>
      t.bus.ram.read 0x0010 == 0x02 && t.cpu.a == 0x03 && t.cpu.p == 0x25 && cycled t 5) = true := by decide

/-- V2.8.2 -/
theorem test_rla :
    runs (start [0x27, 0x10] (regs 0xFF 0x00 0x00 0xFD 0x24) [(0x0010, 0x81)]) (fun t =>
      t.bus.ram.read 0x0010 == 0x02 && t.cpu.a == 0x02 && t.cpu.p == 0x25 && cycled t 5) = true := by decide

/-- V2.8.3 -/
theorem test_sre :
    runs (start [0x47, 0x10] (regs 0xFF 0x00 0x00 0xFD 0x24) [(0x0010, 0x03)]) (fun t =>
      t.bus.ram.read 0x0010 == 0x01 && t.cpu.a == 0xFE && t.cpu.p == 0xA5 && cycled t 5) = true := by decide

/-- V2.8.4 -/
theorem test_rra :
    runs (start [0x67, 0x10] (regs 0x01 0x00 0x00 0xFD 0x25) [(0x0010, 0x02)]) (fun t =>
      t.bus.ram.read 0x0010 == 0x81 && t.cpu.a == 0x82 && t.cpu.p == 0xA4 && cycled t 5) = true := by decide

/-- V2.8.5 -/
theorem test_dcp :
    runs (start [0xC7, 0x10] (regs 0x05 0x00 0x00 0xFD 0x24) [(0x0010, 0x06)]) (fun t =>
      t.bus.ram.read 0x0010 == 0x05 && t.cpu.a == 0x05 && t.cpu.p == 0x27 && cycled t 5) = true := by decide

/-- V2.8.6 -/
theorem test_isb :
    runs (start [0xE7, 0x10] (regs 0x05 0x00 0x00 0xFD 0x25) []) (fun t =>
      t.bus.ram.read 0x0010 == 0x01 && t.cpu.a == 0x04 && t.cpu.p == 0x25 && cycled t 5) = true := by decide

/-- V2.8.7 -/
theorem test_sax :
    runs (start [0x87, 0x10] (regs 0xF0 0x3C 0x00 0xFD 0x24) []) (fun t =>
      t.bus.ram.read 0x0010 == 0x30 && t.cpu.p == 0x24 && cycled t 3) = true := by decide

/-- V2.8.8 -/
theorem test_lax :
    runs (start [0xA7, 0x10] (regs 0x00 0x00 0x00 0xFD 0x24) [(0x0010, 0x80)]) (fun t =>
      t.cpu.a == 0x80 && t.cpu.x == 0x80 && t.cpu.p == 0xA4 && cycled t 3) = true := by decide

/-- V2.8.9 -/
theorem test_anc :
    runs (start [0x0B, 0x80] (regs 0xFF 0x00 0x00 0xFD 0x24) []) (fun t =>
      t.cpu.a == 0x80 && t.cpu.p == 0xA5 && cycled t 2) = true := by decide

/-- V2.8.10 -/
theorem test_alr :
    runs (start [0x4B, 0x03] (regs 0xFF 0x00 0x00 0xFD 0x24) []) (fun t =>
      t.cpu.a == 0x01 && t.cpu.p == 0x25 && cycled t 2) = true := by decide

/-- V2.8.11 -/
theorem test_arr :
    runs (start [0x6B, 0xFF] (regs 0x80 0x00 0x00 0xFD 0x24) []) (fun t =>
      t.cpu.a == 0x40 && t.cpu.p == 0x65 && cycled t 2) = true := by decide

/-- V2.8.12 -/
theorem test_sbx :
    runs (start [0xCB, 0x05] (regs 0xFF 0x0F 0x00 0xFD 0x24) []) (fun t =>
      t.cpu.x == 0x0A && t.cpu.a == 0xFF && t.cpu.p == 0x25 && cycled t 2) = true := by decide

/-- V2.8.15 -/
theorem test_las :
    runs (start [0xBB, 0x00, 0x02] (regs 0x00 0x00 0x00 0xFD 0x24) [(0x0200, 0xF0)]) (fun t =>
      t.cpu.a == 0xF0 && t.cpu.x == 0xF0 && t.cpu.sp == 0xF0 && t.cpu.p == 0xA4 && cycled t 4) = true := by decide

/-- V2.8.16 -/
theorem test_tas :
    runs (start [0x9B, 0x00, 0x12] (regs 0xFF 0x0F 0x05 0xFD 0x24) []) (fun t =>
      t.cpu.sp == 0x0F && t.bus.ram.read 0x0205 == 0x03 && t.cpu.p == 0x24 && cycled t 5) = true := by decide

/-- V2.8.17: crossed -/
theorem test_sha :
    runs (start [0x9F, 0xF0, 0x12] (regs 0x0F 0xFF 0x20 0xFD 0x24) []) (fun t =>
      t.bus.ram.read 0x0310 == 0x03 && t.cpu.p == 0x24 && cycled t 5) = true := by decide

/-- V2.8.18 -/
theorem test_shx :
    runs (start [0x9E, 0x00, 0x02] (regs 0x00 0xFF 0x10 0xFD 0x24) []) (fun t =>
      t.bus.ram.read 0x0210 == 0x03 && t.cpu.p == 0x24 && cycled t 5) = true := by decide

/-- V2.8.19 -/
theorem test_shy :
    runs (start [0x9C, 0x00, 0x02] (regs 0x00 0x10 0xFF 0xFD 0x24) []) (fun t =>
      t.bus.ram.read 0x0210 == 0x03 && t.cpu.p == 0x24 && cycled t 5) = true := by decide

/-- V2.8.13, the fields that do not rest on the open parameter ANE_CONST -/
theorem test_ane :
    runs (start [0x8B, 0xFF] (regs 0x00 0xFF 0x00 0xFD 0x24) []) (fun t =>
      t.cpu.x == 0xFF && t.cpu.y == 0x00 && t.cpu.sp == 0xFD && t.cpu.pc == 0x8002 && cycled t 2) = true := by decide

/-- V2.8.14, the fields that do not rest on the open parameter LXA_CONST -/
theorem test_lxa :
    runs (start [0xAB, 0x0F] (regs 0x00 0x00 0x00 0xFD 0x24) []) (fun t =>
      t.cpu.y == 0x00 && t.cpu.sp == 0xFD && t.cpu.pc == 0x8002 && cycled t 2) = true := by decide

/-- V2.6.2: BRK at `$8000` with P = `$E3` and the BRK vector `$9000`. -/
theorem test_brk :
    runs (let s := start [0x00, 0xEA] (regs 0x00 0x00 0x00 0xFD 0xE3) []
          { s with bus := { s.bus with prg := s.bus.prg.write 0x7FFF 0x90 } }) (fun t =>
      t.bus.ram.read 0x01FD == 0x80 && t.bus.ram.read 0x01FC == 0x02 && t.bus.ram.read 0x01FB == 0xF3 && t.cpu.sp == 0xFA &&
      t.cpu.p == 0xE7 && t.cpu.pc == 0x9000 && cycled t 7) = true := by decide

/-- V2.8.23: JAM records its fault; PC and the master counter stay. -/
theorem test_jam :
    (match step (start [0x02] (regs 0x00 0x00 0x00 0xFD 0x24) []) with
      | .next t => t.cpu.run == .faulted ⟨.jam, 0x02, 0x8000⟩ && t.cpu.pc == 0x8000 && t.bus.cycles == 7
      | .fault _ => false
      | .refused _ => false) = true := by decide

/-! ### The PPU, the devices, interrupts -/

/-- V1.4: PPUADDR then PPUDATA. -/
theorem test_ppu_write :
    (memWrite 0x2007 0x66 (memWrite 0x2006 0x05 (memWrite 0x2006 0x23 State.reset))).ppu.vram = [(0x0305, 0x66)] ∧
    (memWrite 0x2007 0x66 (memWrite 0x2006 0x05 (memWrite 0x2006 0x23 State.reset))).ppu.v = 0x2306 := by decide

/-- V1.5: horizontal mirroring, and the read buffer. -/
theorem test_ppu_buffered_read :
    let s := memWrite 0x2007 0x66 (memWrite 0x2006 0x05 (memWrite 0x2006 0x24 State.reset))
    let r := memRead 0x2007 (memWrite 0x2006 0x05 (memWrite 0x2006 0x20 s))
    r.1 = 0x00 ∧ (memRead 0x2007 r.2).1 = 0x66 := by decide

/-- V2.10.4: PPUADDR's high byte is masked to 14 bits. -/
theorem test_ppuaddr_mask : (memWrite 0x2006 0xFF State.reset).ppu.v = 0x3F00 := by decide

/-- V2.10.3, V2.10.5: the palette, its mirrored entry, and the address's wrap. -/
theorem test_palette :
    (memWrite 0x2007 0x09 (memWrite 0x2006 0xFF (memWrite 0x2006 0x3F State.reset))).ppu.palette = [(0x1F, 0x09)] ∧
    (memWrite 0x2007 0x09 (memWrite 0x2006 0xFF (memWrite 0x2006 0x3F State.reset))).ppu.v = 0x0000 ∧
    (memWrite 0x2007 0x2A (memWrite 0x2006 0x10 (memWrite 0x2006 0x3F State.reset))).ppu.palette = [(0x00, 0x2A)] := by decide

/-- V2.10.1: PPUSTATUS clears vblank and the toggle; V2.10.11: PPUSCROLL. -/
theorem test_status_scroll :
    let s := State.reset.setPpu { State.reset.ppu with status := 0xC0, w := true }
    (memRead 0x200A s).1 = 0xC0 ∧ (memRead 0x200A s).2.ppu.status = 0x40 ∧ (memRead 0x200A s).2.ppu.w = false ∧
    (memWrite 0x2005 0x34 (memWrite 0x2005 0x12 State.reset)).ppu.scrollX = 0x12 ∧
    (memWrite 0x2005 0x34 (memWrite 0x2005 0x12 State.reset)).ppu.scrollY = 0x34 := by decide

/-- V2.10.10: the OAM cursor wraps on writes and stays on reads. -/
theorem test_oamdata :
    let s := memWrite 0x2004 0x22 (memWrite 0x2004 0x11 (memWrite 0x2003 0xFF State.reset))
    s.ppu.oam = [(0x00, 0x22), (0xFF, 0x11)] ∧ (memRead 0x2004 s).1 = 0x00 ∧ (memRead 0x2004 s).2.ppu.oamAddr = 0x01 := by decide

/-- V2.10.7-V2.10.9: nametable folding. -/
theorem test_mirroring :
    ntIndex .vertical 0x2805 = 0x005 ∧ ntIndex .horizontal 0x2C05 = 0x405 ∧ ntIndex .horizontal 0x3405 = 0x005 ∧
    ntIndex .vertical 0x2405 = 0x405 := by decide

/-- V2.9.2: the NMI request on PPUCTRL's edge. -/
theorem test_nmi_edge :
    let q := { State.reset.ppu with status := 0x80 }
    (writePpuCtrl q 0x80).nmiPending = true ∧ (writePpuCtrl { writePpuCtrl q 0x80 with nmiPending := false } 0x80).nmiPending = false ∧
    (writePpuCtrl State.reset.ppu 0x80).nmiPending = false := by decide

/-- V2.9.1: NMI entry and the instruction at its vector in one step. -/
theorem test_nmi_entry :
    runs (let s := start [] { regs 0x00 0x00 0x00 0xFD 0xA5 with pc := 0x8123 } []
          { s with
            ppu := { s.ppu with nmiPending := true }
            bus := { s.bus with prg := Memory.write [(0x1000, 0xEA)] 0x7FFB 0x90 } }) (fun t =>
      t.bus.ram.read 0x01FD == 0x81 && t.bus.ram.read 0x01FC == 0x23 && t.bus.ram.read 0x01FB == 0xA5 && t.cpu.sp == 0xFA &&
      t.cpu.p == 0xA5 && t.cpu.pc == 0x9001 && cycled t 9 && t.ppu.nmiPending == false) = true := by decide

/-- V1.7: a frame completes once, and the vblank bit is seen at scanline 241. -/
theorem test_ppu_framing :
    let q := { State.reset.ppu with cycle := 0 }
    (ppuTick (341 * 241) q).1.scanline = 241 ∧ (ppuTick (341 * 241) q).1.status = 0x80 ∧ (ppuTick (341 * 241) q).2 = false ∧
    (ppuTick 89342 q).1.scanline = 0 ∧ (ppuTick 89342 q).1.cycle = 0 ∧ (ppuTick 89342 q).2 = true := by decide +kernel

/-- V2.11.1: the sprite-0 hit. -/
theorem test_sprite0 :
    let s := State.reset.setPpu { State.reset.ppu with oam := [(3, 0x1E)], mask := 0x10 }
    (busTick 2 s).ppu.status = 0x00 ∧ (busTick 2 (busTick 2 s)).ppu.status = 0x40 := by decide

/-- D19, R560: a tick that wraps tests with the scanline it started on and the accumulated cycle, 344. -/
theorem test_sprite0_wrapping :
    let q := { State.reset.ppu with oam := [(0, 0x1E), (3, 0xFF)], mask := 0x10, scanline := 30, cycle := 338 }
    (ppuTick 6 q).1.status = 0x40 ∧ (ppuTick 6 q).1.scanline = 31 ∧ (ppuTick 6 q).1.cycle = 3 := by decide

/-- V2.12.1: the OAM DMA from page `$02` with the cursor at `$10`; its cycle count is an open parameter. -/
theorem test_oam_dma :
    let s := State.reset.setPpu { State.reset.ppu with oamAddr := 0x10 }
    let t := memWrite 0x4014 0x02 { s with bus := { s.bus with ram := [(0x0201, 0x01), (0x02FF, 0xFF)] } }
    t.ppu.oam = [(0x0F, 0xFF), (0x11, 0x01)] ∧ t.ppu.oamAddr = 0x10 := by decide +kernel

/-- V2.12.2: ten controller reads, and the held strobe. -/
theorem test_controller :
    let s := setButtons 0x09 State.reset
    (readTimes 10 0x4016 (memWrite 0x4016 0x00 (memWrite 0x4016 0x01 s))).1 =
      [0x01, 0x00, 0x00, 0x01, 0x00, 0x00, 0x00, 0x00, 0x01, 0x01] ∧
    (readTimes 3 0x4016 (memWrite 0x4016 0x01 s)).1 = [0x01, 0x01, 0x01] ∧ (memRead 0x4017 s).1 = 0x00 := by decide

/-- V2.12.3: the memory map. -/
theorem test_memory_map :
    (memWrite 0x0800 0xAB State.reset).bus.ram = [(0x0000, 0xAB)] ∧ (memRead 0x1800 (memWrite 0x0800 0xAB State.reset)).1 = 0xAB ∧
    (memRead 0x4000 State.reset).1 = 0x00 ∧ (memRead 0x4014 State.reset).1 = 0x00 ∧ (memRead 0x5000 State.reset).1 = 0x00 ∧
    memWrite 0x8000 0x12 State.reset = State.reset ∧ prgOffset .k16 0x8001 = prgOffset .k16 0xC001 ∧
    prgOffset .k16 0xFFFC = 0x3FFC := by decide

/-- V1.6: a word pushed at S = `$00` wraps, and comes back. -/
theorem test_push16 :
    let s := State.reset.setSp 0x00
    (push16 0xABCD s).bus.ram = [(0x0100, 0xAB), (0x01FF, 0xCD)] ∧ (push16 0xABCD s).cpu.sp = 0xFE ∧
    (pull16 (push16 0xABCD s)).1 = 0xABCD := by decide

/-- V1.8: the flag rule. -/
theorem test_setZN :
    setZN 0x24 0x00 = 0x26 ∧ setZN 0x24 0x01 = 0x24 ∧ setZN 0x24 0x7F = 0x24 ∧ setZN 0x26 0x80 = 0xA4 ∧ setZN 0xA6 0xFF = 0xA4 := by decide

/-! ### Reset and the host's placing of an instruction -/

theorem ofBytesFrom_zeros : ∀ n a, Memory.ofBytesFrom a (List.replicate n 0x00) = []
  | 0, _ => rfl
  | n + 1, a => by
    rw [List.replicate_succ, Memory.ofBytesFrom, ofBytesFrom_zeros n]
    rfl

/-- `State.reset` is the construction from a blank 32 KiB cartridge (logs 1 and 2). -/
theorem test_reset_is_blank_cartridge :
    construct ⟨List.replicate 32768 0x00, List.replicate 8192 0x00, .horizontal⟩ PowerOn.reference = .next State.reset := by
  simp only [construct, constructed, prgSizeOf, List.length_replicate, Memory.ofBytes, ofBytesFrom_zeros]
  rfl

/-- A cartridge of a wrong size is refused (60 R502). -/
theorem test_bad_cartridge : construct ⟨[0x00], [], .horizontal⟩ PowerOn.reference = .refused .badCartridge := rfl

/-- The step after `withFetchWord` runs that instruction. -/
theorem test_withFetchWord :
    runs (State.reset.withFetchWord 16 0x80A9) (fun t => t.cpu.a == 0x80 && t.cpu.pc == 0x0002 && cycled t 2) = true := by decide

/-! ### Witnesses: a state and operands that meet the hypotheses of each statement, at the ends of each clause's range -/

theorem witness_DecodeInvertsEncode :
    (Instr.lda (.imm 0x05)).wf = true ∧ (Instr.nop 0xFC (.absx 0xFFFF)).wf = true ∧ Instr.brk.wf = true := by decide

theorem witness_EncodeInvertsDecode :
    decode (0xA9 :: [0x05, 0x07]) = .ok (.lda (.imm 0x05)) [0x07] ∧ decode (0x00 :: [0xEA, 0x07]) = .ok .brk [0x07] := by decide

theorem witness_StepRunsDecodedInstruction :
    let s := start [0x4C, 0x34, 0x12] (regs 0x00 0x00 0x00 0xFD 0x24) []
    s.cpu.run = .running ∧ [0x34, 0x12].length + 1 = fetchLength 0x4C ∧ peek (serviceNmi s) (serviceNmi s).cpu.pc = some 0x4C ∧
    (∀ k, k < [(0x34 : Byte), 0x12].length →
      peek (serviceNmi s) ((serviceNmi s).cpu.pc + 1 + BitVec.ofNat 16 k) = [(0x34 : Byte), 0x12][k]?) ∧
    decode (0x4C :: [0x34, 0x12]) = .ok (.jmp (.abs 0x1234)) [] ∧
    decode ((memRead 0x8000 (serviceNmi s)).1 :: (readBytes 2 0x8001 (memRead 0x8000 (serviceNmi s)).2).1) = .ok (.jmp (.abs 0x1234)) [] := by decide

theorem witness_RunningMachineAlwaysSteps :
    State.reset.cpu.run = .running := by decide

theorem witness_FaultedMachineHasNoStep :
    (State.reset.setRun (.faulted ⟨.jam, 0x02, 0x8000⟩)).cpu.run = .faulted ⟨.jam, 0x02, 0x8000⟩ := by decide

/-- For OnlyJamFaults: a step that gives a faulted state. -/
theorem witness_OnlyJamFaults :
    ∃ s t : State, ∃ r, step s = .next t ∧ t.cpu.run = .faulted r :=
  ⟨start [0xF2] (regs 0x00 0x00 0x00 0xFD 0x24) [], _, ⟨.jam, 0xF2, 0x8000⟩, rfl, by decide⟩

/-- For StepKeepsLegalState, CartridgeNeverChanges and CompletedStepAdvancesClock: a legal state whose step completes. -/
theorem witness_StepKeepsLegalState :
    (start [0xA9, 0x05] (regs 0x00 0x00 0x00 0xFD 0x24) []).inv = true ∧
    runs (start [0xA9, 0x05] (regs 0x00 0x00 0x00 0xFD 0x24) []) (fun t => t.inv) = true := by decide

theorem witness_ConstructionResets :
    (List.replicate 16384 (0x00 : Byte)).length = 16384 ∧ (List.replicate 32768 (0x00 : Byte)).length = 32768 ∧
    (List.replicate 8192 (0x00 : Byte)).length = 8192 ∧ ¬ ((([] : List Byte).length = 16384 ∨ ([] : List Byte).length = 32768) ∧
      ([] : List Byte).length = 8192) := by exact ⟨List.length_replicate, List.length_replicate, List.length_replicate, by decide⟩

theorem witness_NmiIsTakenAtTheBoundary :
    State.reset.ppu.nmiPending = false ∧ (State.reset.setPpu { State.reset.ppu with nmiPending := true }).ppu.nmiPending = true := by decide

theorem witness_InterruptRoundTrip :
    State.reset.bus.ram.wf = true ∧ getFlag State.reset.cpu.p .u = true ∧ getFlag State.reset.cpu.p .b = false ∧
    (0x8000 : Word) ≤ brkVector ∧ brkVector < 0xFFFF ∧ (0x8000 : Word) ≤ 0x8000 ∧ (0xFFFE : Word) < 0xFFFF := by decide

theorem witness_PulledStatusInvertsPushed :
    (0x24 : Byte) &&& 0x30 = 0x20 ∧ (0xEF : Byte) &&& 0x30 = 0x20 := by decide

theorem witness_RamIsMirrored :
    (0x0000 : Word) < 0x2000 ∧ (0x1FFF : Word) < 0x2000 := by decide

theorem witness_PpuWindowIsMirrored :
    (0x2000 : Word) ≤ 0x2000 ∧ (0x2000 : Word) < 0x4000 ∧ (0x2000 : Word) ≤ 0x3FFF ∧ (0x3FFF : Word) < 0x4000 := by decide

theorem witness_ReservedIoReadsZero :
    ((0x4000 : Word) ≤ 0x4000 ∧ (0x4000 : Word) ≤ 0x4015) ∧ ((0x4000 : Word) ≤ 0x4015 ∧ (0x4015 : Word) ≠ 0x4014) ∧
    ((0x4000 : Word) ≤ 0x4014 ∧ (0x4014 : Word) ≤ 0x4015) ∧ ¬ (0x4016 : Word) ≤ 0x4015 := by decide

theorem witness_RomWriteChangesNothing :
    (0x8000 : Word) ≤ 0x8000 ∧ (0x8000 : Word) ≤ 0xFFFF := by decide

theorem witness_UpperMapReads :
    ((0x4018 : Word) ≤ 0x4018 ∧ (0x4018 : Word) < 0x8000) ∧ ((0x4018 : Word) ≤ 0x7FFF ∧ (0x7FFF : Word) < 0x8000) ∧
    State.reset.bus.prgSize = .k32 ∧ ({ State.reset.bus with prgSize := .k16 }).prgSize = .k16 ∧ (0x8000 : Word) ≤ 0xC000 := by decide

theorem witness_StoredByteReadsBack :
    State.reset.bus.ram.wf = true ∧ (0x1FFF : Word) < 0x2000 ∧ (0x07FF : Word).toNat % 2048 = (0x1FFF : Word).toNat % 2048 := by decide

theorem witness_WriteFrame :
    ¬ (0x2000 : Word) < 0x2000 ∧ ¬ ((0x2000 : Word) ≤ 0x1FFF ∧ (0x1FFF : Word) < 0x4000) ∧ ¬ ((0x2000 : Word) ≤ 0x4000 ∧ (0x4000 : Word) < 0x4000) ∧
    (0x4015 : Word) ≠ 0x4014 ∧ (0x4015 : Word) ≠ 0x4016 := by decide

theorem witness_ReadSideEffects :
    ((0x1FFF : Word) < 0x2000 ∨ (0x4000 : Word) ≤ 0x1FFF) ∧ ((0x4000 : Word) < 0x2000 ∨ (0x4000 : Word) ≤ 0x4000) ∧ (0x4000 : Word) ≠ 0x4016 ∧
    ((0x2000 : Word) ≤ 0x3FFC ∧ (0x3FFC : Word) < 0x4000 ∧ (0x3FFC : Word) &&& 7 = 4) ∧
    ((0x2000 : Word) ≤ 0x2000 ∧ (0x2000 : Word) &&& 7 ≠ 2 ∧ (0x2000 : Word) &&& 7 ≠ 4 ∧ (0x2000 : Word) &&& 7 ≠ 7) := by decide

theorem witness_Push16Pull16RoundTrip :
    (State.reset.setSp 0x00).bus.ram.wf = true ∧ 3 ≠ 256 + (State.reset.setSp 0x00).cpu.sp.toNat ∧ 3 ≠ 256 + ((State.reset.setSp 0x00).cpu.sp - 1).toNat := by decide

/-- For EffectiveAddresses, its last two clauses: an indexed read that leaves its page, to RAM and to a device. -/
theorem witness_EffectiveAddresses :
    let s := start [] (regs 0x00 0x01 0x00 0xFD 0x24) [(0x0300, 0x33)]
    (Operand.absx 0x02FF).mode ≠ .ind ∧ resolve (.absx 0x02FF) s = some ⟨0x0300, 0x02FF, true, s⟩ ∧ peek s 0x0300 = some 0x33 ∧
    (Operand.absx 0x1FFF).mode ≠ .ind ∧ resolve (.absx 0x1FFF) s = some ⟨0x2000, 0x1FFF, true, s⟩ ∧ peek s 0x2000 = none ∧
    resolve (.abs 0x2007) s = some ⟨0x2007, 0x2007, false, s⟩ := by decide

theorem witness_LoadsComplete :
    (Instr.lda (.indy 0xFF)).wf = true ∧
    (Instr.lda (.imm 0x00)).wf = true ∧
    (Instr.ldx (.zpy 0xFF)).wf = true ∧
    (Instr.ldy (.absx 0xFFFF)).wf = true ∧
    (Instr.lax (.absy 0xFFFF)).wf = true := by decide

theorem witness_StoresComplete :
    (Instr.sta (.indx 0xFF)).wf = true ∧
    (Instr.stx (.zpy 0xFF)).wf = true ∧
    (Instr.sty (.abs 0x4014)).wf = true ∧
    (Instr.sax (.zpy 0xFF)).wf = true := by decide

theorem witness_LogicalsAndComparesComplete :
    (Instr.and (.imm 0xFF)).wf = true ∧
    (Instr.ora (.indy 0xFF)).wf = true ∧
    (Instr.eor (.zpx 0xFF)).wf = true ∧
    (Instr.cmp (.absy 0xFFFF)).wf = true ∧
    (Instr.cpx (.imm 0xFF)).wf = true ∧
    (Instr.cpy (.abs 0x2002)).wf = true ∧
    (Instr.bit (.zp 0xFF)).wf = true := by decide

theorem witness_AddAndSubtractComplete :
    (Instr.adc (.imm 0xFF)).wf = true ∧
    (Instr.sbc (.indx 0xFF)).wf = true := by decide

theorem witness_MemoryCountersComplete :
    (Instr.inc (.absx 0xFFFF)).wf = true ∧
    (Instr.dec (.zpx 0xFF)).wf = true := by decide

theorem witness_ShiftsComplete :
    (Operand.absx 0xFFFF).mode ≠ .acc ∧
    (Instr.asl (.absx 0xFFFF)).wf = true ∧
    (Instr.lsr (.absx 0xFFFF)).wf = true ∧
    (Instr.rol (.absx 0xFFFF)).wf = true ∧
    (Instr.ror (.absx 0xFFFF)).wf = true := by decide

theorem witness_CompositesComplete :
    (Instr.slo (.indy 0xFF)).wf = true ∧
    (Instr.rla (.indy 0xFF)).wf = true ∧
    (Instr.sre (.indy 0xFF)).wf = true ∧
    (Instr.rra (.indy 0xFF)).wf = true ∧
    (Instr.dcp (.indy 0xFF)).wf = true ∧
    (Instr.isb (.indy 0xFF)).wf = true := by decide

theorem witness_NopCompletes :
    (Instr.nop 0x04 (.zp 0xFF)).wf = true ∧ (Instr.nop 0x04 (.zp 0xFF)).wf = true ∧ (Operand.zp 0xFF).mode ≠ .impl := by decide

/-- For JmpCompletes: a pointer at the end of its page, in RAM. -/
theorem witness_JmpCompletes :
    let s := start [] (regs 0x00 0x00 0x00 0xFD 0x24) [(0x0200, 0x12), (0x02FF, 0x34)]
    peek s 0x02FF = some 0x34 ∧ peek s (joinBytes (hiByte 0x02FF) (loByte 0x02FF + 1)) = some 0x12 := by decide

theorem witness_PpuRegisterAccesses :
    State.reset.ppu.w = false ∧ (State.reset.setPpu { State.reset.ppu with w := true }).ppu.w = true := by decide

theorem witness_PpuDataPort :
    ({ State.reset.ppu with v := 0x3EFF }).v < 0x3F00 ∧ (0x3F00 : Word) ≤ ({ State.reset.ppu with v := 0x3F00 }).v := by decide

/-- For PpuAddressSpace: the first and last address of each region, and two addresses of one cell. -/
theorem witness_PpuAddressSpace :
    State.reset.ppu.vram.wf = true ∧ State.reset.ppu.palette.wf = true ∧
    ((0x0000 : Word) < 0x2000 ∧ (0x1FFF : Word) < 0x2000 ∧ (0x3F00 : Word) ≤ 0x3F00 ∧ (0x3F00 : Word) ≤ 0x3FFF) ∧
    ((0x2000 : Word) ≤ 0x2000 ∧ (0x2000 : Word) < 0x3F00 ∧ (0x2000 : Word) ≤ 0x3EFF ∧ (0x3EFF : Word) < 0x3F00) ∧
    ntIndex .horizontal 0x2000 = ntIndex .horizontal 0x2400 ∧ paletteIndex 0x3F00 = paletteIndex 0x3F10 := by decide

theorem witness_TickIsAModularClock :
    ({ State.reset.ppu with scanline := 261, cycle := 340 }).scanline < 262 ∧ ({ State.reset.ppu with scanline := 261, cycle := 340 }).cycle < 341 := by decide

theorem witness_VblankBegins :
    ({ State.reset.ppu with scanline := 240, cycle := 340 }).scanline = 240 ∧ 341 ≤ 340 + 1 ∧ 340 + 341 < 682 := by decide

theorem witness_FrameEnds :
    ({ State.reset.ppu with scanline := 261, cycle := 340 }).scanline = 261 ∧ 341 ≤ 340 + 1 ∧ 340 + 341 < 682 := by decide

/-- For SpriteZeroTest, clause by clause: no wrap; wraps up to scanline 240, and from 241 up to 261; a wrap to 241, and to 261; the frame's
end, and scanline 240 of the next frame. -/
theorem witness_SpriteZeroTest :
    State.reset.ppu.cycle + 319 < 341 ∧
    (239 + (340 + 341) / 341 < 241 ∧ 241 ≤ 241 ∧ 241 + (340 + 341 * 20) / 341 < 262) ∧
    (240 < 241 ∧ 241 ≤ 240 + (340 + 1) / 341 ∧ 240 + (340 + 1) / 341 < 262 ∧ 240 + (340 + 341 * 21) / 341 < 262) ∧
    (261 < 262 ∧ 262 ≤ 261 + (340 + 1) / 341 ∧ 261 + (340 + 1) / 341 < 503 ∧ 261 + (340 + 341 * 241) / 341 < 503) := by decide

theorem witness_BusTickForwardsClock :
    (ppuTick (3 * 2) State.reset.ppu).2 = false ∧
    (ppuTick (3 * 2) { State.reset.ppu with scanline := 261, cycle := 340 }).2 = true := by decide

/-- For OamDmaCopiesAPage: the first and last page of each clause. -/
theorem witness_OamDmaCopiesAPage :
    (0x00 : Byte) < 0x20 ∧ (0x1F : Byte) < 0x20 ∧ (0x80 : Byte) ≤ 0x80 ∧ (0x80 : Byte) ≤ 0xFF ∧
    ((0x41 : Byte) ≤ 0x41 ∧ (0x41 : Byte) < 0x80) ∧ ((0x41 : Byte) ≤ 0x7F ∧ (0x7F : Byte) < 0x80) ∧
    (0x40 : Byte) = 0x40 ∧ 0x16 < 256 ∧ State.reset.ppu.oam.wf = true := by decide

end Sys2Proof.Tests
end

section
/-! PROOFS. Construction (70 R600-R603, 60 R502): the machine that a legal cartridge gives, written out, and what its memories read as. -/

namespace Sys2Proof.Machine

/-! ### The legal sizes -/

/-- The PRG size of a legal length is that length (10 R71, 60 R502). -/
theorem prgLength_of_prgSizeOf {n : Nat} {z : PrgSize} (h : prgSizeOf n = some z) : prgLength z = n := by
  unfold prgSizeOf at h
  split at h
  case isTrue h16 =>
    obtain rfl := Option.some.inj h
    exact h16.symm
  case isFalse =>
    obtain ⟨h32, hz⟩ := Option.ite_none_right_eq_some.mp h
    obtain rfl := Option.some.inj hz
    exact h32.symm

theorem prgSizeOf_eq_none {n : Nat} (h : ¬ (n = 16384 ∨ n = 32768)) : prgSizeOf n = none := by
  obtain ⟨h16, h32⟩ := not_or.mp h
  rw [prgSizeOf, if_neg h16, if_neg h32]

theorem exists_prgSizeOf {n : Nat} (h : n = 16384 ∨ n = 32768) : ∃ z, prgSizeOf n = some z := by
  obtain rfl | rfl := h
  · exact ⟨.k16, rfl⟩
  · exact ⟨.k32, rfl⟩

/-! ### The memory of a byte list -/

theorem ofBytes_wf (vs : List Byte) : (Memory.ofBytes vs).wf = true := ofBytesFrom_wf vs 0

theorem ofBytes_below {n : Nat} {vs : List Byte} (h : vs.length ≤ n) : (Memory.ofBytes vs).below n = true :=
  ofBytesFrom_below n vs 0 (by omega)

theorem ofBytes_take_below (n : Nat) (vs : List Byte) : (Memory.ofBytes (vs.take n)).below n = true :=
  ofBytes_below (List.length_take_le n vs)

theorem some_ofBytes_read {vs : List Byte} {i : Nat} (h : i < vs.length) : some ((Memory.ofBytes vs).read i) = vs[i]? := by
  have hread := ofBytesFrom_read vs 0 i h
  rw [Nat.zero_add] at hread
  rw [Memory.ofBytes, hread, List.getD_eq_getElem _ _ h, List.getElem?_eq_getElem h]

/-! ### A tick that stays in its scanline -/

/-- With sprites hidden there is no sprite-0 hit (60 R561). -/
theorem sprite0Check_of_hidden {q : Ppu} (h : q.mask.getLsbD 4 = false) : sprite0Check q = q :=
  if_neg fun ⟨_, _, hshown⟩ => Bool.false_ne_true (h.symm.trans hshown)

/-- With sprites hidden, a tick inside a scanline only moves the cycle (60 R560). -/
theorem ppuTick_of_hidden_in_line {n : Nat} {q : Ppu} (hmask : q.mask.getLsbD 4 = false) (hline : q.cycle + n < 341) :
    ppuTick n q = ({ q with cycle := q.cycle + n }, false) := by
  have hsprite : sprite0Check { q with cycle := q.cycle + n } = { q with cycle := q.cycle + n } := sprite0Check_of_hidden hmask
  have hturns : (q.cycle + n) / dotsPerLine = 0 := Nat.div_eq_of_lt hline
  simp only [ppuTick, hsprite, hturns, wrapScanlines]

/-- A Bus tick in which no frame ends calls no host back (60 R565). -/
theorem busTick_of_no_frame {c : Nat} {s : State} {q : Ppu} (h : ppuTick (3 * c) s.ppu = (q, false)) :
    busTick c s = { s with ppu := q, bus := { s.bus with cycles := s.bus.cycles + c } } := by
  simp [busTick, ppuRatio, h]

/-! ### The constructed machine -/

/-- The machine that construction gives: the construction values, PC from the reset vector, and the reset's 7 CPU cycles ticked
(70 R600-R603). -/
def afterReset (z : PrgSize) (c : Cartridge) (m : PowerOn) : State :=
  let s := constructed z c m
  { s with
    cpu := { s.cpu with pc := joinBytes (s.bus.prgByte 0xFFFD) (s.bus.prgByte 0xFFFC) }
    ppu := { s.ppu with cycle := 21 }
    bus := { s.bus with cycles := 7 } }

/-- Construction from legal sizes gives `afterReset`: the vector is a word of PRG ROM, and the reset's tick ends no scanline. -/
theorem construct_eq_afterReset {z : PrgSize} {c : Cartridge} (m : PowerOn) (hprg : prgSizeOf c.prg.length = some z)
    (hchr : c.chr.length = 8192) : construct c m = .next (afterReset z c m) := by
  have hvector : read16 resetVector (constructed z c m) =
      (joinBytes ((constructed z c m).bus.prgByte 0xFFFD) ((constructed z c m).bus.prgByte 0xFFFC), constructed z c m) :=
    read16_prg (by decide) (by decide) _
  have htick : ppuTick (3 * resetCycles) (constructed z c m).ppu = ({ (constructed z c m).ppu with cycle := 21 }, false) :=
    ppuTick_of_hidden_in_line (n := 21) (show (0x00 : Byte).getLsbD 4 = false by decide) (show 0 + 21 < 341 by decide)
  rw [construct, hprg]
  simp only [if_pos hchr, hvector]
  exact congrArg Host.Outcome.next (busTick_of_no_frame (s := (constructed z c m).setPc _) htick)

/-- Construction refuses a cartridge of any other sizes (60 R502, D18). -/
theorem construct_eq_refused {c : Cartridge} (m : PowerOn)
    (h : ¬ ((c.prg.length = 16384 ∨ c.prg.length = 32768) ∧ c.chr.length = 8192)) : construct c m = .refused .badCartridge := by
  by_cases hprg : c.prg.length = 16384 ∨ c.prg.length = 32768
  · obtain ⟨z, hz⟩ := exists_prgSizeOf hprg
    have hchr : c.chr.length ≠ 8192 := fun hchr => h ⟨hprg, hchr⟩
    rw [construct, hz]
    exact if_neg hchr
  · rw [construct, prgSizeOf_eq_none hprg]

theorem afterReset_ppuLegal (z : PrgSize) {c : Cartridge} (m : PowerOn) (hchr : c.chr.length = 8192) :
    PpuLegal (afterReset z c m).ppu where
  v_lt := show (0x0000 : Word) < 0x4000 by decide
  scanline_lt := show 0 < 262 by decide
  cycle_lt := show 21 < 341 by decide
  status_low := show (0x00 : Byte) &&& 0x3F = 0x00 by decide
  oam_wf := ofBytes_wf _
  oam_below := ofBytes_take_below _ _
  vram_wf := ofBytes_wf _
  vram_below := ofBytes_take_below _ _
  palette_wf := ofBytes_wf _
  palette_below := ofBytes_take_below _ _
  chr_wf := ofBytes_wf _
  chr_below := ofBytes_below hchr.le

/-- The constructed machine is legal. -/
theorem afterReset_inv {z : PrgSize} {c : Cartridge} (m : PowerOn) (hprg : prgLength z = c.prg.length) (hchr : c.chr.length = 8192) :
    (afterReset z c m).inv = true :=
  (inv_iff _).mpr ⟨{
    flagU := show getFlag 0x24 .u = true by decide
    flagB := show getFlag 0x24 .b = false by decide
    ppu := afterReset_ppuLegal z m hchr
    ram_wf := ofBytes_wf _
    ram_below := ofBytes_take_below _ _
    prg_wf := ofBytes_wf _
    prg_below := ofBytes_below hprg.ge
    index_le := Nat.zero_le _ }, rfl⟩

/-- Settles O14: a legal cartridge gives `afterReset`, whose registers are R90's and whose memories are the lists'; the sizes that are
left are refused. -/
theorem constructionResets : Obligations.ConstructionResets := by
  intro c m
  refine ⟨fun hprg hchr => ?_, construct_eq_refused m⟩
  obtain ⟨z, hz⟩ := exists_prgSizeOf hprg
  have hlen : prgLength z = c.prg.length := prgLength_of_prgSizeOf hz
  have hprgBytes : ∀ k, k < c.prg.length → some ((afterReset z c m).bus.prg.read k) = c.prg[k]? := fun _ hk => some_ofBytes_read hk
  have hchrBytes : ∀ k, k < 8192 → some ((afterReset z c m).ppu.chr.read k) = c.chr[k]? :=
    fun _ hk => some_ofBytes_read (hchr ▸ hk)
  exact ⟨afterReset z c m, construct_eq_afterReset m hz hchr, afterReset_inv m hlen hchr, rfl, hlen, hprgBytes, hchrBytes, rfl, rfl, rfl,
    rfl, fun _ => ofBytes_take_read m.ram, fun _ => ofBytes_take_read m.vram, fun _ => ofBytes_take_read m.oam,
    fun _ => ofBytes_take_read m.palette, rfl, rfl, rfl, rfl, rfl, rfl, rfl, rfl, rfl, rfl, rfl⟩

end Sys2Proof.Machine
end

section
/-! PROOFS. The status byte (10 R36-R42): the spec's masks of P read as flags, `SetZN`, and the pushed and pulled images. -/

namespace Sys2Proof.Machine

/-! ### Masks -/

theorem getFlag_and (p m : Byte) (f : Flag) : getFlag (p &&& m) f = (getFlag p f && getFlag m f) := BitVec.getLsbD_and

/-- Bytes that agree in the flags a mask selects are equal under the mask. -/
theorem and_eq_and_of_flags {p q m : Byte} (h : ∀ f, getFlag m f = true → getFlag p f = getFlag q f) : p &&& m = q &&& m := by
  refine eq_of_flags fun f => ?_
  rw [getFlag_and, getFlag_and]
  cases hm : getFlag m f with
  | false => rw [Bool.and_false, Bool.and_false]
  | true => rw [h f hm]

/-- A flag is set where P under the flag's own mask is not 0. -/
theorem and_twoPow_ne_zero_iff (p : Byte) (f : Flag) : p &&& BitVec.twoPow 8 (flagBit f) ≠ 0 ↔ getFlag p f = true := by
  have hbit : BitVec.twoPow 8 (flagBit f) ≠ 0 := by cases f <;> decide
  rw [BitVec.and_twoPow, ← getFlag]
  cases getFlag p f with
  | false => simp
  | true => simpa using hbit

/-- The mask `$30` selects U and B. -/
theorem eq_u_or_b_of_mask30 {f : Flag} (h : getFlag 0x30 f = true) : f = .u ∨ f = .b := by
  cases f <;> revert h <;> decide

/-- The mask `$CF` selects neither U nor B. -/
theorem ne_u_and_ne_b_of_maskCF {f : Flag} (h : getFlag 0xCF f = true) : f ≠ .u ∧ f ≠ .b := by
  cases f <;> revert h <;> decide

/-- The mask `$7D` selects neither Z nor N. -/
theorem ne_n_and_ne_z_of_mask7D {f : Flag} (h : getFlag 0x7D f = true) : f ≠ .n ∧ f ≠ .z := by
  cases f <;> revert h <;> decide

/-! ### `SetZN` -/

/-- Settles O19: `SetZN`'s three clauses are what it does to Z, to N and to any other flag. -/
theorem setZnRule : Obligations.SetZnRule := by
  intro p v
  have hz : getFlag (setZN p v) .z = (v == 0) := getFlag_setZN p v .z
  have hn : getFlag (setZN p v) .n = getFlag v .n := (getFlag_setZN p v .n).trans (BitVec.msb_eq_getLsbD_last v)
  refine ⟨?_, ?_, and_eq_and_of_flags fun f hf => ?_⟩
  · exact (and_twoPow_ne_zero_iff _ .z).trans (by rw [hz, beq_iff_eq])
  · exact (and_twoPow_ne_zero_iff _ .n).trans (by rw [hn]; exact (and_twoPow_ne_zero_iff v .n).symm)
  · obtain ⟨hfn, hfz⟩ := ne_n_and_ne_z_of_mask7D hf
    rw [getFlag_setZN, if_neg hfn, if_neg hfz]

/-! ### The pushed and the pulled image -/

/-- A P with U = 1 and B = 0, as at every boundary, is loaded back from its pushed image unchanged, whatever B the push set
(10 R37, R41, R42). -/
theorem pulledStatus_pushImage {p : Byte} (hu : getFlag p .u = true) (hb : getFlag p .b = false) (brk : Bool) :
    pulledStatus (pushImage p brk) = p := by
  refine eq_of_flags fun f => ?_
  rw [getFlag_pulledStatus, getFlag_pushImage]
  by_cases hfu : f = .u
  · rw [if_pos hfu, hfu, hu]
  · by_cases hfb : f = .b
    · rw [if_neg hfu, if_pos hfb, hfb, hb]
    · simp only [if_neg hfu, if_neg hfb]

/-- U and B of a P whose bits 5 and 4 are 1 and 0. -/
theorem getFlag_u_b_of_and_eq {p : Byte} (h : p &&& 0x30 = 0x20) : getFlag p .u = true ∧ getFlag p .b = false := by
  have hmask (f : Flag) : (getFlag p f && getFlag 0x30 f) = getFlag 0x20 f := by rw [← getFlag_and, h]
  exact ⟨(Bool.and_true _).symm.trans (hmask .u), (Bool.and_true _).symm.trans (hmask .b)⟩

/-- Settles O20: the mask `$30` shows the forced U and B of either image, the mask `$CF` the flags that both keep. -/
theorem pulledStatusInvertsPushed : Obligations.PulledStatusInvertsPushed := by
  intro p brk
  refine ⟨?_, and_eq_and_of_flags fun f hf => ?_, ?_, and_eq_and_of_flags fun f hf => ?_, fun h => ?_⟩
  · refine Eq.trans (and_eq_and_of_flags (q := if brk then 0x30 else 0x20) fun f hf => ?_) (by cases brk <;> decide)
    obtain rfl | rfl := eq_u_or_b_of_mask30 hf
    · exact (getFlag_pushImage p brk .u).trans (by cases brk <;> rfl)
    · exact (getFlag_pushImage p brk .b).trans (by cases brk <;> rfl)
  · obtain ⟨hu, hb⟩ := ne_u_and_ne_b_of_maskCF hf
    rw [getFlag_pushImage, if_neg hu, if_neg hb]
  · refine Eq.trans (and_eq_and_of_flags (q := 0x20) fun f hf => ?_) (by decide)
    obtain rfl | rfl := eq_u_or_b_of_mask30 hf
    · exact getFlag_pulledStatus p .u
    · exact getFlag_pulledStatus p .b
  · obtain ⟨hu, hb⟩ := ne_u_and_ne_b_of_maskCF hf
    rw [getFlag_pulledStatus, if_neg hu, if_neg hb]
  · obtain ⟨hu, hb⟩ := getFlag_u_b_of_and_eq h
    exact pulledStatus_pushImage hu hb brk

end Sys2Proof.Machine
end

section
/-! PROOFS. The adder as arithmetic of naturals (42 R300), subtraction through it (42 R303), and that it does not look at D (10 R38). -/

namespace Sys2Proof.Machine

/-- The 9-bit sum does not wrap. -/
theorem sum9_toNat (a m : Byte) (c : Bool) : (sum9 a m c).toNat = a.toNat + m.toNat + c.toNat := by
  have ha := a.isLt
  have hm := m.isLt
  have hc := c.toNat_le
  simp only [sum9, BitVec.toNat_add, BitVec.toNat_setWidth, BitVec.toNat_ofBool]
  omega

theorem addResult_toNat (a m : Byte) (c : Bool) : (addResult a m c).toNat = (a.toNat + m.toNat + c.toNat) % 256 := by
  rw [addResult, BitVec.toNat_setWidth, sum9_toNat]

/-- The carry out says that the sum exceeds a byte. -/
theorem addCarry_iff (a m : Byte) (c : Bool) : addCarry a m c = true ↔ 255 < a.toNat + m.toNat + c.toNat := by
  have ha := a.isLt
  have hm := m.isLt
  have hc := c.toNat_le
  rw [addCarry, BitVec.getLsbD, sum9_toNat, Nat.testBit_eq_decide_div_mod_eq, decide_eq_true_eq]
  omega

/-- Adding the complement subtracts the operand and the borrow `1 - C` (42 R303). -/
theorem addResult_not (a m : Byte) (c : Bool) : addResult a (~~~m) c = a - m - (if c then 0 else 1) := by
  have hm := m.isLt
  apply BitVec.eq_of_toNat_eq
  rw [addResult_toNat, BitVec.toNat_not]
  cases c <;> simp [BitVec.toNat_sub] <;> omega

/-- The carry of a subtraction says that no borrow occurred (42 R303). -/
theorem addCarry_not_iff (a m : Byte) (c : Bool) : addCarry a (~~~m) c = true ↔ m.toNat + (if c then 0 else 1) ≤ a.toNat := by
  have hm := m.isLt
  rw [addCarry_iff, BitVec.toNat_not]
  cases c <;> simp <;> omega

/-- The flags of an addition do not depend on D, and keep it (10 R38). -/
theorem addFlags_setFlag_d (p a m : Byte) (d : Bool) : addFlags (setFlag p .d d) a m = setFlag (addFlags p a m) .d d := by
  have hc : getFlag (setFlag p .d d) .c = getFlag p .c := getFlag_setFlag_other p d (by decide)
  refine eq_of_flags fun f => ?_
  rw [getFlag_addFlags, hc]
  cases f
  case d => exact (getFlag_setFlag_same p .d d).trans (getFlag_setFlag_same _ .d d).symm
  all_goals simp [getFlag_setFlag, getFlag_addFlags]

/-- Settles O22: the complemented addition in naturals, and the adder's result and flags with D changed. -/
theorem subtractionAndDecimalFlag : Obligations.SubtractionAndDecimalFlag := by
  refine ⟨fun a m c => ⟨addResult_not a m c, addCarry_not_iff a m c⟩, fun s m d => ?_⟩
  have hc : getFlag (setFlag s.cpu.p .d d) .c = getFlag s.cpu.p .c := getFlag_setFlag_other _ d (by decide)
  simp only [State.add8, State.setFlag, State.setA, State.setP, hc, addFlags_setFlag_d]

end Sys2Proof.Machine
end

section
/-! PROOFS. Returning from an interrupt (44 R384, 60 R513), and that it undoes taking one (60 R507). -/

namespace Sys2Proof.Machine

/-- A word pulled: the low byte, then the high byte, and S two up (20 R127). -/
theorem pull16_eq (s : State) :
    pull16 s = (joinBytes (s.bus.ram.read (256 + (s.cpu.sp + 2).toNat)) (s.bus.ram.read (256 + (s.cpu.sp + 1).toNat)),
      s.setSp (s.cpu.sp + 2)) := by
  have hsp : s.cpu.sp + 1 + 1 = s.cpu.sp + 2 := by bv_omega
  simp only [pull16, pull_eq, setSp_sp, setSp_bus, hsp]
  rfl

/-- Returning from an interrupt: P, PC and S from three stack bytes; nothing else (44 R384). -/
theorem returnFromInterrupt_eq (s : State) : returnFromInterrupt s = { s with
    cpu := { s.cpu with
      sp := s.cpu.sp + 3
      p := pulledStatus (s.bus.ram.read (256 + (s.cpu.sp + 1).toNat))
      pc := joinBytes (s.bus.ram.read (256 + (s.cpu.sp + 3).toNat)) (s.bus.ram.read (256 + (s.cpu.sp + 2).toNat)) } } := by
  have hlo : s.cpu.sp + 1 + 1 = s.cpu.sp + 2 := by bv_omega
  have hhi : s.cpu.sp + 1 + 2 = s.cpu.sp + 3 := by bv_omega
  simp only [returnFromInterrupt, pull_eq, pull16_eq, setP_sp, setP_bus, setSp_sp, setSp_bus, hlo, hhi]
  rfl

/-- Different values of S name different stack bytes. -/
theorem stackIndex_ne {a b : Byte} (h : a ≠ b) : 256 + a.toNat ≠ 256 + b.toNat :=
  fun he => h (BitVec.eq_of_toNat_eq (Nat.add_left_cancel he))

/-- Three bytes pushed from any S, wrapping in the stack page, read back as pushed (20 R125). -/
theorem read_three_pushed {m : Memory} (hm : m.wf = true) (sp x y z : Byte) :
    let pushed := ((m.write (256 + sp.toNat) x).write (256 + (sp - 1).toNat) y).write (256 + (sp - 2).toNat) z
    pushed.read (256 + sp.toNat) = x ∧ pushed.read (256 + (sp - 1).toNat) = y ∧ pushed.read (256 + (sp - 2).toNat) = z := by
  have hm1 := write_wf m (256 + sp.toNat) x hm
  have hm2 := write_wf _ (256 + (sp - 1).toNat) y hm1
  refine ⟨?_, ?_, read_write_same _ hm2 _ _⟩
  · rw [read_write_other _ _ _ _ (stackIndex_ne (by bv_omega)), read_write_other _ _ _ _ (stackIndex_ne (by bv_omega)),
      read_write_same _ hm]
  · rw [read_write_other _ _ _ _ (stackIndex_ne (by bv_omega)), read_write_same _ hm1]

/-- Settles O18: the return pulls the three bytes that the entry pushed, and P's image loads back as P. -/
theorem interruptRoundTrip : Obligations.InterruptRoundTrip := by
  intro s ret vector brk hram hu hb hlow hhigh
  obtain ⟨hhi, hlo, himage⟩ := read_three_pushed hram s.cpu.sp (hiByte ret) (loByte ret) (pushImage s.cpu.p brk)
  have h1 : s.cpu.sp - 3 + 1 = s.cpu.sp - 2 := by bv_omega
  have h2 : s.cpu.sp - 3 + 2 = s.cpu.sp - 1 := by bv_omega
  have h3 : s.cpu.sp - 3 + 3 = s.cpu.sp := by bv_omega
  rw [enterInterrupt_eq ret brk s hlow hhigh, returnFromInterrupt_eq]
  simp only [h1, h2, h3, hhi, hlo, himage, joinBytes_hi_lo, pulledStatus_pushImage hu hb]

end Sys2Proof.Machine
end

section
/-! PROOFS. What every step keeps: the legal state (10 R37, R53-R75) and the cartridge (10 R62, R63, R71); where there is no step
(10 R45); and that reset meets the invariant (10 R90). -/

namespace Sys2Proof.Machine

/-! ### No step, and reset -/

/-- Settles O7: a step looks at the run state first. -/
theorem faultedMachineHasNoStep : Obligations.FaultedMachineHasNoStep := by
  intro s r hr
  rw [step, hr]

/-- Settles O9: every memory of `State.reset` is empty and its registers are literals. -/
theorem resetIsLegal : Obligations.ResetIsLegal := by
  constructor <;> decide

/-- Settles O10: the registers are those of the definition, and both bytes of the vector are unlisted in the blank cartridge. -/
theorem resetValues : Obligations.ResetValues := by
  refine ⟨rfl, rfl, rfl, rfl, rfl, rfl, ?vector, rfl, rfl, rfl, rfl, rfl, rfl, rfl, rfl, rfl, rfl, rfl, rfl, rfl, rfl, rfl, rfl⟩
  case vector => decide

/-! ### The invariant -/

/-- The state at which an instruction's rule starts is legal where the boundary is. -/
theorem MidLegal.fetch {b : State} (h : MidLegal b) : MidLegal (Machine.fetch b).st := by
  obtain ⟨-, -, -, hreads⟩ := fetch_spec b
  exact hreads.legal (h.of_eq rfl rfl rfl rfl)

/-- The end of a completed step: the Bus tick leaves a legal boundary, with the cycle count back at 0. -/
theorem inv_busTick_setCyc {u : State} (h : MidLegal u) (c : Nat) : (busTick c (u.setCyc 0)).inv = true := by
  have hmid : MidLegal (u.setCyc 0) := h.of_eq rfl rfl rfl rfl
  obtain ⟨hcpu, -⟩ := busTick_spec c (u.setCyc 0)
  exact (inv_iff _).mpr ⟨hmid.tick c, by rw [hcpu, setCyc_cyc]⟩

/-- What the next state of a step is: that of a completed instruction after its tick, or the polled boundary with a fault's record. -/
theorem next_cases {s t : State} (h : step s = .next t) :
    (∃ u, Reached (fetch (serviceNmi s)).st u ∧ t = busTick u.cpu.cyc (u.setCyc 0)) ∨
    ∃ r, t = (serviceNmi s).setRun (.faulted r) := by
  obtain ⟨u, hnext, hu⟩ | ⟨hnext, -⟩ := step_cases s (running_of_step h)
  · exact .inl ⟨u, hu, Host.Outcome.next.inj (h.symm.trans hnext)⟩
  · exact .inr ⟨_, Host.Outcome.next.inj (h.symm.trans hnext)⟩

/-- Settles O11: a step is the NMI poll, then a completed instruction and its tick, or JAM's record at the boundary; each keeps the
invariant. -/
theorem stepKeepsLegalState : Obligations.StepKeepsLegalState := by
  intro s t hinv hstep
  obtain ⟨hs, hcyc⟩ := (inv_iff s).mp hinv
  have hb : MidLegal (serviceNmi s) := hs.serviceNmi
  obtain ⟨u, hu, rfl⟩ | ⟨r, rfl⟩ := next_cases hstep
  · exact inv_busTick_setCyc (hu.legal hb.fetch) _
  · exact (inv_iff _).mpr ⟨hb.of_eq rfl rfl rfl rfl, by rw [setRun_cyc, serviceNmi_cyc, hcyc]⟩

/-! ### The cartridge -/

theorem Onward.trans {s t u : State} (h : Onward s t) (k : Onward t u) : Onward s u :=
  ⟨k.prg.trans h.prg, k.prgSize.trans h.prgSize, Nat.le_trans h.cycles k.cycles, k.chr.trans h.chr, k.mirroring.trans h.mirroring,
   k.run.trans h.run⟩

/-- Between boundaries, with the cycle count reset to 0 at either end, an instruction keeps what the Bus's clock keeps. -/
theorem Kept.onward {b u : State} (h : Kept (b.setCyc 0) u) : Onward b (u.setCyc 0) :=
  ⟨h.prg, h.prgSize, h.cycles.ge, h.chr, h.mirroring, h.run⟩

/-- A completed step: the poll, the fetch, the instruction and the tick keep the cartridge. -/
theorem completedStep_onward {s u : State} (h : Reached (fetch (serviceNmi s)).st u) :
    Onward s (busTick u.cpu.cyc (u.setCyc 0)) := by
  obtain ⟨-, -, -, hfetch⟩ := fetch_spec (serviceNmi s)
  exact ((serviceNmi_onward s).trans (hfetch.kept.trans h.kept).onward).trans (busTick_onward _ _)

/-- Settles O12: the NMI poll keeps the cartridge, and so does either way a step goes on from it. -/
theorem cartridgeNeverChanges : Obligations.CartridgeNeverChanges := by
  intro s t hstep
  obtain ⟨u, hu, rfl⟩ | ⟨r, rfl⟩ := next_cases hstep
  · have hkept := completedStep_onward hu
    exact ⟨hkept.prg, hkept.prgSize, hkept.chr, hkept.mirroring⟩
  · have hkept := serviceNmi_onward s
    exact ⟨hkept.prg, hkept.prgSize, hkept.chr, hkept.mirroring⟩

end Sys2Proof.Machine
end

section
/-! PROOFS. The memory map (20 R101-R115): which addresses select which target, what a read and a write of each target do, and what
they leave alone. -/

namespace Sys2Proof.Machine

/-! ### Bus dispatch -/

/-- A mask of the low `k` bits takes the remainder by `2 ^ k`. -/
theorem toNat_and_mask (a : Word) {m : Word} (k : Nat) (hm : m.toNat = 2 ^ k - 1) : (a &&& m).toNat = a.toNat % 2 ^ k := by
  rw [BitVec.toNat_and, hm, Nat.and_two_pow_sub_one_eq_mod]

/-- The addresses that select a target: the rows of 20 R101, made exclusive of one another. -/
def BusTarget.selectedBy (a : Word) : BusTarget → Prop
  | .ram i => a < 0x2000 ∧ a.toNat % 2048 = i
  | .ppu r => 0x2000 ≤ a ∧ a < 0x4000 ∧ ppuRegOf a = r
  | .oamDma => a = 0x4014
  | .controller => a = 0x4016
  | .reserved => 0x4000 ≤ a ∧ a < 0x4018 ∧ a ≠ 0x4014 ∧ a ≠ 0x4016
  | .unmapped => 0x4018 ≤ a ∧ a < 0x8000
  | .prg => 0x8000 ≤ a

/-- The dispatch is the memory map: a target is chosen at exactly the addresses of its row (20 R101). -/
theorem busTarget_eq_iff {a : Word} {t : BusTarget} : busTarget a = t ↔ t.selectedBy a := by
  constructor
  · rintro rfl
    unfold busTarget
    split_ifs with hram hppu hdma hpad hio hmap
    · exact ⟨hram, (toNat_and_mask a 11 rfl).symm⟩
    · exact ⟨BitVec.not_lt.mp hram, hppu, rfl⟩
    · exact hdma
    · exact hpad
    · exact ⟨BitVec.not_lt.mp hppu, hio, hdma, hpad⟩
    · exact ⟨BitVec.not_lt.mp hio, hmap⟩
    · exact BitVec.not_lt.mp hmap
  · intro h
    cases t with
    | ram i =>
      obtain ⟨hlt, rfl⟩ := h
      rw [busTarget_of_lt_2000 hlt]
      exact congrArg _ (toNat_and_mask a 11 rfl)
    | ppu r =>
      obtain ⟨hlo, hhi, rfl⟩ := h
      rw [busTarget, if_neg (BitVec.not_lt.mpr hlo), if_pos hhi]
    | oamDma => exact busTarget_oamDma.mpr h
    | controller =>
      obtain rfl : a = 0x4016 := h
      rfl
    | reserved =>
      obtain ⟨hlo, hhi, hdma, hpad⟩ := h
      rw [busTarget, if_neg (by bv_omega), if_neg (by bv_omega), if_neg hdma, if_neg hpad, if_pos hhi]
    | unmapped =>
      obtain ⟨hlo, hhi⟩ := h
      rw [busTarget, if_neg (by bv_omega), if_neg (by bv_omega), if_neg (by bv_omega), if_neg (by bv_omega), if_neg (by bv_omega),
        if_pos hhi]
    | prg => exact busTarget_prg h

/-! ### Reads and writes, by target -/

theorem memRead_ram {a : Word} {i : Nat} (h : busTarget a = .ram i) (s : State) : memRead a s = (s.bus.ram.read i, s) := by
  rw [memRead, h]

theorem memWrite_ram {a : Word} {i : Nat} (h : busTarget a = .ram i) (v : Byte) (s : State) : memWrite a v s = s.writeRam i v := by
  rw [memWrite, h]

theorem peek_ram {a : Word} {i : Nat} (h : busTarget a = .ram i) (s : State) : peek s a = some (s.bus.ram.read i) := by
  rw [peek, h]

theorem memRead_ppu_reg {a : Word} {r : PpuReg} (h : busTarget a = .ppu r) (s : State) : memRead a s = readPpuReg r s := by
  rw [memRead, h]

theorem memWrite_ppu_reg {a : Word} {r : PpuReg} (h : busTarget a = .ppu r) (v : Byte) (s : State) :
    memWrite a v s = s.setPpu (writePpuReg r v s.ppu) := by
  rw [memWrite, h]

/-- The I/O page but the controller, and the unmapped space, read as 0 (20 R104, R105, R107). -/
theorem memRead_zero {a : Word} (h : busTarget a = .oamDma ∨ busTarget a = .reserved ∨ busTarget a = .unmapped) (s : State) :
    memRead a s = (0x00, s) := by
  obtain h | h | h := h <;> rw [memRead, h]

/-- Reserved, unmapped and ROM addresses ignore a write (20 R105, R107, R109). -/
theorem memWrite_ignored {a : Word} (h : busTarget a = .reserved ∨ busTarget a = .unmapped ∨ busTarget a = .prg) (v : Byte)
    (s : State) : memWrite a v s = s := by
  obtain h | h | h := h <;> rw [memWrite, h]

/-- Only PPU registers and the controller have reads with side effects (20 R115). -/
theorem memRead_state {a : Word} (hppu : ∀ r, busTarget a ≠ .ppu r) (hpad : busTarget a ≠ .controller) (s : State) :
    (memRead a s).2 = s := by
  unfold memRead
  cases h : busTarget a with
  | ppu r => exact absurd h (hppu r)
  | controller => exact absurd h hpad
  | ram _ | oamDma | reserved | unmapped | prg => rfl

/-! ### The rows of the memory map -/

/-- Settles O24: an address below `$2000` selects the RAM byte of its remainder by 2048. -/
theorem ramIsMirrored : Obligations.RamIsMirrored := by
  intro a v s ha
  have htarget : busTarget a = .ram (a.toNat % 2048) := busTarget_eq_iff.mpr ⟨ha, rfl⟩
  exact ⟨memRead_ram htarget s, memWrite_ram htarget v s⟩

theorem toNat_and_seven (a : Word) : (a &&& 7).toNat = a.toNat % 8 := toNat_and_mask a 3 rfl

theorem toNat_and_seven_lt (a : Word) : (a &&& 7).toNat < 8 := by
  rw [toNat_and_seven]
  exact Nat.mod_lt _ (by decide)

/-- The address of a register in the first eight bytes of the PPU window selects the same register (20 R103). -/
theorem ppuRegOf_base (a : Word) : ppuRegOf (0x2000 + (a &&& 7)) = ppuRegOf a := by
  have hlow : (0x2000 + (a &&& 7)) &&& 7 = a &&& 7 := by
    apply BitVec.eq_of_toNat_eq
    rw [toNat_and_seven, BitVec.toNat_add, toNat_and_seven, show (0x2000 : Word).toNat = 8192 from rfl]
    omega
  rw [ppuRegOf, ppuRegOf, hlow]

/-- Settles O25: both addresses lie in the PPU window and select the same register. -/
theorem ppuWindowIsMirrored : Obligations.PpuWindowIsMirrored := by
  intro a v s hlo hhi
  have hlow := toNat_and_seven_lt a
  have htarget : busTarget a = .ppu (ppuRegOf a) := busTarget_eq_iff.mpr ⟨hlo, hhi, rfl⟩
  have hbase : busTarget (0x2000 + (a &&& 7)) = .ppu (ppuRegOf a) :=
    busTarget_eq_iff.mpr ⟨by bv_omega, by bv_omega, ppuRegOf_base a⟩
  constructor
  · rw [memRead_ppu_reg htarget, memRead_ppu_reg hbase]
  · rw [memWrite_ppu_reg htarget, memWrite_ppu_reg hbase]

/-- Settles O26: these addresses select the DMA trigger or reserved I/O. -/
theorem reservedIoReadsZero : Obligations.ReservedIoReadsZero := by
  intro a v s h
  have hrange : 0x4000 ≤ a ∧ a < 0x4018 ∧ a ≠ 0x4016 := by bv_omega
  obtain ⟨hlo, hhi, hpad⟩ := hrange
  have hreserved (hdma : a ≠ 0x4014) : busTarget a = .reserved := busTarget_eq_iff.mpr ⟨hlo, hhi, hdma, hpad⟩
  refine ⟨memRead_zero ?_ s, fun hdma => memWrite_ignored (.inl (hreserved hdma)) v s⟩
  by_cases hdma : a = 0x4014
  · exact .inl (busTarget_oamDma.mpr hdma)
  · exact .inr (.inl (hreserved hdma))

/-- Settles O27: ROM addresses ignore a write. -/
theorem romWriteChangesNothing : Obligations.RomWriteChangesNothing :=
  fun _ v s h => memWrite_ignored (.inr (.inr (busTarget_prg h))) v s

/-- Settles O28: unmapped space by its target; a ROM read by the image offset of each size. -/
theorem upperMapReads : Obligations.UpperMapReads := by
  intro a v s
  refine ⟨fun hlo hhi => ?unmapped, fun h hsize => ?k32, fun h hsize => ?k16⟩
  case unmapped =>
    have htarget : busTarget a = .unmapped := busTarget_eq_iff.mpr ⟨hlo, hhi⟩
    exact ⟨memRead_zero (.inr (.inr htarget)) s, memWrite_ignored (.inr (.inl htarget)) v s⟩
  case k32 =>
    have hoffset : prgOffset .k32 a = a.toNat - 0x8000 := by
      refine (toNat_and_mask a 15 rfl).trans ?_
      bv_omega
    rw [memRead_prg h, Bus.prgByte, hsize, hoffset]
  case k16 =>
    have hoffset : prgOffset .k16 a = (a.toNat - 0x8000) % 16384 := by
      refine (toNat_and_mask a 14 rfl).trans ?_
      bv_omega
    rw [memRead_prg h, Bus.prgByte, hsize, hoffset]

/-- Settles O29: at a mirror both addresses select the byte written; any other byte is one that the write leaves alone. -/
theorem storedByteReadsBack : Obligations.StoredByteReadsBack := by
  intro a b v s hram ha
  have htarget : busTarget a = .ram (a.toNat % 2048) := busTarget_eq_iff.mpr ⟨ha, rfl⟩
  split_ifs with hb
  · have hsame : busTarget b = .ram (a.toNat % 2048) := busTarget_eq_iff.mpr hb
    rw [peek_ram hsame, memWrite_ram htarget, writeRam_bus, read_write_same _ hram]
  · refine sameBytesBut_memWrite a v rfl b fun i hi hai => hb ?_
    obtain ⟨hlt, hib⟩ := busTarget_eq_iff.mp hi
    obtain ⟨-, hia⟩ := busTarget_eq_iff.mp hai
    exact ⟨hlt, hib.trans hia.symm⟩

/-! ### What a write leaves alone -/

/-- What a Bus write never changes: the PPU's position in the frame and what the host's callback has seen and will store. -/
structure KeepsClockAndHost (s t : State) : Prop where
  scanline : t.ppu.scanline = s.ppu.scanline
  cycle : t.ppu.cycle = s.ppu.cycle
  frames : t.host.frames = s.host.frames
  view : t.host.view = s.host.view
  inputs : t.host.inputs = s.host.inputs

theorem KeepsClockAndHost.refl (s : State) : KeepsClockAndHost s s := ⟨rfl, rfl, rfl, rfl, rfl⟩

theorem KeepsClockAndHost.trans {s t u : State} (h : KeepsClockAndHost s t) (k : KeepsClockAndHost t u) : KeepsClockAndHost s u :=
  ⟨k.scanline.trans h.scanline, k.cycle.trans h.cycle, k.frames.trans h.frames, k.view.trans h.view, k.inputs.trans h.inputs⟩

/-- A byte of a DMA is a Bus read and an OAM store. -/
theorem dmaByte_keepsClockAndHost (v : Byte) (s : State) (i : Nat) : KeepsClockAndHost s (dmaByte v s i) := by
  have hread := memRead_frame (joinBytes v (BitVec.ofNat 8 i)) s
  exact ⟨hread.ppu.scanline, hread.ppu.cycle, hread.frames, hread.view, hread.inputs⟩

theorem dmaFold_keepsClockAndHost (v : Byte) : ∀ (is : List Nat) (s : State), KeepsClockAndHost s (is.foldl (dmaByte v) s)
  | [], s => KeepsClockAndHost.refl s
  | i :: is, s => (dmaByte_keepsClockAndHost v s i).trans (dmaFold_keepsClockAndHost v is _)

/-- No register write moves the PPU's clock. -/
theorem writePpuReg_position (r : PpuReg) (v : Byte) (q : Ppu) :
    (writePpuReg r v q).scanline = q.scanline ∧ (writePpuReg r v q).cycle = q.cycle := by
  cases r with
  | ctrl | mask | status | oamAddr | oamData => exact ⟨rfl, rfl⟩
  | scroll => rw [writePpuReg, writePpuScroll]; split_ifs <;> exact ⟨rfl, rfl⟩
  | addr => rw [writePpuReg, writePpuAddr]; split_ifs <;> exact ⟨rfl, rfl⟩
  | data => rw [writePpuReg, writePpuData, ppuWrite]; split_ifs <;> exact ⟨rfl, rfl⟩

theorem memWrite_keepsClockAndHost (a : Word) (v : Byte) (s : State) : KeepsClockAndHost s (memWrite a v s) := by
  unfold memWrite
  cases busTarget a with
  | ppu r =>
    obtain ⟨hscanline, hcycle⟩ := writePpuReg_position r v s.ppu
    exact ⟨hscanline, hcycle, rfl, rfl, rfl⟩
  | oamDma =>
    have hfold := dmaFold_keepsClockAndHost v (List.range 256) s
    exact ⟨hfold.scanline, hfold.cycle, hfold.frames, hfold.view, hfold.inputs⟩
  | ram _ | controller | reserved | unmapped | prg => exact ⟨rfl, rfl, rfl, rfl, rfl⟩

theorem memWrite_bus_of_not_ram {a : Word} (h : ∀ i, busTarget a ≠ .ram i) (v : Byte) (s : State) : (memWrite a v s).bus = s.bus := by
  rw [memWrite_bus]
  cases ha : busTarget a with
  | ram i => exact absurd ha (h i)
  | ppu _ | oamDma | controller | reserved | unmapped | prg => rfl

theorem memWrite_ppu_of_other {a : Word} (hppu : ∀ r, busTarget a ≠ .ppu r) (hdma : busTarget a ≠ .oamDma) (v : Byte) (s : State) :
    (memWrite a v s).ppu = s.ppu := by
  unfold memWrite
  cases ha : busTarget a with
  | ppu r => exact absurd ha (hppu r)
  | oamDma => exact absurd ha hdma
  | ram _ | controller | reserved | unmapped | prg => rfl

theorem memWrite_pad_of_other {a : Word} (hdma : busTarget a ≠ .oamDma) (hpad : busTarget a ≠ .controller) (v : Byte) (s : State) :
    (memWrite a v s).pad = s.pad := by
  unfold memWrite
  cases ha : busTarget a with
  | oamDma => exact absurd ha hdma
  | controller => exact absurd ha hpad
  | ram _ | ppu _ | reserved | unmapped | prg => rfl

/-- PRG ROM, its size and the master counter are no part of the Bus that a write reaches. -/
theorem memWrite_rom (a : Word) (v : Byte) (s : State) : (memWrite a v s).bus.prg = s.bus.prg ∧
    (memWrite a v s).bus.prgSize = s.bus.prgSize ∧ (memWrite a v s).bus.cycles = s.bus.cycles := by
  rw [memWrite_bus]
  cases busTarget a <;> exact ⟨rfl, rfl, rfl⟩

/-- Settles O30: the write's frame, one part of the state after another. -/
theorem writeFrame : Obligations.WriteFrame := by
  intro a v s
  obtain ⟨hprg, hsize, hcycles⟩ := memWrite_rom a v s
  obtain ⟨hchr, hmirroring⟩ := memWrite_chr a v s
  obtain ⟨hscanline, hcycle, hframes, hview, hinputs⟩ := memWrite_keepsClockAndHost a v s
  refine ⟨writeCycles_eq a ▸ memWrite_cpu a v s, hprg, hsize, hcycles, hchr, hmirroring, hscanline, hcycle, hframes, hview, hinputs,
    fun hram => ?ram, fun hwindow hdma => ?ppu, fun hdma hpad => ?pad⟩
  case ram => exact memWrite_bus_of_not_ram (fun _ h => hram (busTarget_eq_iff.mp h).1) v s
  case ppu =>
    refine memWrite_ppu_of_other (fun _ h => hwindow ?_) (mt busTarget_oamDma.mp hdma) v s
    obtain ⟨hlo, hhi, -⟩ := busTarget_eq_iff.mp h
    exact ⟨hlo, hhi⟩
  case pad => exact memWrite_pad_of_other (mt busTarget_oamDma.mp hdma) (mt busTarget_eq_iff.mp hpad) v s

/-! ### Which reads have side effects -/

/-- The low three bits of the addresses of a register (60 R540). -/
def PpuReg.offset : PpuReg → Word
  | .ctrl => 0
  | .mask => 1
  | .status => 2
  | .oamAddr => 3
  | .oamData => 4
  | .scroll => 5
  | .addr => 6
  | .data => 7

theorem ppuRegOf_eq_iff {a : Word} {r : PpuReg} : ppuRegOf a = r ↔ a &&& 7 = r.offset := by
  constructor
  · rintro rfl
    have hlow := toNat_and_seven_lt a
    apply BitVec.eq_of_toNat_eq
    unfold ppuRegOf
    interval_cases (a &&& 7).toNat <;> rfl
  · intro h
    rw [ppuRegOf, h]
    cases r <;> rfl

/-- A read of a write-only register takes a draw and does nothing else (60 R553). -/
theorem readPpuReg_writeOnly {r : PpuReg} (hstatus : r ≠ .status) (hoam : r ≠ .oamData) (hdata : r ≠ .data) (s : State) :
    readPpuReg r s = (Config.openBusDraw s.host.draws, s.nextDraw) := by
  cases r with
  | status => exact absurd rfl hstatus
  | oamData => exact absurd rfl hoam
  | data => exact absurd rfl hdata
  | ctrl | mask | oamAddr | scroll | addr => rfl

/-- Settles O31: outside the PPU window and the controller a read only answers; in the window it depends on the register. -/
theorem readSideEffects : Obligations.ReadSideEffects := by
  intro a s
  refine ⟨fun hout hpad => ?plain, fun hlo hhi h => ?oamData, fun hlo hhi hstatus hoam hdata => ?writeOnly⟩
  case plain =>
    refine memRead_state (fun r h => ?_) (mt busTarget_eq_iff.mp hpad) s
    obtain ⟨hlo, hhi, -⟩ := busTarget_eq_iff.mp h
    bv_omega
  case oamData => exact memRead_ppu_reg (busTarget_eq_iff.mpr ⟨hlo, hhi, ppuRegOf_eq_iff (r := .oamData).mpr h⟩) s
  case writeOnly =>
    rw [memRead_ppu_reg (busTarget_eq_iff.mpr ⟨hlo, hhi, rfl⟩), readPpuReg_writeOnly (mt ppuRegOf_eq_iff.mp hstatus)
      (mt ppuRegOf_eq_iff.mp hoam) (mt ppuRegOf_eq_iff.mp hdata)]
    exact ⟨rfl, rfl, rfl, rfl⟩

end Sys2Proof.Machine
end

section
/-! PROOFS. The stack (20 R125-R127): words pushed and pulled, and the subroutine call and return over them (44 R381, R382). -/

namespace Sys2Proof.Machine

/-- The stack's address is its page plus S (10 R34). -/
theorem stackAddr_eq (sp : Byte) : stackAddr sp = 0x0100 + zext16 sp := by
  apply BitVec.eq_of_toNat_eq
  rw [stackAddr, joinBytes_toNat, zext16, BitVec.toNat_add, BitVec.toNat_setWidth, show (0x0100 : Word).toNat = 256 from rfl,
    show (0x01 : Byte).toNat = 1 from rfl]
  omega

/-- A word pushed: the high byte at S, the low byte below it, and S two down (20 R127). -/
theorem push16_eq (w : Word) (s : State) :
    push16 w s = ((s.writeRam (256 + s.cpu.sp.toNat) (hiByte w)).writeRam (256 + (s.cpu.sp - 1).toNat) (loByte w)).setSp
      (s.cpu.sp - 2) := by
  have hsp : s.cpu.sp - 1 - 1 = s.cpu.sp - 2 := by bv_omega
  simp only [push16, push_eq, setSp_sp, hsp]
  rfl

/-- Two bytes pushed from any S, wrapping in the stack page, read back as pushed (20 R125). -/
theorem read_two_pushed {m : Memory} (hm : m.wf = true) (sp x y : Byte) :
    let pushed := (m.write (256 + sp.toNat) x).write (256 + (sp - 1).toNat) y
    pushed.read (256 + sp.toNat) = x ∧ pushed.read (256 + (sp - 1).toNat) = y := by
  refine ⟨?_, read_write_same _ (write_wf m _ x hm) _ _⟩
  rw [read_write_other _ _ _ _ (stackIndex_ne (by bv_omega)), read_write_same _ hm]

/-- Pulling a pushed word gives the word, and the state with the two stack bytes written (20 R127). -/
theorem pull16_push16 (w : Word) {s : State} (hram : s.bus.ram.wf = true) :
    pull16 (push16 w s) =
      (w, (s.writeRam (256 + s.cpu.sp.toNat) (hiByte w)).writeRam (256 + (s.cpu.sp - 1).toNat) (loByte w)) := by
  obtain ⟨hhi, hlo⟩ := read_two_pushed hram s.cpu.sp (hiByte w) (loByte w)
  have h1 : s.cpu.sp - 2 + 1 = s.cpu.sp - 1 := by bv_omega
  have h2 : s.cpu.sp - 2 + 2 = s.cpu.sp := by bv_omega
  rw [push16_eq, pull16_eq]
  simp only [setSp_sp, setSp_bus, writeRam_bus, h1, h2, hhi, hlo, joinBytes_hi_lo]
  rfl

/-- Settles O32: the stack's operations by their definitions, and the round trip by the two bytes that read back. -/
theorem push16Pull16RoundTrip : Obligations.Push16Pull16RoundTrip := by
  intro w b s
  refine ⟨?push, ?pull, rfl, rfl, fun hram => ?roundTrip⟩
  case push => rw [push, stackAddr_eq, memWrite_cpu]
  case pull => rw [pull, stackAddr_eq, setSp_sp]
  case roundTrip =>
    rw [pull16_push16 w hram]
    refine ⟨rfl, rfl, rfl, rfl, fun i hhi hlo => ?_⟩
    exact (read_write_other _ _ _ _ hlo).trans (read_write_other _ _ _ _ hhi)

/-- Settles O43: JSR is a push of the return address, RTS a pull of it. -/
theorem callAndReturnComplete : Obligations.CallAndReturnComplete := by
  intro w s
  constructor
  · show Host.Outcome.next ((push16 (s.cpu.pc + 2) s).setPc w) = _
    rw [push16_eq]
    rfl
  · show Host.Outcome.next ((pull16 s).2.setPc ((pull16 s).1 + 1)) = _
    rw [pull16_eq]
    rfl

end Sys2Proof.Machine
end

section
/-! PROOFS. The effective addresses of the addressing modes (40 R205-R217) and the read of the operand at them (R218, R231). -/

namespace Sys2Proof.Machine

/-- A word's high byte is its page. -/
theorem hiByte_toNat (w : Word) : (hiByte w).toNat = w.toNat / 256 := by
  have := w.isLt
  rw [hiByte, BitVec.extractLsb'_toNat, Nat.shiftRight_eq_div_pow]
  omega

theorem hiByte_eq_iff (v w : Word) : hiByte v = hiByte w ↔ v.toNat / 256 = w.toNat / 256 := by
  rw [← BitVec.toNat_inj, hiByte_toNat, hiByte_toNat]

/-- An indexed address is the base plus the index modulo 65536 (40 R212). -/
theorem indexed_ea_toNat (base : Word) (index : Byte) (s : State) :
    (indexed base index s).ea.toNat = (base.toNat + index.toNat) % 65536 := by
  have := index.isLt
  rw [indexed, BitVec.toNat_add, zext16, BitVec.toNat_setWidth]
  omega

/-- A page is crossed when the address and its base lie in different pages (40 R212, R231). -/
theorem indexed_crossed_iff (base : Word) (index : Byte) (s : State) :
    (indexed base index s).crossed = true ↔ (indexed base index s).ea.toNat / 256 ≠ base.toNat / 256 :=
  bne_iff_ne.trans ((hiByte_eq_iff _ _).not.trans ne_comm)

/-- The indexed indirect mode's pointer stands in page zero at its operand plus X (40 R215). -/
theorem resolve_indx (b : Byte) (s : State) : resolve (.indx b) s =
    some (direct (joinBytes (s.bus.ram.read (b + s.cpu.x + 1).toNat) (s.bus.ram.read (b + s.cpu.x).toNat)) s) := by
  rw [resolve, read16ZP_eq]

/-- The indirect indexed mode's pointer stands in page zero at its operand, and Y is added to the word there (40 R216). -/
theorem resolve_indy (b : Byte) (s : State) : resolve (.indy b) s =
    some (indexed (joinBytes (s.bus.ram.read (b + 1).toNat) (s.bus.ram.read b.toNat)) s.cpu.y s) := by
  rw [resolve, read16ZP_eq]

/-- The penalty of an operand is one cycle where its address was resolved across a page (40 R231). -/
theorem pageCharge_eq {o : Operand} {s : State} {r : Resolved} (ho : o.mode ≠ .ind) (h : resolve o s = some r) :
    pageCharge o s = if r.crossed then 1 else 0 := by
  obtain ⟨hcpu, -⟩ := resolve_keeps h
  have hcyc : (chargePage r.crossed r.st).cpu.cyc = s.cpu.cyc + pageCharge o s := by
    rw [chargePage_resolve ho h, setCyc_cyc]
  rw [chargePage] at hcyc
  split_ifs at hcyc ⊢
  · rw [charge_cyc, hcpu] at hcyc
    omega
  · rw [hcpu] at hcyc
    omega

/-- An operand read is one Bus read of the effective address after the penalty (40 R218). -/
theorem readOperand_eq {o : Operand} {s : State} {r : Resolved} (ho : o.mode ≠ .ind) (h : resolve o s = some r) :
    readOperand o s = some (memRead r.ea (s.charge (pageCharge o s))) := by
  rw [readOperand_of_resolve h, chargePage_resolve ho h, State.charge]

/-- Settles O33: each mode's address from the decoder's definition, the operand value by the one read. -/
theorem effectiveAddresses : Obligations.EffectiveAddresses := by
  intro s b w
  refine ⟨rfl, rfl, rfl, rfl, ?absx, ?absy, ?indx, ?indy, rfl, rfl, rfl, rfl, rfl, rfl, ?read, ?peek⟩
  case absx => exact ⟨_, rfl, indexed_ea_toNat w s.cpu.x s, rfl, rfl, indexed_crossed_iff w s.cpu.x s⟩
  case absy => exact ⟨_, rfl, indexed_ea_toNat w s.cpu.y s, rfl, rfl, indexed_crossed_iff w s.cpu.y s⟩
  case indx => exact ⟨_, resolve_indx b s, rfl, rfl, rfl⟩
  case indy => exact ⟨_, resolve_indy b s, rfl, rfl, indexed_ea_toNat _ s.cpu.y s, indexed_crossed_iff _ s.cpu.y s⟩
  case read => exact fun o r ho h => ⟨pageCharge_eq ho h, readOperand_eq ho h⟩
  case peek =>
    intro o r v ho h hv
    have hcharged : peek (s.charge (pageCharge o s)) r.ea = some v := hv
    rw [readOperand_eq ho h, memRead_of_peek hcharged]

end Sys2Proof.Machine
end

section
/-! PROOFS. The PPU's address space (20 R130-R135): what each region of it reads and writes, and the folding of the nametables and of
the palette as arithmetic of addresses. -/

namespace Sys2Proof.Machine

/-! ### The three regions -/

theorem ppuRead_pattern {p : Word} (h : p < 0x2000) (q : Ppu) : ppuRead q p = q.chr.read p.toNat := if_pos h

theorem ppuWrite_pattern {p : Word} (h : p < 0x2000) (q : Ppu) (x : Byte) : ppuWrite q p x = q := if_pos h

theorem ppuRead_nametable {p : Word} (hlo : 0x2000 ≤ p) (hhi : p < 0x3F00) (q : Ppu) :
    ppuRead q p = q.vram.read (ntIndex q.mirroring p) := by
  rw [ppuRead, if_neg (BitVec.not_lt.mpr hlo), if_pos hhi]

theorem ppuWrite_nametable {p : Word} (hlo : 0x2000 ≤ p) (hhi : p < 0x3F00) (q : Ppu) (x : Byte) :
    ppuWrite q p x = { q with vram := q.vram.write (ntIndex q.mirroring p) x } := by
  rw [ppuWrite, if_neg (BitVec.not_lt.mpr hlo), if_pos hhi]

theorem ppuRead_palette {p : Word} (h : 0x3F00 ≤ p) (q : Ppu) : ppuRead q p = q.palette.read (paletteIndex p) := by
  rw [ppuRead, if_neg (by bv_omega), if_neg (BitVec.not_lt.mpr h)]

theorem ppuWrite_palette {p : Word} (h : 0x3F00 ≤ p) (q : Ppu) (x : Byte) :
    ppuWrite q p x = { q with palette := q.palette.write (paletteIndex p) x } := by
  rw [ppuWrite, if_neg (by bv_omega), if_neg (BitVec.not_lt.mpr h)]

/-- Every address lies in one of the regions (20 R130). -/
theorem ppuRegion_cases (p : Word) : p < 0x2000 ∨ 0x2000 ≤ p ∧ p < 0x3F00 ∨ 0x3F00 ≤ p := by bv_omega

/-! ### Reading back what was written -/

/-- A memory read after a write, at whatever addresses. -/
theorem read_write {m : Memory} (hm : m.wf = true) (a b : Nat) (x : Byte) :
    (m.write a x).read b = if a = b then x else m.read b := by
  split_ifs with h
  · rw [h, read_write_same m hm]
  · exact read_write_other m a b x (Ne.symm h)

theorem ppuRead_write_nametable {q : Ppu} (hvram : q.vram.wf = true) {p : Word} (hlo : 0x2000 ≤ p) (hhi : p < 0x3F00) (p' : Word)
    (x : Byte) : ppuRead (ppuWrite q p x) p' =
      if 0x2000 ≤ p' ∧ p' < 0x3F00 ∧ ntIndex q.mirroring p = ntIndex q.mirroring p' then x else ppuRead q p' := by
  rw [ppuWrite_nametable hlo hhi]
  obtain h | ⟨hlo', hhi'⟩ | h := ppuRegion_cases p'
  · rw [ppuRead_pattern h, ppuRead_pattern h, if_neg (fun hp => BitVec.not_lt.mpr hp.1 h)]
  · rw [ppuRead_nametable hlo' hhi', ppuRead_nametable hlo' hhi', read_write hvram]
    simp only [hlo', hhi', true_and]
  · rw [ppuRead_palette h, ppuRead_palette h, if_neg (fun hp => BitVec.not_lt.mpr h hp.2.1)]

theorem ppuRead_write_palette {q : Ppu} (hpalette : q.palette.wf = true) {p : Word} (hp : 0x3F00 ≤ p) (p' : Word) (x : Byte) :
    ppuRead (ppuWrite q p x) p' = if 0x3F00 ≤ p' ∧ paletteIndex p = paletteIndex p' then x else ppuRead q p' := by
  rw [ppuWrite_palette hp]
  obtain h | ⟨hlo', hhi'⟩ | h := ppuRegion_cases p'
  · rw [ppuRead_pattern h, ppuRead_pattern h, if_neg (fun hp => by bv_omega)]
  · rw [ppuRead_nametable hlo' hhi', ppuRead_nametable hlo' hhi', if_neg (fun hp => BitVec.not_lt.mpr hp.1 hhi')]
  · rw [ppuRead_palette h, ppuRead_palette h, read_write hpalette]
    simp only [h, true_and]

/-- What a write stores reads back at exactly the addresses that name the same cell. -/
theorem ppuRead_ppuWrite {q : Ppu} (hvram : q.vram.wf = true) (hpalette : q.palette.wf = true) (p p' : Word) (x : Byte) :
    ppuRead (ppuWrite q p x) p' =
      if 0x2000 ≤ p ∧ p < 0x3F00 ∧ 0x2000 ≤ p' ∧ p' < 0x3F00 ∧ ntIndex q.mirroring p = ntIndex q.mirroring p' then x
      else if 0x3F00 ≤ p ∧ 0x3F00 ≤ p' ∧ paletteIndex p = paletteIndex p' then x
      else ppuRead q p' := by
  obtain h | ⟨hlo, hhi⟩ | h := ppuRegion_cases p
  · rw [ppuWrite_pattern h, if_neg (fun hp => BitVec.not_lt.mpr hp.1 h), if_neg (fun hp => by bv_omega)]
  · rw [ppuRead_write_nametable hvram hlo hhi]
    simp only [hlo, hhi, true_and, BitVec.not_le.mpr hhi, false_and, if_false]
  · rw [ppuRead_write_palette hpalette h]
    simp only [h, BitVec.not_lt.mpr h, true_and, false_and, and_false, if_false]

/-! ### Nametable folding -/

/-- The address bit that selects bank B (20 R132). -/
def bankBit : Mirroring → Nat
  | .horizontal => 11
  | .vertical => 10

theorem ntIndex_eq_bits (m : Mirroring) (p : Word) :
    ntIndex m p = (p &&& 0x03FF).toNat + if p.getLsbD (bankBit m) then 0x400 else 0 := by
  cases m <;> rfl

/-- A nametable offset: the address modulo 1024, in the bank that the bank bit selects. -/
theorem ntIndex_eq (m : Mirroring) (p : Word) :
    ntIndex m p = p.toNat % 1024 + if p.toNat / 2 ^ bankBit m % 2 = 1 then 0x400 else 0 := by
  rw [ntIndex_eq_bits, toNat_and_mask p 10 rfl, BitVec.getLsbD, Nat.testBit_eq_decide_div_mod_eq]
  simp only [decide_eq_true_eq]
  rfl

theorem ntIndex_horizontal (p : Word) : ntIndex .horizontal p = p.toNat % 1024 + if p.toNat / 2048 % 2 = 1 then 0x400 else 0 :=
  ntIndex_eq .horizontal p

theorem ntIndex_vertical (p : Word) : ntIndex .vertical p = p.toNat % 1024 + if p.toNat / 1024 % 2 = 1 then 0x400 else 0 :=
  ntIndex_eq .vertical p

/-- Changing a bit outside the offset within a bank keeps that offset. -/
theorem xor_twoPow_and (p m : Word) {k : Nat} (hk : m.getLsbD k = false) : (p ^^^ BitVec.twoPow 16 k) &&& m = p &&& m := by
  apply BitVec.eq_of_getLsbD_eq
  intro i hi
  rw [BitVec.getLsbD_and, BitVec.getLsbD_and, BitVec.getLsbD_xor, BitVec.getLsbD_twoPow]
  by_cases h : k = i
  · rw [← h, hk, Bool.and_false, Bool.and_false]
  · simp [h]

/-- Changing an address bit outside the offset within a bank changes the bank where it is the bank bit, and nothing else. -/
theorem ntIndex_xor_twoPow (m : Mirroring) (p : Word) {k : Nat} (hlt : k < 16) (hk : (0x03FF : Word).getLsbD k = false) :
    ntIndex m (p ^^^ BitVec.twoPow 16 k) =
      (p &&& 0x03FF).toNat + if p.getLsbD (bankBit m) ^^ decide (k = bankBit m) then 0x400 else 0 := by
  rw [ntIndex_eq_bits, xor_twoPow_and p _ hk, BitVec.getLsbD_xor, BitVec.getLsbD_twoPow, decide_eq_true hlt, Bool.true_and]

theorem ntIndex_xor_eq {m : Mirroring} {k : Nat} (hlt : k < 16) (hk : (0x03FF : Word).getLsbD k = false) (hbank : k ≠ bankBit m)
    (p : Word) : ntIndex m (p ^^^ BitVec.twoPow 16 k) = ntIndex m p := by
  rw [ntIndex_xor_twoPow m p hlt hk, decide_eq_false hbank, Bool.xor_false, ntIndex_eq_bits]

theorem ntIndex_xor_ne (m : Mirroring) (p : Word) : ntIndex m (p ^^^ BitVec.twoPow 16 (bankBit m)) ≠ ntIndex m p := by
  have hlt : bankBit m < 16 := by cases m <;> decide
  have hk : (0x03FF : Word).getLsbD (bankBit m) = false := by cases m <;> decide
  rw [ntIndex_xor_twoPow m p hlt hk, decide_eq_true rfl, Bool.xor_true, ntIndex_eq_bits]
  cases p.getLsbD (bankBit m) <;> simp

/-- The nametable space repeats every `$1000` (20 R131, D14). -/
theorem ntIndex_add (m : Mirroring) (p : Word) : ntIndex m (p + 0x1000) = ntIndex m p := by
  have hp : (p + 0x1000).toNat = (p.toNat + 4096) % 65536 := BitVec.toNat_add p 0x1000
  cases m with
  | horizontal =>
    rw [ntIndex_horizontal, ntIndex_horizontal, hp]
    split_ifs <;> omega
  | vertical =>
    rw [ntIndex_vertical, ntIndex_vertical, hp]
    split_ifs <;> omega

/-- Settles O53: the regions' equations, the indexes as arithmetic, the read after a write, and the bits that do or do not select a bank. -/
theorem ppuAddressSpace : Obligations.PpuAddressSpace := by
  refine ⟨fun q p x => ⟨fun h => ⟨ppuRead_pattern h q, ppuWrite_pattern h q x⟩,
      fun hlo hhi => ⟨ppuRead_nametable hlo hhi q, ppuWrite_nametable hlo hhi q x⟩,
      fun h => ⟨ppuRead_palette h q, ppuWrite_palette h q x⟩⟩,
    fun p => ?quadrants, fun p => ?entries,
    fun q p p' x hvram hpalette => ppuRead_ppuWrite hvram hpalette p p' x,
    ntIndex_xor_eq (m := .horizontal) (k := 10) (by decide) (by decide) (by decide),
    ntIndex_xor_eq (m := .vertical) (k := 11) (by decide) (by decide) (by decide), ntIndex_xor_ne .horizontal, ntIndex_xor_ne .vertical,
    ntIndex_add, rfl, rfl, rfl, rfl⟩
  case quadrants =>
    rw [ntIndex_horizontal, ntIndex_vertical]
    constructor <;> split_ifs <;> omega
  case entries =>
    intro k
    rw [paletteIndex, toNat_and_mask p 5 rfl]
    rfl

end Sys2Proof.Machine
end

section
/-! PROOFS. The OAM DMA (60 R570, R571): its copy loop from any page, and the bytes it copies from the pages whose reads the spec fixes. -/

namespace Sys2Proof.Machine

theorem memWrite_oamDma (v : Byte) (s : State) :
    memWrite 0x4014 v s = ((List.range 256).foldl (dmaByte v) s).charge Config.oamDmaCycles := rfl

/-- After 256 turns the cursor stands where it began. -/
theorem dmaRange_cursor_wraps (v : Byte) (s : State) : ((List.range 256).foldl (dmaByte v) s).ppu.oamAddr = s.ppu.oamAddr := by
  obtain ⟨hcursor, -⟩ := dmaRange_cursor v s 256
  exact hcursor.trans (BitVec.add_zero _)

/-- The machine after a DMA that changes nothing but OAM (60 R571). -/
def afterDma (s : State) (oam : Memory) : State :=
  { s with cpu := { s.cpu with cyc := s.cpu.cyc + Config.oamDmaCycles }, ppu := { s.ppu with oam := oam } }

/-- Byte `k` of the copy is what the read of byte `k` gives after the `k` copies before it. -/
theorem read_memWrite_oamDma (v : Byte) {s : State} (hoam : s.ppu.oam.wf = true) {k : Nat} (hk : k < 256) :
    (memWrite 0x4014 v s).ppu.oam.read (s.ppu.oamAddr + BitVec.ofNat 8 k).toNat =
      (memRead (joinBytes v (BitVec.ofNat 8 k)) ((List.range k).foldl (dmaByte v) s)).1 :=
  dmaRange_oam v hoam hk (Nat.le_refl 256)

/-! ### Pages whose reads have no side effect -/

/-- The reads of a page have no side effect, and answer `f` of the Bus and the low address byte. -/
def PageReads (v : Byte) (f : Bus → Byte → Byte) : Prop :=
  ∀ (l : Byte) (t : State), memRead (joinBytes v l) t = (f t.bus l, t)

/-- A DMA from such a page changes nothing but OAM. -/
theorem PageReads.oamDma_state {v : Byte} {f : Bus → Byte → Byte} (h : PageReads v f) (s : State) :
    memWrite 0x4014 v s = afterDma s (memWrite 0x4014 v s).ppu.oam := by
  have hloop := dmaFold_plain v (List.range 256) s fun i _ t => congrArg Prod.snd (h (BitVec.ofNat 8 i) t)
  rw [dmaRange_cursor_wraps] at hloop
  exact congrArg (State.charge · Config.oamDmaCycles) hloop

/-- A DMA from such a page copies its bytes. -/
theorem PageReads.oamDma_byte {v : Byte} {f : Bus → Byte → Byte} (h : PageReads v f) {s : State} (hoam : s.ppu.oam.wf = true)
    {k : Nat} (hk : k < 256) :
    (memWrite 0x4014 v s).ppu.oam.read (s.ppu.oamAddr + BitVec.ofNat 8 k).toNat = f s.bus (BitVec.ofNat 8 k) := by
  obtain ⟨-, hbus, -⟩ := dmaFold_keeps v (List.range k) s
  rw [read_memWrite_oamDma v hoam hk, h, hbus]

theorem pageReads_ram {v : Byte} (hv : v < 0x20) : PageReads v fun b l => b.ram.read ((v.toNat * 256 + l.toNat) % 2048) :=
  fun l t => memRead_ram (busTarget_ramPage hv l) t

theorem pageReads_prg {v : Byte} (hv : 0x80 ≤ v) : PageReads v fun b l => b.prgByte (joinBytes v l) := fun l t => by
  rw [memRead, busTarget_prgPage hv l]

theorem pageReads_unmapped {v : Byte} (hlo : 0x41 ≤ v) (hhi : v < 0x80) : PageReads v fun _ _ => 0x00 :=
  fun l t => memRead_zero (.inr (.inr (busTarget_unmappedPage hlo hhi l))) t

/-! ### The I/O page -/

/-- The I/O page reads as 0 without side effect, but for the controller (20 R104-R107). -/
theorem memRead_ioPage {l : Byte} (hl : l ≠ 0x16) (t : State) : memRead (joinBytes 0x40 l) t = (0x00, t) := by
  have haddr : (joinBytes 0x40 l).toNat = 16384 + l.toNat := joinBytes_toNat 0x40 l
  have hpad : joinBytes 0x40 l ≠ 0x4016 := by bv_omega
  apply memRead_zero
  by_cases hdma : joinBytes 0x40 l = 0x4014
  · exact .inl (busTarget_oamDma.mpr hdma)
  · by_cases hio : joinBytes 0x40 l < 0x4018
    · exact .inr (.inl (busTarget_eq_iff.mpr ⟨by bv_omega, hio, hdma, hpad⟩))
    · exact .inr (.inr (busTarget_eq_iff.mpr ⟨by bv_omega, by bv_omega⟩))

theorem memRead_ioPage_index {i : Nat} (hi : i < 256) (hne : i ≠ 0x16) (t : State) :
    memRead (joinBytes 0x40 (BitVec.ofNat 8 i)) t = (0x00, t) :=
  memRead_ioPage (fun h => hne (by bv_omega)) t

/-- A DMA from the I/O page reads the controller once and changes nothing else but OAM. -/
theorem oamDma_ioPage_state (s : State) :
    memWrite 0x4014 0x40 s = { afterDma s (memWrite 0x4014 0x40 s).ppu.oam with pad := padAfterRead s.pad } := by
  have hplain {i : Nat} (hi : i < 256) (hne : i ≠ 0x16) (t : State) : (memRead (joinBytes 0x40 (BitVec.ofNat 8 i)) t).2 = t :=
    congrArg Prod.snd (memRead_ioPage_index hi hne t)
  have hsplit : List.range 256 = List.range 22 ++ 0x16 :: List.range' 23 233 := by
    rw [List.range_eq_range', List.range_eq_range']
    exact (List.range'_append_1 (s := 0) (m := 22) (n := 234)).symm
  obtain ⟨oam, cursor, hloop⟩ := dmaFold_controller (List.range 22) (List.range' 23 233) s
    (fun i hi => have hrange := List.mem_range.mp hi; hplain (by omega) (by omega))
    (fun i hi => have hrange := List.mem_range'_1.mp hi; hplain (by omega) (by omega))
  rw [← hsplit] at hloop
  have hcursor : cursor = s.ppu.oamAddr := by
    rw [← dmaRange_cursor_wraps 0x40 s, hloop]
  rw [memWrite_oamDma, hloop, hcursor]
  rfl

/-- A DMA from the I/O page copies the controller's bit and zeros. -/
theorem oamDma_ioPage_byte {s : State} (hoam : s.ppu.oam.wf = true) {k : Nat} (hk : k < 256) :
    (memWrite 0x4014 0x40 s).ppu.oam.read (s.ppu.oamAddr + BitVec.ofNat 8 k).toNat = if k = 0x16 then padBit s.pad else 0x00 := by
  rw [read_memWrite_oamDma 0x40 hoam hk]
  split_ifs with hpad
  · subst hpad
    have hplain := dmaFold_plain 0x40 (List.range 0x16) s fun i hi t => by
      have hrange := List.mem_range.mp hi
      rw [memRead_ioPage_index (by omega) (by omega)]
    rw [hplain]
    rfl
  · rw [memRead_ioPage_index hk hpad]

/-- Settles O59: the loop's laws for any page, then the pages by what their reads answer. -/
theorem oamDmaCopiesAPage : Obligations.OamDmaCopiesAPage := by
  intro v s
  obtain ⟨hcpu, hbus, -⟩ := dmaFold_keeps v (List.range 256) s
  have hlow {k : Nat} (hk : k < 256) : (BitVec.ofNat 8 k : Byte).toNat = k := Nat.mod_eq_of_lt hk
  refine ⟨?copied, dmaRange_cursor_wraps v s, hbus, fun hoam k hk => read_memWrite_oamDma v hoam hk, fun hv => ?ram,
    fun hv => ?prg, fun hv => ?io, fun hlo hhi => ?unmapped⟩
  case copied =>
    rw [memWrite_oamDma, State.charge, State.setCyc, hcpu]
    rfl
  case ram =>
    refine ⟨(pageReads_ram hv).oamDma_state s, fun hoam k hk => ?_⟩
    simpa only [hlow hk] using (pageReads_ram hv).oamDma_byte hoam hk
  case prg => exact ⟨(pageReads_prg hv).oamDma_state s, fun hoam k hk => (pageReads_prg hv).oamDma_byte hoam hk⟩
  case io =>
    subst hv
    exact ⟨oamDma_ioPage_state s, fun hoam k hk => oamDma_ioPage_byte hoam hk⟩
  case unmapped =>
    exact ⟨(pageReads_unmapped hlo hhi).oamDma_state s, fun hoam k hk => (pageReads_unmapped hlo hhi).oamDma_byte hoam hk⟩

end Sys2Proof.Machine
end

section
/-! PROOFS. The opcode table (30 R157-R163), and that decoder and encoder invert each other through it (30 R150-R156): the decoder
answers an instruction exactly where the bytes are the opcode of its table row and the bytes of its operand. -/

namespace Sys2Proof

/-! ### An instruction as mnemonic and operand -/

/-- The mnemonic of an instruction (30 R157). -/
def Instr.mnemonic : Instr → Mnemonic
  | .lda _ => .lda | .ldx _ => .ldx | .ldy _ => .ldy | .sta _ => .sta | .stx _ => .stx | .sty _ => .sty
  | .tax => .tax | .tay => .tay | .txa => .txa | .tya => .tya | .tsx => .tsx | .txs => .txs
  | .adc _ => .adc | .sbc _ => .sbc | .and _ => .and | .ora _ => .ora | .eor _ => .eor | .bit _ => .bit
  | .cmp _ => .cmp | .cpx _ => .cpx | .cpy _ => .cpy | .inc _ => .inc | .dec _ => .dec
  | .inx => .inx | .iny => .iny | .dex => .dex | .dey => .dey
  | .asl _ => .asl | .lsr _ => .lsr | .rol _ => .rol | .ror _ => .ror
  | .bpl _ => .bpl | .bmi _ => .bmi | .bvc _ => .bvc | .bvs _ => .bvs
  | .bcc _ => .bcc | .bcs _ => .bcs | .bne _ => .bne | .beq _ => .beq
  | .jmp _ => .jmp | .jsr _ => .jsr | .rts => .rts | .brk => .brk | .rti => .rti
  | .pha => .pha | .pla => .pla | .php => .php | .plp => .plp
  | .clc => .clc | .sec => .sec | .cli => .cli | .sei => .sei | .clv => .clv | .cld => .cld | .sed => .sed
  | .nop _ _ => .nop | .slo _ => .slo | .rla _ => .rla | .sre _ => .sre | .rra _ => .rra
  | .sax _ => .sax | .lax _ => .lax | .dcp _ => .dcp | .isb _ => .isb
  | .anc _ _ => .anc | .alr _ => .alr | .arr _ => .arr | .sbx _ => .sbx | .ane _ => .ane | .lxa _ => .lxa | .usbc _ => .usbc
  | .las _ => .las | .tas _ => .tas | .sha _ => .sha | .shx _ => .shx | .shy _ => .shy | .jam _ => .jam

/-- The operand of an instruction in the mode of its table row: the constructors with one mode hold its bytes alone. -/
def Instr.operand : Instr → Operand
  | .lda o | .ldx o | .ldy o | .sta o | .stx o | .sty o | .adc o | .sbc o | .and o | .ora o | .eor o | .bit o | .cmp o | .cpx o
  | .cpy o | .inc o | .dec o | .asl o | .lsr o | .rol o | .ror o | .jmp o | .nop _ o | .slo o | .rla o | .sre o | .rra o | .sax o
  | .lax o | .dcp o | .isb o | .sha o => o
  | .bpl b1 | .bmi b1 | .bvc b1 | .bvs b1 | .bcc b1 | .bcs b1 | .bne b1 | .beq b1 => .rel b1
  | .anc _ b1 | .alr b1 | .arr b1 | .sbx b1 | .ane b1 | .lxa b1 | .usbc b1 => .imm b1
  | .jsr w => .abs w
  | .shy w => .absx w
  | .las w | .tas w | .shx w => .absy w
  | .tax | .tay | .txa | .tya | .tsx | .txs | .inx | .iny | .dex | .dey | .rts | .brk | .rti | .pha | .pla | .php | .plp
  | .clc | .sec | .cli | .sei | .clv | .cld | .sed | .jam _ => .impl

theorem eq_brk_of_mnemonic {i : Instr} (h : i.mnemonic = .brk) : i = .brk := by
  cases i with
  | brk => rfl
  | _ => cases h

/-- BRK alone writes a byte that is no operand's, its signature (D5). -/
theorem Instr.operandBytes_eq {i : Instr} (hi : i ≠ .brk) : i.operandBytes = i.operand.bytes := by
  cases i with
  | brk => exact absurd rfl hi
  | _ => rfl

/-- What a row assembles is of the row's mnemonic, over the operand read. -/
theorem assemble_eq_some {op : Byte} {n : Mnemonic} {o : Operand} {i : Instr} (h : assemble op n o = some i) :
    i.mnemonic = n ∧ i.operand = o := by
  unfold assemble at h
  split at h <;> cases h <;> exact ⟨rfl, rfl⟩

/-- An instruction of the opcode is what the opcode assembles from its mnemonic and operand. -/
theorem assemble_of_opcode {op : Byte} {i : Instr} (h : i.opcode = some op) : assemble op i.mnemonic i.operand = some i := by
  cases i
  case nop | anc | jam =>
    obtain ⟨-, hop⟩ := Option.ite_none_right_eq_some.mp h
    cases hop
    rfl
  all_goals rfl

/-! ### The operand bytes -/

theorem loByte_joinBytes (h l : Byte) : loByte (joinBytes h l) = l := by
  exact BitVec.extractLsb'_append_eq_right

theorem hiByte_joinBytes (h l : Byte) : hiByte (joinBytes h l) = h := by
  exact BitVec.extractLsb'_append_eq_left

/-- A mode reads an operand exactly off that operand's bytes (30 R153-R156). -/
theorem operandOf_eq_some_iff {m : Mode} {bs rest : List Byte} {o : Operand} :
    operandOf m bs = some (o, rest) ↔ o.mode = m ∧ bs = o.bytes ++ rest := by
  constructor
  · intro h
    unfold operandOf at h
    split at h <;> cases h <;> simp [Operand.mode, Operand.bytes, loByte_joinBytes, hiByte_joinBytes]
  · rintro ⟨rfl, rfl⟩
    cases o <;> simp [operandOf, Operand.mode, Operand.bytes, Machine.joinBytes_hi_lo]

theorem Operand.bytes_length_succ (o : Operand) : o.bytes.length + 1 = o.mode.length := by
  cases o <;> rfl

/-! ### The rows of the table -/

/-- BRK's row alone is longer than its mode (30 R150, D5). -/
theorem descriptor_length : ∀ op : Byte,
    (descriptor op).any (fun d => d.length == if op = 0x00 then 2 else d.mode.length) = true := by
  decide +kernel

theorem length_of_descriptor {op : Byte} {d : Descriptor} (h : descriptor op = some d) :
    d.length = if op = 0x00 then 2 else d.mode.length := by
  simpa [h] using descriptor_length op

theorem exists_descriptor (op : Byte) : ∃ d, descriptor op = some d := by
  obtain ⟨d, hd, -⟩ := (Option.any_eq_true _ _).mp (descriptor_length op)
  exact ⟨d, hd⟩

/-- The descriptor is the table's row for a well-formed instruction of the opcode. -/
structure IsRow (i : Instr) (op : Byte) (d : Descriptor) : Prop where
  wf : i.wf = true
  opcode : i.opcode = some op
  row : descriptor op = some d
  mnemonic : d.mnemonic = i.mnemonic
  mode : d.mode = i.operand.mode

/-- What a row assembles from an operand of its mode is an instruction of that row. -/
theorem isRow_of_assemble {op : Byte} {d : Descriptor} {i : Instr} (hd : descriptor op = some d) (hm : i.operand.mode = d.mode)
    (ha : assemble op d.mnemonic i.operand = some i) : IsRow i op d := by
  have hgood : Machine.goodInstr op i = true := by
    have hrow := Machine.rows_assemble op
    simp only [hd, Option.any_some, ← hm, ← Machine.assemble_mode, ha, Bool.and_eq_true] at hrow
    exact hrow.1
  obtain ⟨⟨hwf, hop⟩, -⟩ : (i.wf = true ∧ i.opcode = some op) ∧ _ := by simpa [Machine.goodInstr] using hgood
  obtain ⟨hn, -⟩ := assemble_eq_some ha
  exact ⟨hwf, hop, hd, hn.symm, hm.symm⟩

/-- Do the table's row for `op` and the opcode list of an instruction's rule agree on mnemonic and mode? -/
def rowAgrees (n : Mnemonic) (m : Mode) (op : Byte) : Bool :=
  (descriptor op).any fun d => d.mnemonic == n && d.mode == m

theorem isRow_of_rowAgrees {i : Instr} {op : Byte} (hw : i.wf = true) (hop : i.opcode = some op)
    (h : rowAgrees i.mnemonic i.operand.mode op = true) : ∃ op d, IsRow i op d := by
  obtain ⟨d, hd, hagrees⟩ := (Option.any_eq_true _ _).mp h
  obtain ⟨hn, hm⟩ := Bool.and_eq_true_iff.mp hagrees
  exact ⟨op, d, hw, hop, hd, beq_iff_eq.mp hn, beq_iff_eq.mp hm⟩

/-- An instruction whose opcode is picked by the mode, from a list that agrees with the table on each mode its rule has. -/
theorem exists_isRow_of_pick {i : Instr} {modes : List Mode} {rows : List (Mode × Byte)}
    (hwf : i.wf = modes.contains i.operand.mode) (hop : i.opcode = pick rows i.operand)
    (h : (modes.all fun m => (rows.lookup m).any (rowAgrees i.mnemonic m)) = true) (hw : i.wf = true) : ∃ op d, IsRow i op d := by
  have hmem : i.operand.mode ∈ modes := by rwa [hwf, List.contains_iff_mem] at hw
  obtain ⟨op, hpick, hagrees⟩ := (Option.any_eq_true _ _).mp (List.all_eq_true.mp h _ hmem)
  exact isRow_of_rowAgrees hw (hop.trans hpick) hagrees

theorem nopForms_agree : ∀ f ∈ nopForms, rowAgrees .nop f.2 f.1 = true := by decide

theorem ancOpcodes_agree : ∀ op ∈ ancOpcodes, rowAgrees .anc .imm op = true := by decide

theorem jamOpcodes_agree : ∀ op ∈ jamOpcodes, rowAgrees .jam .impl op = true := by decide

/-- Every well-formed instruction has a row: the opcode lists of 41-46 agree with the table of 30 R158. -/
theorem exists_isRow {i : Instr} (hw : i.wf = true) : ∃ op d, IsRow i op d := by
  cases i
  case lda | ldx | ldy | sta | stx | sty | adc | sbc | and | ora | eor | bit | cmp | cpx | cpy | inc | dec | asl | lsr | rol | ror
      | jmp | slo | rla | sre | rra | sax | lax | dcp | isb | sha =>
    exact exists_isRow_of_pick rfl rfl rfl hw
  case nop op o => exact isRow_of_rowAgrees hw (if_pos hw) (nopForms_agree (op, o.mode) (List.contains_iff_mem.mp hw))
  case anc op b1 => exact isRow_of_rowAgrees hw (if_pos hw) (ancOpcodes_agree op (List.contains_iff_mem.mp hw))
  case jam op => exact isRow_of_rowAgrees hw (if_pos hw) (jamOpcodes_agree op (List.contains_iff_mem.mp hw))
  all_goals exact isRow_of_rowAgrees hw rfl rfl

theorem IsRow.eq_brk_iff {i : Instr} {op : Byte} {d : Descriptor} (h : IsRow i op d) : i = .brk ↔ op = 0x00 := by
  constructor
  · rintro rfl
    exact (Option.some.inj h.opcode).symm
  · rintro rfl
    apply eq_brk_of_mnemonic
    rw [← h.mnemonic, ← Option.some.inj h.row]

/-- A row but BRK's is as long as the opcode and the operand's bytes. -/
theorem IsRow.length {i : Instr} {op : Byte} {d : Descriptor} (h : IsRow i op d) (hi : i ≠ .brk) :
    d.length = (op :: i.operand.bytes).length := by
  rw [length_of_descriptor h.row, if_neg (mt h.eq_brk_iff.mpr hi), h.mode, ← Operand.bytes_length_succ, List.length_cons]

/-! ### The decoder -/

/-- The decoder answers an instruction exactly where the bytes are the opcode of its row and the bytes of its operand; what follows is
counted by the row's length (30 R150, R151). -/
theorem decode_eq_ok_iff {op : Byte} {bs rest : List Byte} {i : Instr} :
    decode (op :: bs) = .ok i rest ↔
      ∃ d bs', IsRow i op d ∧ bs = i.operand.bytes ++ bs' ∧ rest = (op :: bs).drop d.length := by
  constructor
  · intro h
    unfold decode at h
    obtain ⟨d, hd⟩ := exists_descriptor op
    simp only [hd] at h
    split at h
    next => cases h
    next o bs' ho =>
      split at h
      next => cases h
      next ha =>
        cases h
        obtain ⟨-, rfl⟩ := assemble_eq_some ha
        obtain ⟨hm, hbs⟩ := operandOf_eq_some_iff.mp ho
        exact ⟨d, bs', isRow_of_assemble hd hm ha, hbs, rfl⟩
  · rintro ⟨d, bs', hrow, hbs, rfl⟩
    have ho : operandOf d.mode bs = some (i.operand, bs') := operandOf_eq_some_iff.mpr ⟨hrow.mode.symm, hbs⟩
    have ha : assemble op d.mnemonic i.operand = some i := by rw [hrow.mnemonic, assemble_of_opcode hrow.opcode]
    simp only [decode, hrow.row, ho, ha]

theorem encode_of_opcode {i : Instr} {op : Byte} (h : i.opcode = some op) (hi : i ≠ .brk) : encode i = op :: i.operand.bytes := by
  rw [encode, h, ← Instr.operandBytes_eq hi]

/-- What follows an instruction other than BRK is what follows its operand's bytes. -/
theorem IsRow.drop_length {i : Instr} {op : Byte} {d : Descriptor} (h : IsRow i op d) (hi : i ≠ .brk) (rest : List Byte) :
    (op :: (i.operand.bytes ++ rest)).drop d.length = rest :=
  List.drop_left' (h.length hi).symm

/-- Settles O1: the encoding is the opcode and operand bytes of the instruction's row; BRK's signature byte is skipped. -/
theorem decodeInvertsEncode : Obligations.DecodeInvertsEncode := by
  intro i rest hw
  by_cases hi : i = .brk
  · subst hi
    rfl
  · obtain ⟨op, d, hrow⟩ := exists_isRow hw
    rw [encode_of_opcode hrow.opcode hi, List.cons_append, decode_eq_ok_iff]
    exact ⟨d, rest, hrow, rfl, (hrow.drop_length hi rest).symm⟩

/-- Settles O2: the bytes read are those of the instruction's row; BRK's row alone is longer than what its mode reads. -/
theorem encodeInvertsDecode : Obligations.EncodeInvertsDecode := by
  intro op bs rest i h
  obtain ⟨d, bs', hrow, rfl, rfl⟩ := decode_eq_ok_iff.mp h
  refine ⟨hrow.wf, hrow.opcode, fun hi => ?bytes, fun hi => ?brk⟩
  case bytes => rw [hrow.drop_length hi, encode_of_opcode hrow.opcode hi, List.cons_append]
  case brk =>
    have hlength : d.length = 2 := by rw [length_of_descriptor hrow.row, if_pos (hrow.eq_brk_iff.mp hi)]
    rw [hlength, List.drop_succ_cons]

/-! ### The table -/

theorem descriptor_jam_iff (op : Byte) : (∃ d, descriptor op = some d ∧ d.cls = .jam) ↔ op ∈ jamOpcodes := by
  have hbyte : ∀ op : Byte, (descriptor op).any (·.cls == .jam) = jamOpcodes.contains op := by decide +kernel
  rw [← List.contains_iff_mem, ← hbyte, Option.any_eq_true]
  simp only [beq_iff_eq]

/-- Settles O3: the columns are counted over the 256 rows, the JAM bytes and the lengths checked byte by byte. -/
theorem opcodeTableIsTotal : Obligations.OpcodeTableIsTotal := by
  refine ⟨?rows, ?ranges, ?official, ?jam, descriptor_jam_iff, ?lengths, ?penalty⟩
  case rows | ranges | official | jam | penalty => decide +kernel
  case lengths =>
    intro op
    obtain ⟨d, hd⟩ := exists_descriptor op
    exact ⟨d, hd, length_of_descriptor hd⟩

/-- Settles O4: each word is decoded through its row. -/
theorem writtenWordsDecode : Obligations.WrittenWordsDecode :=
  ⟨rfl, rfl, rfl, rfl, rfl, rfl, rfl, rfl, rfl, rfl, rfl, rfl⟩

/-- Settles O6: the NMI poll and the fetch always succeed, and the instruction completes or is JAM, whose record is a next state. -/
theorem runningMachineAlwaysSteps : Obligations.RunningMachineAlwaysSteps := by
  intro s hrun
  obtain ⟨u, hnext, -⟩ | ⟨hnext, -⟩ := Machine.step_cases s hrun
  · exact ⟨_, hnext⟩
  · exact ⟨_, hnext⟩

end Sys2Proof
end

section
/-! PROOFS. The step around an instruction's rule (40 R200-R203, R233): the rule of the bytes decoded at PC runs between the NMI poll
and the Bus tick, and a completed one moves the Bus's clock. -/

namespace Sys2Proof.Machine

/-- Bytes that can be peeked from `a` on are what a fetch reads there, and reading them has no side effect (40 R201, 70 R630). -/
theorem readBytes_of_peek {s : State} : ∀ {bs : List Byte} {a : Word},
    (∀ k, k < bs.length → peek s (a + BitVec.ofNat 16 k) = bs[k]?) → readBytes bs.length a s = (bs, s)
  | [], _, _ => rfl
  | b :: bs, a, h => by
    have hhead : memRead a s = (b, s) := memRead_of_peek (by simpa using h 0 (Nat.zero_lt_succ _))
    have htail : readBytes bs.length (a + 1) s = (bs, s) := readBytes_of_peek fun k hk => by
      have hnext : a + 1 + BitVec.ofNat 16 k = a + BitVec.ofNat 16 (k + 1) := by
        rw [BitVec.add_assoc, Nat.add_comm k 1, BitVec.ofNat_add]
        rfl
      rw [hnext, h (k + 1) (Nat.succ_lt_succ hk), List.getElem?_cons_succ]
    simp only [List.length_cons, readBytes, hhead, htail]

/-- A fetch of bytes that can be peeked decodes them, and only sets the cycle count (40 R200-R203). -/
theorem fetch_of_peek {b : State} {op : Byte} {bs : List Byte} (hlength : bs.length + 1 = fetchLength op)
    (hop : peek b b.cpu.pc = some op) (hbs : ∀ k, k < bs.length → peek b (b.cpu.pc + 1 + BitVec.ofNat 16 k) = bs[k]?) :
    fetch b = ⟨op, decode (op :: bs), b.setCyc (baseCycles op)⟩ := by
  have hcount : fetchLength op - 1 = bs.length := by omega
  simp only [fetch, memRead_of_peek hop, hcount, readBytes_of_peek hbs]

/-- The end of a step, by whether the instruction left the machine running (40 R233, 60 R501). -/
theorem complete_eq (b u : State) :
    complete b u = if u.cpu.run = .running then busTick u.cpu.cyc (u.setCyc 0) else b.setRun u.cpu.run := by
  unfold complete
  cases u.cpu.run with
  | running => rw [if_pos rfl]
  | faulted r => rw [if_neg nofun]

/-- What a step makes of the answer of an instruction's rule that began from the boundary `b`. -/
def stepAnswer (b : State) : Answer → Answer
  | .next u => .next (complete b u)
  | .fault e => .fault e
  | .refused e => .refused e

/-- A running machine's step runs the instruction that its fetch decodes (40 R200). -/
theorem step_of_decoded {s : State} (hrun : s.cpu.run = .running) {i : Instr} {rest : List Byte}
    (h : (fetch (serviceNmi s)).decoded = .ok i rest) :
    step s = stepAnswer (serviceNmi s) (exec i (fetch (serviceNmi s)).st) := by
  simp only [step, hrun, h, stepAnswer]
  rfl

/-- Settles O5: a step is the rule of what its fetch decodes; a fetch from RAM or PRG ROM reads the peeked bytes and no more. -/
theorem stepRunsDecodedInstruction : Obligations.StepRunsDecodedInstruction := by
  intro s hrun b finish
  have hfinish (a : Answer) : stepAnswer b a = finish a := by
    cases a with
    | next u => exact congrArg Host.Outcome.next (complete_eq b u)
    | fault e => rfl
    | refused e => rfl
  refine ⟨fun i rest hdecode => ?_, fun op bs i hlength hop hbs hdecode => ?_⟩
  · exact (step_of_decoded hrun hdecode).trans (hfinish _)
  · have hfetch := fetch_of_peek hlength hop hbs
    have hdecoded : (fetch b).decoded = .ok i [] := by rw [hfetch, hdecode]
    rw [step_of_decoded hrun hdecoded, hfetch, hfinish]

/-- Settles O13: the fetch charges at least 2 cycles, the instruction's rule lowers neither them nor the master counter, and the tick
reports them; a step that ends in a fault's record is no completed one. -/
theorem completedStepAdvancesClock : Obligations.CompletedStepAdvancesClock := by
  intro s t hstep hrun
  obtain ⟨u, hu, rfl⟩ | ⟨r, rfl⟩ := next_cases hstep
  · obtain ⟨-, -, hcpu, hfetch⟩ := fetch_spec (serviceNmi s)
    obtain ⟨-, -, hbus, -⟩ := busTick_spec u.cpu.cyc (u.setCyc 0)
    have hcharged : baseCycles (fetch (serviceNmi s)).op ≤ u.cpu.cyc := by simpa only [hcpu] using hu.kept.cyc
    have hcounter : u.bus.cycles = (serviceNmi s).bus.cycles := hu.kept.cycles.trans hfetch.kept.cycles
    rw [hbus]
    calc s.bus.cycles + 2 ≤ (serviceNmi s).bus.cycles + baseCycles (fetch (serviceNmi s)).op :=
          Nat.add_le_add (serviceNmi_onward s).cycles (two_le_baseCycles _)
      _ ≤ u.bus.cycles + u.cpu.cyc := Nat.add_le_add hcounter.ge hcharged
  · rw [setRun_run] at hrun
    cases hrun

end Sys2Proof.Machine
end

section
/-! PROOFS. The read-modify-write instructions (40 R222): INC and DEC (42 R311, R312), the shifts and rotates (43 R350-R354). -/

namespace Sys2Proof.Machine

/-- A read-modify-write of `f` that sets Z and N from the result completes (40 R222). -/
theorem completesModifying_setZN {i : Instr} {o : Operand} {f : Byte → Byte} (hm : isMemoryMode o.mode = true)
    (he : ∀ s, exec i s = modifyThen o s (fun _ m => f m) fun m t => t.setZN (f m)) :
    CompletesModifying i o (fun _ m => f m) fun c m => { c with p := setZN c.p (f m) } :=
  completesModifying_of hm he (fun _ _ => rfl) (fun _ _ => rfl) (fun _ _ _ => rfl) (fun _ _ => rfl)

/-- Settles O39: INC and DEC write the byte plus or minus 1 back, in memory modes only. -/
theorem memoryCountersComplete : Obligations.MemoryCountersComplete := by
  refine fun o => ⟨fun hw => ?inc, fun hw => ?dec⟩
  case inc => exact completesModifying_setZN (f := (· + 1)) (memoryMode_of_mem hw rfl) fun _ => rfl
  case dec => exact completesModifying_setZN (f := (· - 1)) (memoryMode_of_mem hw rfl) fun _ => rfl

/-- ROL shifts the old carry into bit 0 (43 R350). -/
theorem rol8_eq (v : Byte) (c : Bool) : rol8 v c = ⟨(v <<< 1) ||| (if c then 0x01 else 0x00), v.getLsbD 7⟩ := by
  cases c <;> rfl

/-- ROR shifts the old carry into bit 7 (43 R350). -/
theorem ror8_eq (v : Byte) (c : Bool) : ror8 v c = ⟨(v >>> 1) ||| (if c then 0x80 else 0x00), v.getLsbD 0⟩ := by
  cases c <;> rfl

/-- A shift of the accumulator completes (43 R350). -/
theorem completesInRegisters_shift {i : Instr} {f : Byte → Bool → Shifted} (he : ∀ s, exec i s = shiftThen .acc s f) :
    CompletesInRegisters i 1 fun c =>
      { c with a := (f c.a (getFlag c.p .c)).value, p := shiftFlags c.p (f c.a (getFlag c.p .c)) } :=
  fun s => he s

/-- A shift of any other operand reads, modifies and writes it (40 R222). -/
theorem shiftThen_of_ne_acc {o : Operand} (ho : o.mode ≠ .acc) (s : State) (f : Byte → Bool → Shifted) :
    shiftThen o s f = modifyThen o s (fun p m => (f m (getFlag p .c)).value) fun m t =>
      t.setP (shiftFlags t.cpu.p (f m (getFlag t.cpu.p .c))) := by
  cases o
  case acc => exact absurd rfl ho
  all_goals rfl

/-- A shift of memory completes, in every memory form of the shifts (43 R350-R354). -/
theorem completesModifying_shift {i : Instr} {o : Operand} {f : Byte → Bool → Shifted} (ho : o.mode ≠ .acc)
    (hw : Modes.shift.contains o.mode = true) (he : ∀ s, exec i s = shiftThen o s f) :
    CompletesModifying i o (fun c m => (f m (getFlag c.p .c)).value) fun c m =>
      { c with p := shiftFlags c.p (f m (getFlag c.p .c)) } :=
  completesModifying_of ((shiftable_of_mem hw rfl).resolve_right ho) (fun s => (he s).trans (shiftThen_of_ne_acc ho s f))
    (fun _ _ => rfl) (fun _ _ => rfl) (fun _ _ _ => rfl) (fun _ _ => rfl)

/-- Settles O40: each is its shift of a byte on the accumulator or on memory; the rotates' byte is `rol8_eq`'s and `ror8_eq`'s. -/
theorem shiftsComplete : Obligations.ShiftsComplete := by
  refine ⟨?aslA, ?lsrA, ?rolA, ?rorA, fun o ho => ⟨fun hw => ?asl, fun hw => ?lsr, fun hw => ?rol, fun hw => ?ror⟩⟩
  case aslA => exact completesInRegisters_shift (f := asl8) fun _ => rfl
  case lsrA => exact completesInRegisters_shift (f := lsr8) fun _ => rfl
  case rolA => simpa only [rol8_eq, shiftFlags] using completesInRegisters_shift (i := .rol .acc) (f := rol8) fun _ => rfl
  case rorA => simpa only [ror8_eq, shiftFlags] using completesInRegisters_shift (i := .ror .acc) (f := ror8) fun _ => rfl
  case asl => exact completesModifying_shift (f := asl8) ho hw fun _ => rfl
  case lsr => exact completesModifying_shift (f := lsr8) ho hw fun _ => rfl
  case rol => simpa only [rol8_eq, shiftFlags] using completesModifying_shift (i := .rol o) (f := rol8) ho hw fun _ => rfl
  case ror => simpa only [ror8_eq, shiftFlags] using completesModifying_shift (i := .ror o) (f := ror8) ho hw fun _ => rfl

end Sys2Proof.Machine
end

section
/-! PROOFS. Branches (44 R370-R378, 40 R217) and JMP (44 R379, R380, 40 R214). -/

namespace Sys2Proof.Machine

/-! ### Branches -/

/-- A word plus a sign-extended byte is their signed sum, wrapped to 16 bits (00 R12). -/
theorem toInt_add_sext16 (w : Word) (b : Byte) : (w + sext16 b).toInt = (w.toInt + b.toInt).bmod 65536 := by
  rw [BitVec.toInt_add, sext16, BitVec.toInt_signExtend_of_le (by decide)]

/-- The state after a branch that is taken: 1 cycle more, or 2 where the target leaves next's page (44 R370). -/
def branchTaken (off : Byte) (s : State) : State := { s with cpu := { s.cpu with
  pc := branchTarget off s, cyc := s.cpu.cyc + (if hiByte (s.cpu.pc + 2) = hiByte (branchTarget off s) then 1 else 2) } }

/-- The common branch rule, on its condition (44 R370). -/
theorem branchIf_eq (taken : Bool) (off : Byte) (s : State) :
    branchIf taken off s = if taken then branchTaken off s else s.advance 2 := by
  cases taken with
  | true =>
    rw [branchIf, if_pos rfl, if_pos rfl, branchTaken]
    split_ifs <;> rfl
  | false => rfl

/-- The common branch rule, on a flag that must be clear. -/
theorem branchIf_not (flag : Bool) (off : Byte) (s : State) :
    branchIf (!flag) off s = if flag then s.advance 2 else branchTaken off s := by
  rw [branchIf_eq]
  cases flag <;> rfl

/-- Settles O41: each branch is the common rule, on its flag or on the flag's complement. -/
theorem branchesComplete : Obligations.BranchesComplete := by
  intro off s next target taken skipped
  have onSet (f : Flag) : branchIf (getFlag s.cpu.p f) off s = if getFlag s.cpu.p f then taken else skipped := branchIf_eq _ off s
  have onClear (f : Flag) : branchIf (!getFlag s.cpu.p f) off s = if getFlag s.cpu.p f then skipped else taken := branchIf_not _ off s
  exact ⟨toInt_add_sext16 next off, congrArg _ (onClear .n), congrArg _ (onSet .n), congrArg _ (onClear .v), congrArg _ (onSet .v),
    congrArg _ (onClear .c), congrArg _ (onSet .c), congrArg _ (onClear .z), congrArg _ (onSet .z)⟩

/-! ### JMP -/

/-- A pointer's two reads leave what a read leaves, and no register changes (40 R214). -/
theorem read16InPage_frame (p : Word) (s : State) :
    ReadFrame s (read16InPage p s).2 ∧ (read16InPage p s).2.cpu = s.cpu :=
  ⟨(memRead_frame _ _).trans (memRead_frame _ _), (memRead_cpu _ _).trans (memRead_cpu _ _)⟩

/-- A pointer in RAM or PRG ROM: its word's high byte stands in the pointer's own page, and reading it changes nothing (40 R214). -/
theorem read16InPage_of_peek {p : Word} {s : State} {lo hi : Byte} (hlo : peek s p = some lo)
    (hhi : peek s (joinBytes (hiByte p) (loByte p + 1)) = some hi) : read16InPage p s = (joinBytes hi lo, s) := by
  simp only [read16InPage, memRead_of_peek hlo, memRead_of_peek hhi]

/-- JMP through a pointer goes to the word there (44 R380). -/
theorem exec_jmp_ind (w : Word) (s : State) :
    exec (.jmp (.ind w)) s = .next ((read16InPage w s).2.setPc (read16InPage w s).1) := rfl

/-- Settles O42: JMP sets PC to its operand's address, which for a pointer is the word read in the pointer's page. -/
theorem jmpCompletes : Obligations.JmpCompletes := by
  intro w s
  refine ⟨rfl, ?pointer, fun lo hi hlo hhi => ?plainPointer⟩
  case pointer =>
    obtain ⟨hframe, hcpu⟩ := read16InPage_frame w s
    refine ⟨direct (read16InPage w s).1 (read16InPage w s).2, rfl, hframe, ?_⟩
    rw [exec_jmp_ind, State.setPc, hcpu]
    rfl
  case plainPointer =>
    rw [exec_jmp_ind, read16InPage_of_peek hlo hhi]
    rfl

end Sys2Proof.Machine
end

section
/-! PROOFS. Loads, stores, transfers and index counters (41 R250-R261, 42 R313-R316, 46 R435, R436, R445). -/

namespace Sys2Proof.Machine

/-- A read instruction whose rule is a function of the CPU's registers that leaves PC and the cycle count to the shape completes so. -/
theorem completesReading_registers {i : Instr} {o : Operand} {f : Cpu → Byte → Cpu}
    (hm : isMemoryMode o.mode = true ∨ o.mode = .imm ∨ o.mode = .acc)
    (hf : ∀ c m pc n, f { c with pc := pc, cyc := n } m = { f c m with pc := pc, cyc := n })
    (he : ∀ s, exec i s = readThen o s fun m t => { t with cpu := f t.cpu m }) : CompletesReading i o f := by
  have hpc (c : Cpu) (m : Byte) : (f c m).pc = c.pc := (congrArg Cpu.pc (hf c m c.pc c.cyc) :)
  have hcyc (c : Cpu) (m : Byte) (n : Nat) : f { c with cyc := n } m = { f c m with cyc := n } :=
    (hf c m c.pc n).trans (by rw [← hpc c m])
  exact completesReading_of hm he (fun _ _ => rfl) hcyc hpc

/-- Settles O34: each load writes registers from the one byte it reads; LAS from the byte and S. -/
theorem loadsComplete : Obligations.LoadsComplete := by
  refine ⟨fun o => ⟨fun hw => ?lda, fun hw => ?ldx, fun hw => ?ldy, fun hw => ?lax⟩, fun base => ?las⟩
  case lda | ldx | ldy | lax => exact completesReading_registers (readable_of_mem hw rfl) (fun _ _ _ _ => rfl) fun _ => rfl
  case las => exact completesReading_registers (.inl rfl) (fun _ _ _ _ => rfl) fun _ => rfl

/-- Settles O35: each is the common store of its byte, in memory modes only. -/
theorem storesComplete : Obligations.StoresComplete := by
  refine fun o => ⟨fun hw => ?sta, fun hw => ?stx, fun hw => ?sty, fun hw => ?sax⟩
  case sta | stx | sty | sax => exact completesStoring_of (memoryMode_of_mem hw rfl) fun _ => rfl

/-- Settles O36: each rule is the statement's record, for whatever state it runs in. -/
theorem registerInstructionsComplete : Obligations.RegisterInstructionsComplete :=
  ⟨fun _ => rfl, fun _ => rfl, fun _ => rfl, fun _ => rfl, fun _ => rfl, fun _ => rfl, fun _ => rfl, fun _ => rfl, fun _ => rfl,
    fun _ => rfl⟩

end Sys2Proof.Machine
end

section
/-! PROOFS. The adder's overflow (42 R300), and the flags an addition and a compare write (42 R300, R301). -/

namespace Sys2Proof.Machine

/-! ### ADD8 -/

/-- The overflow mask compares signs: the result's is neither the operand's nor A's (42 R300). -/
theorem addOverflow_eq_msb (a m : Byte) (c : Bool) :
    addOverflow a m c = ((m.msb ^^ (addResult a m c).msb) && ((addResult a m c).msb ^^ a.msb)) := by
  rw [addOverflow, BitVec.msb_and, BitVec.msb_xor, BitVec.msb_xor]

/-- Overflow says that the signed sum is no signed byte (42 R300): by the signs of the three bytes, each in naturals. -/
theorem addOverflow_iff (a m : Byte) (c : Bool) : addOverflow a m c = true ↔
    ¬ (-128 ≤ a.toInt + m.toInt + (c.toNat : Int) ∧ a.toInt + m.toInt + (c.toNat : Int) ≤ 127) := by
  have ha := a.isLt
  have hm := m.isLt
  have hc := c.toNat_le
  have hr := addResult_toNat a m c
  simp only [addOverflow_eq_msb, BitVec.msb_eq_decide, BitVec.toInt_eq_toNat_cond, Bool.and_eq_true, bne_iff_ne, ne_eq,
    decide_eq_decide]
  split_ifs <;> omega

/-- The mask `$3C` selects the flags that the adder keeps (42 R300). -/
theorem getFlag_addFlags_of_mask3C {f : Flag} (hf : getFlag 0x3C f = true) (p a m : Byte) :
    getFlag (addFlags p a m) f = getFlag p f := by
  rw [getFlag_addFlags]
  cases f
  case c | z | v | n => exact absurd hf (by decide)
  case i | d | b | u => rfl

/-- Settles O21: each clause is what the adder's result, its carry, its overflow or its other flags are. -/
theorem adderLaws : Obligations.AdderLaws := by
  intro s m c t
  refine ⟨rfl, addResult_toNat _ _ _, ?carry, ?overflow, ?zero, ?negative, and_eq_and_of_flags fun f hf => ?others⟩
  case carry => exact (Bool.eq_iff_iff.mp (getFlag_addFlags _ _ _ .c)).trans (addCarry_iff _ _ _)
  case overflow => exact (Bool.eq_iff_iff.mp (getFlag_addFlags _ _ _ .v)).trans (addOverflow_iff _ _ _)
  case zero => exact (Bool.eq_iff_iff.mp (getFlag_addFlags _ _ _ .z)).trans beq_iff_eq
  case negative => exact (getFlag_addFlags _ _ _ .n).trans (BitVec.msb_eq_getLsbD_last _)
  case others => exact getFlag_addFlags_of_mask3C hf _ _ _

/-! ### COMPARE -/

/-- The mask `$7C` selects the flags that a compare keeps (42 R301). -/
theorem getFlag_compareFlags_of_mask7C {f : Flag} (hf : getFlag 0x7C f = true) (p r m : Byte) :
    getFlag (compareFlags p r m) f = getFlag p f := by
  rw [getFlag_compareFlags]
  cases f
  case c | z | n => exact absurd hf (by decide)
  case i | d | b | u | v => rfl

/-- Settles O23: C is the unsigned comparison, and the difference is 0 exactly of equal bytes. -/
theorem compareLaws : Obligations.CompareLaws := by
  intro s r m t
  refine ⟨rfl, ?carry, ?zero, ?negative, and_eq_and_of_flags fun f hf => ?others⟩
  case carry => exact (Bool.eq_iff_iff.mp (getFlag_compareFlags _ _ _ .c)).trans decide_eq_true_iff
  case zero => exact (Bool.eq_iff_iff.mp (getFlag_compareFlags _ _ _ .z)).trans (beq_iff_eq.trans sub_eq_zero)
  case negative => exact (getFlag_compareFlags _ _ _ .n).trans (BitVec.msb_eq_getLsbD_last _)
  case others => exact getFlag_compareFlags_of_mask7C hf _ _ _

end Sys2Proof.Machine
end

section
/-! PROOFS. The arithmetic, logical and compare instructions in every form (42 R301-R310, 46 R450). -/

namespace Sys2Proof.Machine

/-- Settles O37: ADC and SBC add the byte they read, as it stands or complemented; USBC adds its complemented immediate. -/
theorem addAndSubtractComplete : Obligations.AddAndSubtractComplete := by
  refine ⟨fun o => ⟨fun hw => ?adc, fun hw => ?sbc⟩, fun b s => ?usbc⟩
  case adc | sbc => exact completesReading_registers (readable_of_mem hw rfl) (fun _ _ _ _ => rfl) fun _ => rfl
  case usbc => rfl

theorem getFlag_or (p q : Byte) (f : Flag) : getFlag (p ||| q) f = (getFlag p f || getFlag q f) := BitVec.getLsbD_or

/-- The byte `$02` is the flag Z alone (10 R36). -/
theorem getFlag_ite_mask02 (q : Prop) [Decidable q] (f : Flag) :
    getFlag (if q then 0x02 else 0x00) f = (f == .z && decide q) := by
  by_cases hq : q
  · rw [if_pos hq, decide_eq_true hq]
    cases f <;> rfl
  · rw [if_neg hq, decide_eq_false hq]
    cases f <;> rfl

/-- BIT's three flag writes as masks of P and of the operand (42 R307). -/
theorem bitFlags_eq_masks (p a m : Byte) :
    setFlag (setFlag (setFlag p .z (a &&& m == 0)) .n (m.getLsbD 7)) .v (m.getLsbD 6) =
      (p &&& 0x3D) ||| (m &&& 0xC0) ||| (if a &&& m = 0 then 0x02 else 0x00) := by
  refine eq_of_flags fun f => ?_
  rw [getFlag_or, getFlag_or, getFlag_and, getFlag_and, getFlag_ite_mask02, getFlag_setFlag, getFlag_setFlag, getFlag_setFlag]
  cases f
  case z => simpa [getFlag, flagBit] using beq_eq_decide (a &&& m) 0
  case n | v | c | i | d | b | u => simp [getFlag, flagBit]

/-- Settles O38: each writes A and P, or P alone, from the byte it reads; BIT's P is `bitFlags_eq_masks`'s. -/
theorem logicalsAndComparesComplete : Obligations.LogicalsAndComparesComplete := by
  refine fun o => ⟨fun hw => ?and, fun hw => ?ora, fun hw => ?eor, fun hw => ?cmp, fun hw => ?cpx, fun hw => ?cpy, fun hw => ?bit⟩
  case and | ora | eor | cmp | cpx | cpy =>
    exact completesReading_registers (readable_of_mem hw rfl) (fun _ _ _ _ => rfl) fun _ => rfl
  case bit =>
    refine completesReading_registers (readable_of_mem hw rfl) (fun _ _ _ _ => rfl) fun s => ?_
    simp only [← bitFlags_eq_masks]
    rfl

end Sys2Proof.Machine
end

section
/-! PROOFS. The software interrupt and the return from one (44 R383, R384): what an interrupt does in general, at the vector and the
break bit of BRK. -/

namespace Sys2Proof.Machine

/-- Both forced bits of a pushed image with the break bit set, as one mask (10 R41). -/
theorem pushImage_true (p : Byte) : pushImage p true = (p &&& 0xCF) ||| 0x30 :=
  BitVec.or_assoc (p &&& 0xCF) 0x20 0x10

/-- Settles O16: BRK enters an interrupt with B = 1, through a vector that lies in PRG ROM. -/
theorem brkEntersItsVector : Obligations.BrkEntersItsVector := by
  intro s
  have hentry := enterInterrupt_eq (s.cpu.pc + 2) true s (vec := brkVector) (by decide) (by decide)
  rw [pushImage_true] at hentry
  exact congrArg Host.Outcome.next hentry

/-- Settles O17: RTI is the return from an interrupt, and the forced bits of a pulled P are `pulledStatus`'s. -/
theorem rtiRestoresStatusAndPc : Obligations.RtiRestoresStatusAndPc :=
  fun s => congrArg Host.Outcome.next (returnFromInterrupt_eq s)

end Sys2Proof.Machine
end

section
/-! PROOFS. The stack, flag and no-operation instructions (45 R400-R411, 46 R451-R453). -/

namespace Sys2Proof.Machine

/-! ### No operation -/

/-- A NOP with an operand is a read instruction that discards what it reads (46 R452, R453, D30). -/
theorem execNop_of_ne_impl (op : Byte) {o : Operand} (ho : o.mode ≠ .impl) (s : State) :
    execNop op o s = readThen o s fun _ t => t := by
  cases o
  case impl => exact absurd rfl ho
  all_goals rfl

/-- A NOP row with an operand has an immediate or a memory mode (46 R452, R453). -/
theorem nop_readable {op : Byte} {o : Operand} (hw : (Instr.nop op o).wf = true) (ho : o.mode ≠ .impl) :
    isMemoryMode o.mode = true ∨ o.mode = .imm ∨ o.mode = .acc := by
  have hforms : ∀ form ∈ nopForms, form.2 ≠ .impl → isMemoryMode form.2 = true ∨ form.2 = .imm ∨ form.2 = .acc := by decide
  exact hforms (op, o.mode) (List.contains_iff_mem.mp hw) ho

/-- Settles O46: with no operand NOP only advances PC; with one it is a read whose byte is discarded. -/
theorem nopCompletes : Obligations.NopCompletes := by
  refine fun op => ⟨fun s => ?impl, fun b s => ?imm, fun o hw ho => ?operand⟩
  case impl | imm => rfl
  case operand => exact completesReading_registers (nop_readable hw ho) (fun _ _ _ _ => rfl) (execNop_of_ne_impl op ho)

/-! ### The stack -/

/-- Settles O44: each is one push or one pull; PHP's image and PLP's forced bits are `pushImage_true`'s and `pulledStatus`'s. -/
theorem stackInstructionsComplete : Obligations.StackInstructionsComplete := by
  refine fun s => ⟨congrArg Host.Outcome.next ?pha, congrArg Host.Outcome.next ?php, congrArg Host.Outcome.next ?pla,
    congrArg Host.Outcome.next ?plp⟩
  case pha =>
    rw [push_eq]
    rfl
  case php =>
    rw [push_eq, pushImage_true]
    rfl
  case pla | plp =>
    rw [pull_eq]
    rfl

/-! ### The flags -/

/-- Clearing a flag masks P with the complement of the flag's bit (10 R36). -/
theorem completesInRegisters_clearFlag {i : Instr} {f : Flag} {m : Byte} (hm : ~~~(1#8 <<< flagBit f) = m)
    (he : ∀ s, exec i s = .next ((s.setFlag f false).advance 1)) : CompletesInRegisters i 1 fun c => { c with p := c.p &&& m } := by
  subst hm
  exact he

/-- Setting a flag adds the flag's bit to P (10 R36). -/
theorem completesInRegisters_setFlag {i : Instr} {f : Flag} {m : Byte} (hm : 1#8 <<< flagBit f = m)
    (he : ∀ s, exec i s = .next ((s.setFlag f true).advance 1)) : CompletesInRegisters i 1 fun c => { c with p := c.p ||| m } := by
  subst hm
  exact he

/-- Settles O45: each writes one flag, whose bit in P the mask names. -/
theorem flagInstructionsComplete : Obligations.FlagInstructionsComplete := by
  refine ⟨?clc, ?sec, ?cli, ?sei, ?clv, ?cld, ?sed⟩
  case clc => exact completesInRegisters_clearFlag (f := .c) rfl fun _ => rfl
  case cli => exact completesInRegisters_clearFlag (f := .i) rfl fun _ => rfl
  case clv => exact completesInRegisters_clearFlag (f := .v) rfl fun _ => rfl
  case cld => exact completesInRegisters_clearFlag (f := .d) rfl fun _ => rfl
  case sec => exact completesInRegisters_setFlag (f := .c) rfl fun _ => rfl
  case sei => exact completesInRegisters_setFlag (f := .i) rfl fun _ => rfl
  case sed => exact completesInRegisters_setFlag (f := .d) rfl fun _ => rfl

end Sys2Proof.Machine
end

section
/-! PROOFS. JAM (46 R454): it records its fault, and no other instruction leaves one behind (60 R501, R502, R512). -/

namespace Sys2Proof.Machine

/-- Settles O50: raising a fault writes the run state alone. -/
theorem jamRecordsItsFault : Obligations.JamRecordsItsFault :=
  fun _ _ => rfl

/-- Settles O8: a completed instruction leaves the machine running, so the step with a fault is JAM's, which puts its record on the
polled boundary. -/
theorem onlyJamFaults : Obligations.OnlyJamFaults := by
  intro s t r hstep hfault
  have hrun := running_of_step hstep
  obtain ⟨u, hnext, hu⟩ | ⟨hnext, hjam⟩ := step_cases s hrun
  case inl =>
    obtain rfl : t = busTick u.cpu.cyc (u.setCyc 0) := Host.Outcome.next.inj (hstep.symm.trans hnext)
    have hrunning := (completedStep_onward hu).run.trans hrun
    cases hfault.symm.trans hrunning
  case inr =>
    obtain rfl := Host.Outcome.next.inj (hstep.symm.trans hnext)
    rw [setRun_run, RunState.faulted.injEq] at hfault
    subst hfault
    exact ⟨rfl, hjam, rfl⟩

end Sys2Proof.Machine
end

section
/-! PROOFS. The unofficial read-modify-write and immediate composites (46 R430-R444). -/

namespace Sys2Proof.Machine

/-- A read-modify-write that writes `f` of P and the byte read, and whose rule on the CPU's registers leaves PC and the cycle count to
the shape, completes so. -/
theorem completesModifying_registers {i : Instr} {o : Operand} (f : Byte → Byte → Byte) {g : Cpu → Byte → Cpu}
    (hm : isMemoryMode o.mode = true) (he : ∀ s, exec i s = modifyThen o s f fun m t => { t with cpu := g t.cpu m })
    (hg : ∀ c m pc n, g { c with pc := pc, cyc := n } m = { g c m with pc := pc, cyc := n }) :
    CompletesModifying i o (fun c m => f c.p m) g := by
  have hpc (c : Cpu) (m : Byte) : (g c m).pc = c.pc := (congrArg Cpu.pc (hg c m c.pc c.cyc) :)
  have hcyc (c : Cpu) (m : Byte) (n : Nat) : g { c with cyc := n } m = { g c m with cyc := n } :=
    (hg c m c.pc n).trans (by rw [← hpc c m])
  exact completesModifying_of hm he (fun _ _ => rfl) (fun _ _ => rfl) hcyc hpc

theorem rol8_value (v : Byte) (c : Bool) : (rol8 v c).value = (v <<< 1) ||| (if c then 0x01 else 0x00) :=
  congrArg Shifted.value (rol8_eq v c)

theorem ror8_value (v : Byte) (c : Bool) : (ror8 v c).value = (v >>> 1) ||| (if c then 0x80 else 0x00) :=
  congrArg Shifted.value (ror8_eq v c)

/-- ADD8 after the carry is written adds that carry (42 R300). -/
theorem setFlag_c_add8 (s : State) (b : Bool) (m : Byte) : (s.setFlag .c b).add8 m = { s with cpu := { s.cpu with
    a := addResult s.cpu.a m b, p := addFlags (setFlag s.cpu.p .c b) s.cpu.a m } } := by
  rw [State.add8, state_setFlag_p, state_setFlag_a, getFlag_setFlag_same]
  rfl

/-- Settles O47: each is the common read-modify-write of its first primitive's byte, in memory modes only; the rotates' byte is
`rol8_value`'s and `ror8_value`'s, and RRA's addition takes the rotate's carry by `setFlag_c_add8`. -/
theorem compositesComplete : Obligations.CompositesComplete := by
  refine fun o => ⟨fun hw => ?slo, fun hw => ?rla, fun hw => ?sre, fun hw => ?rra, fun hw => ?dcp, fun hw => ?isb⟩
  case slo => exact completesModifying_registers (fun _ m => m <<< 1) (memoryMode_of_mem hw rfl) (fun _ => rfl) fun _ _ _ _ => rfl
  case rla =>
    simp only [← rol8_value]
    exact completesModifying_registers (fun p m => (rol8 m (getFlag p .c)).value) (memoryMode_of_mem hw rfl) (fun _ => rfl)
      fun _ _ _ _ => rfl
  case sre => exact completesModifying_registers (fun _ m => m >>> 1) (memoryMode_of_mem hw rfl) (fun _ => rfl) fun _ _ _ _ => rfl
  case rra =>
    simp only [← ror8_value]
    refine completesModifying_registers (fun p m => (ror8 m (getFlag p .c)).value) (memoryMode_of_mem hw rfl) (fun s => ?_)
      fun _ _ _ _ => rfl
    simp only [exec, execRra, setFlag_c_add8]
    rfl
  case dcp => exact completesModifying_registers (fun _ m => m - 1) (memoryMode_of_mem hw rfl) (fun _ => rfl) fun _ _ _ _ => rfl
  case isb => exact completesModifying_registers (fun _ m => m + 1) (memoryMode_of_mem hw rfl) (fun _ => rfl) fun _ _ _ _ => rfl

/-- Settles O48: each rule is the statement's record, for whatever state it runs in; ARR's rotated byte is `ror8_value`'s. -/
theorem immediateCompositesComplete : Obligations.ImmediateCompositesComplete := by
  refine fun op b => ⟨fun s => ?anc, fun s => ?alr, fun s => ?arr, fun s => ?sbx, fun s => ?ane, fun s => ?lxa⟩
  case anc | alr | sbx | ane | lxa => rfl
  case arr =>
    simp only [← ror8_value]
    rfl

end Sys2Proof.Machine
end

section
/-! PROOFS. The high-byte stores SHA, SHX, SHY and TAS (46 R446-R449, D28). -/

namespace Sys2Proof.Machine

/-- The byte a high-byte store writes: the register AND (the base's high byte + 1). -/
def highStoreValue (reg : Byte) (base : Word) : Byte := reg &&& (hiByte base + 1)

/-- The address a high-byte store of `v` writes to: on a page cross `v` replaces the high byte. -/
def highStoreAddr (v : Byte) (base : Word) (index : Byte) : Word :=
  if hiByte base = hiByte (base + zext16 index) then base + zext16 index else joinBytes v (loByte (base + zext16 index))

/-- A high-byte store is one Bus write. -/
theorem storeHigh_indexed (base : Word) (index reg : Byte) (s : State) :
    storeHigh (indexed base index s) reg =
      memWrite (highStoreAddr (highStoreValue reg base) base index) (highStoreValue reg base) s := by
  simp only [storeHigh, indexed, highStoreAddr, highStoreValue, bne_iff_ne, ne_eq, ite_not]

/-- A high-byte store with the CPU's registers set to `c` first, as TAS does: the write is that of the unchanged state. -/
theorem storeHigh_advance (base : Word) (index reg : Byte) (s : State) (c : Cpu) (n : Nat) :
    (storeHigh (indexed base index { s with cpu := c }) reg).advance n =
      { memWrite (highStoreAddr (highStoreValue reg base) base index) (highStoreValue reg base) s with cpu := { c with
        pc := c.pc + BitVec.ofNat 16 n
        cyc := c.cyc + dmaCharge (highStoreAddr (highStoreValue reg base) base index) } } := by
  rw [storeHigh_indexed, memWrite_setCpu]
  rfl

/-- SHA through a pointer stores at the word read from RAM, indexed (46 R447). -/
theorem exec_sha_indy (b1 : Byte) (s : State) :
    exec (.sha (.indy b1)) s = .next ((storeHigh (indexed (joinBytes (s.bus.ram.read (b1 + 1).toNat) (s.bus.ram.read b1.toNat))
      s.cpu.y s) (s.cpu.a &&& s.cpu.x)).advance 2) := by
  simp only [exec, execSha, resolve, read16ZP_eq]
  rfl

/-- Settles O49: each is the high-byte store of its register, TAS with S written first. -/
theorem highByteStoresComplete : Obligations.HighByteStoresComplete := by
  intro s base b1 value place done ptr ax
  refine ⟨congrArg Host.Outcome.next ?shaAbsolute, ?shaPointer, congrArg Host.Outcome.next ?shx, congrArg Host.Outcome.next ?shy,
    congrArg Host.Outcome.next ?tas, fun a v => sameBytesBut_memWrite a v rfl⟩
  case shaAbsolute => exact storeHigh_advance base s.cpu.y ax s s.cpu 3
  case shaPointer => exact (exec_sha_indy b1 s).trans (congrArg Host.Outcome.next (storeHigh_advance ptr s.cpu.y ax s s.cpu 2))
  case shx => exact storeHigh_advance base s.cpu.y s.cpu.x s s.cpu 3
  case shy => exact storeHigh_advance base s.cpu.x s.cpu.y s s.cpu 3
  case tas => exact storeHigh_advance base s.cpu.y ax s { s.cpu with sp := ax } 3

end Sys2Proof.Machine
end

section
/-! PROOFS. The PPU's clock (60 R560-R564): its position in the frame, and a tick by where it passes: the sprite-0 test, then the wrap
loop. -/

namespace Sys2Proof.Machine

/-! ### The clock as a counter -/

/-- Scanline and cycle after `c` accumulated cycles, as one position in the frame of 262 scanlines of 341 cycles. -/
theorem position_after_wraps (line c : Nat) : (line + c / 341) % 262 * 341 + c % 341 = (line * 341 + c) % 89342 := by omega

/-- Settles O54: the position is `ppuTick_spec`'s scanline and cycle, and it is past the frame where the scanline is. -/
theorem tickIsAModularClock : Obligations.TickIsAModularClock := by
  intro q n hline hcycle
  obtain ⟨hcycle', hline', hframe, -⟩ := ppuTick_spec n q hline
  rw [hcycle', hline', hframe]
  refine ⟨Nat.mod_lt _ (by decide), Nat.mod_lt _ (by decide), ?position, ?frame⟩
  case position => rw [position_after_wraps, Nat.add_assoc]
  case frame => omega

/-! ### A tick by where it passes -/

/-- The PPU at the start of the wrap loop of a tick of `n`: the cycle accumulated, and the sprite-0 test made on it (60 R560, R561, D19). -/
def afterTest (n : Nat) (q : Ppu) : Ppu :=
  { q with
    cycle := q.cycle + n
    status := if (q.oam.read 0).toNat = q.scanline ∧ (q.oam.read 3).toNat ≤ q.cycle + n ∧ q.mask.getLsbD 4 = true
      then q.status ||| 0x40 else q.status }

/-- A tick is the test, and then as many turns of the wrap loop as the accumulated cycle fills scanlines (60 R560). -/
theorem ppuTick_eq (n : Nat) (q : Ppu) : ppuTick n q = wrapScanlines ((q.cycle + n) / 341) (afterTest n q) := by
  rw [ppuTick, sprite0Check, afterTest]
  split_ifs <;> rfl

/-- Whatever the test gives, it gives it in bit 6 alone, which a mask without that bit does not show. -/
theorem afterTest_status_and (n : Nat) (q : Ppu) {m : Byte} (hm : 0x40 &&& m = 0#8) : (afterTest n q).status &&& m = q.status &&& m := by
  simp only [afterTest]
  split_ifs
  · rw [BitVec.and_comm, BitVec.and_or_distrib_left, BitVec.and_comm m 0x40, hm, BitVec.or_zero, BitVec.and_comm]
  · rfl

/-- Vblank's beginning clears the bit of the test (60 R562). -/
theorem afterTest_status_vblank (n : Nat) (q : Ppu) :
    ((afterTest n q).status ||| 0x80) &&& 0xBF = (q.status ||| 0x80) &&& 0xBF := by
  have hdistrib (s : Byte) : (s ||| 0x80) &&& 0xBF = (s &&& 0xBF) ||| (0x80 &&& 0xBF) := by
    rw [BitVec.and_comm, BitVec.and_or_distrib_left, BitVec.and_comm 0xBF s, BitVec.and_comm 0xBF 0x80]
  rw [hdistrib, hdistrib, afterTest_status_and n q (by decide)]

/-- The cycles that are left when the filled scanlines are taken off. -/
theorem afterTest_cycle_wrapped (n : Nat) (q : Ppu) :
    (afterTest n q).cycle - 341 * ((q.cycle + n) / 341) = (q.cycle + n) % 341 := (Nat.mod_def (q.cycle + n) 341).symm

theorem ppuTick_of_in_line {n : Nat} {q : Ppu} (h : q.cycle + n < 341) : ppuTick n q = (afterTest n q, false) := by
  rw [ppuTick_eq, Nat.div_eq_of_lt h, wrapScanlines]

theorem ppuTick_of_quiet {n : Nat} {q : Ppu} (h : q.scanline + (q.cycle + n) / 341 < 241 ∨
      241 ≤ q.scanline ∧ q.scanline + (q.cycle + n) / 341 < 262) :
    ppuTick n q = ({ afterTest n q with
      scanline := q.scanline + (q.cycle + n) / 341, cycle := (q.cycle + n) % 341 }, false) := by
  rw [ppuTick_eq, wrapScanlines_quiet _ (afterTest n q) h, afterTest_cycle_wrapped]
  rfl

theorem ppuTick_of_vblank {n : Nat} {q : Ppu} (hstart : q.scanline < 241) (hlo : 241 ≤ q.scanline + (q.cycle + n) / 341)
    (hhi : q.scanline + (q.cycle + n) / 341 < 262) :
    ppuTick n q = ({ q with
      scanline := q.scanline + (q.cycle + n) / 341
      cycle := (q.cycle + n) % 341
      status := (q.status ||| 0x80) &&& 0xBF
      nmiPending := q.nmiPending || q.ctrl.getLsbD 7 }, false) := by
  rw [ppuTick_eq, wrapScanlines_vblank (q := afterTest n q) hstart hlo hhi, afterTest_cycle_wrapped, enterVblank,
    afterTest_status_vblank]
  rfl

theorem ppuTick_of_frame {n : Nat} {q : Ppu} (hstart : q.scanline < 262) (hlo : 262 ≤ q.scanline + (q.cycle + n) / 341)
    (hhi : q.scanline + (q.cycle + n) / 341 < 503) :
    ppuTick n q = ({ q with
      scanline := q.scanline + (q.cycle + n) / 341 - 262
      cycle := (q.cycle + n) % 341
      status := q.status &&& 0x3F
      nmiPending := false }, true) := by
  rw [ppuTick_eq, wrapScanlines_frame (q := afterTest n q) hstart hlo hhi, afterTest_cycle_wrapped, endFrame,
    afterTest_status_and n q (by decide)]
  rfl

/-- Settles O57: the four ways a tick can go; the first two keep the PPU of the test but for its counters. -/
theorem spriteZeroTest : Obligations.SpriteZeroTest :=
  fun _ _ => ⟨ppuTick_of_in_line, ppuTick_of_quiet, ppuTick_of_vblank, ppuTick_of_frame⟩

/-! ### Vblank and the frame's end -/

/-- The turn to scanline 241 begins vblank (60 R562). -/
theorem nextScanline_of_240 {q : Ppu} (h : q.scanline = 240) :
    nextScanline q = (enterVblank { q with cycle := q.cycle - 341, scanline := 241 }, false) := by
  simp [nextScanline, vblankLine, linesPerFrame, dotsPerLine, enterVblank, h]

/-- Settles O55: the turn to scanline 241, and a tick that fills one scanline and so has no other turn. -/
theorem vblankBegins : Obligations.VblankBegins := by
  refine fun q h240 => ⟨nextScanline_of_240 h240, fun n hlo hhi => ?_⟩
  have hline : q.scanline + (q.cycle + n) / 341 = 241 := by omega
  rw [ppuTick_of_vblank (by omega) (by omega) (by omega)]
  exact ⟨hline, by simp, by simp, rfl⟩

/-- Settles O56: a tick that fills one scanline from the last one ends the frame and reaches no further. -/
theorem frameEnds : Obligations.FrameEnds := by
  intro q n h261 hlo hhi
  have hline : q.scanline + (q.cycle + n) / 341 = 262 := by omega
  rw [ppuTick_of_frame (by omega) (by omega) (by omega)]
  exact ⟨by rw [hline], by simp, by simp, rfl, rfl⟩

end Sys2Proof.Machine
end

section
/-! PROOFS. The Bus clock (60 R565, R566), and the NMI that it may leave pending, taken at a step's poll (60 R506-R508). -/

namespace Sys2Proof.Machine

/-! ### The frame callback -/

/-- The host stores the first of its inputs, where there is one (60 R566, log 11). -/
theorem hostInput_eq : ∀ s : State, hostInput s = { s with
    pad := { s.pad with buttons := s.host.inputs.headD s.pad.buttons }
    host := { s.host with inputs := s.host.inputs.tail } }
  | ⟨_, _, _, _, ⟨_, _, _, []⟩⟩ => rfl
  | ⟨_, _, _, _, ⟨_, _, _, _ :: _⟩⟩ => rfl

/-- A Bus tick in which a frame ends calls the host back once, after the PPU's whole tick (60 R565, R566). -/
theorem busTick_of_frame {c : Nat} {s : State} {q : Ppu} (h : ppuTick (3 * c) s.ppu = (q, true)) :
    busTick c s = frameCallback { s with ppu := q, bus := { s.bus with cycles := s.bus.cycles + c } } := by
  simp [busTick, ppuRatio, h]

/-- Settles O58: with no frame's end only the PPU and the counter move; with one the host's callback follows. -/
theorem busTickForwardsClock : Obligations.BusTickForwardsClock := by
  refine fun c s => ⟨fun h => ?noFrame, fun h => ?frame⟩
  case noFrame => exact busTick_of_no_frame (Prod.ext rfl h)
  case frame => exact (busTick_of_frame (Prod.ext rfl h)).trans (hostInput_eq _)

/-! ### The NMI -/

/-- The forced bits of a pushed image with the break bit clear, as one mask (10 R41). -/
theorem pushImage_false (p : Byte) : pushImage p false = (p &&& 0xCF) ||| 0x20 := BitVec.or_zero

theorem serviceNmi_of_pending {s : State} (h : s.ppu.nmiPending = true) :
    serviceNmi s = busTick 7 (enterInterrupt s.cpu.pc false nmiVector (s.setPpu { s.ppu with nmiPending := false })) :=
  if_pos h

/-- Settles O15: with a request the poll enters an interrupt with B = 0, through a vector that lies in PRG ROM, and ticks 7 cycles, which
move no register of the CPU and nothing of the controller but its buttons. -/
theorem nmiIsTakenAtTheBoundary : Obligations.NmiIsTakenAtTheBoundary := by
  refine fun s => ⟨fun h => if_neg (Bool.eq_false_iff.mp h), fun h => ?_⟩
  have hentry := enterInterrupt_eq s.cpu.pc false (s.setPpu { s.ppu with nmiPending := false }) (vec := nmiVector)
    (by decide) (by decide)
  obtain ⟨hcpu, hppu, hbus, hindex, hstrobe⟩ :=
    busTick_spec 7 (enterInterrupt s.cpu.pc false nmiVector (s.setPpu { s.ppu with nmiPending := false }))
  rw [pushImage_false] at hentry
  rw [serviceNmi_of_pending h, hcpu, hppu, hbus, hindex, hstrobe, hentry]
  exact ⟨rfl, rfl, rfl, rfl, rfl⟩

end Sys2Proof.Machine
end

section
/-! PROOFS. The controller port (60 R575-R577): what reads in a row report, with the strobe held and after its release. -/

namespace Sys2Proof.Machine

theorem memRead_controller (s : State) : memRead 0x4016 s = (padBit s.pad, s.setPad (padAfterRead s.pad)) := rfl

/-- A write of 1 holds the strobe and goes back to the first button (60 R576). -/
theorem memWrite_controller_hold (s : State) : memWrite 0x4016 0x01 s = s.setPad { s.pad with strobe := true, index := 0 } := rfl

/-- A write of 0 releases the strobe and leaves the index (60 R576). -/
theorem memWrite_controller_release (s : State) : memWrite 0x4016 0x00 s = s.setPad { s.pad with strobe := false } := rfl

/-- What read number `k` after the strobe reports: button `k` of the eight, then 1 (60 R577, D31). -/
def padReport (buttons : Byte) (k : Nat) : Byte := if k < 8 then (buttons >>> k) &&& 1 else 0x01

/-- A read with the strobe held reports button A and changes nothing (60 R577). -/
theorem memRead_controller_held {s : State} (hstrobe : s.pad.strobe = true) (hindex : s.pad.index = 0) :
    memRead 0x4016 s = (s.pad.buttons &&& 1, s) := by
  have hpad : padAfterRead s.pad = s.pad := if_neg fun h => Bool.false_ne_true (h.1.symm.trans hstrobe)
  have hbit : padBit s.pad = s.pad.buttons &&& 1 := by
    rw [padBit, hindex]
    rfl
  rw [memRead_controller, hpad, hbit]
  rfl

/-- A read after `i` others gives report `i`, and the index goes on to 8 and no further (60 R577). -/
theorem memRead_controller_released {s : State} {i : Nat} (hstrobe : s.pad.strobe = false) (hindex : s.pad.index = min i 8) :
    memRead 0x4016 s = (padReport s.pad.buttons i, s.setPad { s.pad with index := min (i + 1) 8 }) := by
  rw [memRead_controller, padBit, padAfterRead, padReport, hindex]
  by_cases hi : i < 8
  · have hnow : min i 8 = i := by omega
    have hnext : min (i + 1) 8 = i + 1 := by omega
    rw [hnow, hnext, if_neg (by omega), if_pos hi, if_pos ⟨hstrobe, hi⟩]
  · have hnow : min i 8 = 8 := by omega
    have hnext : min (i + 1) 8 = s.pad.index := by omega
    rw [hnow, hnext, if_pos (by omega), if_neg hi, if_neg (by omega)]

theorem readTimes_controller_held : ∀ (n : Nat) {s : State}, s.pad.strobe = true → s.pad.index = 0 →
    (readTimes n 0x4016 s).1 = List.replicate n (s.pad.buttons &&& 1)
  | 0, _, _, _ => rfl
  | n + 1, s, hstrobe, hindex => by
    rw [readTimes, memRead_controller_held hstrobe hindex, List.replicate_succ]
    exact congrArg (List.cons _) (readTimes_controller_held n hstrobe hindex)

/-- After `i` other reads, `n` reads give the reports from `i` on. -/
theorem readTimes_controller_released : ∀ (n i : Nat) {s : State}, s.pad.strobe = false → s.pad.index = min i 8 →
    (readTimes n 0x4016 s).1 = (List.range' i n).map (padReport s.pad.buttons)
  | 0, _, _, _, _ => rfl
  | n + 1, i, s, hstrobe, hindex => by
    rw [readTimes, memRead_controller_released hstrobe hindex, List.range'_succ, List.map_cons]
    exact congrArg (List.cons _) (readTimes_controller_released n (i + 1) hstrobe rfl)

/-- Settles O60: the strobe sets the index to 0; held, it keeps it there, and released, the reports run from there. -/
theorem controllerReportsButtons : Obligations.ControllerReportsButtons := by
  intro s n
  rw [memWrite_controller_hold, memWrite_controller_release, List.range_eq_range']
  exact ⟨readTimes_controller_released n 0 rfl rfl, readTimes_controller_held n rfl rfl⟩

end Sys2Proof.Machine
end

section
/-! PROOFS. The PPU's registers as the CPU sees them (60 R541-R552). -/

namespace Sys2Proof.Machine

/-! ### Masks of a word's two bytes -/

theorem joinBytes_and (h l h' l' : Byte) : joinBytes h l &&& joinBytes h' l' = joinBytes (h &&& h') (l &&& l') :=
  BitVec.and_append

theorem joinBytes_or (h l h' l' : Byte) : joinBytes h l ||| joinBytes h' l' = joinBytes (h ||| h') (l ||| l') :=
  BitVec.or_append

theorem zext16_eq_joinBytes (b : Byte) : zext16 b = joinBytes 0#8 b := by
  apply BitVec.eq_of_toNat_eq
  rw [joinBytes_toNat, zext16, BitVec.toNat_setWidth, BitVec.toNat_ofNat]
  omega

theorem zext16_shiftLeft_eight (b : Byte) : zext16 b <<< 8 = joinBytes b 0#8 := by
  apply BitVec.eq_of_toNat_eq
  rw [joinBytes_toNat, zext16, BitVec.toNat_shiftLeft, BitVec.toNat_setWidth, Nat.shiftLeft_eq, BitVec.toNat_ofNat]
  omega

theorem and_lowMask (w : Word) : w &&& 0x00FF = joinBytes 0#8 (loByte w) :=
  calc w &&& 0x00FF = joinBytes (hiByte w) (loByte w) &&& joinBytes 0#8 (BitVec.allOnes 8) := by rw [joinBytes_hi_lo]; rfl
    _ = joinBytes 0#8 (loByte w) := by rw [joinBytes_and, BitVec.and_zero, BitVec.and_allOnes]

theorem and_highMask (w : Word) : w &&& 0xFF00 = joinBytes (hiByte w) 0#8 :=
  calc w &&& 0xFF00 = joinBytes (hiByte w) (loByte w) &&& joinBytes (BitVec.allOnes 8) 0#8 := by rw [joinBytes_hi_lo]; rfl
    _ = joinBytes (hiByte w) 0#8 := by rw [joinBytes_and, BitVec.and_zero, BitVec.and_allOnes]

/-- The mask of 14 bits cuts the high byte alone. -/
theorem joinBytes_and_addrMask (h l : Byte) : joinBytes h l &&& 0x3FFF = joinBytes (h &&& 0x3F) l :=
  calc joinBytes h l &&& 0x3FFF = joinBytes h l &&& joinBytes 0x3F (BitVec.allOnes 8) := rfl
    _ = joinBytes (h &&& 0x3F) l := by rw [joinBytes_and, BitVec.and_allOnes]

/-! ### The registers but PPUDATA -/

/-- The first write of PPUADDR is the high byte, in 14 bits (60 R549). -/
theorem writePpuAddr_first {q : Ppu} (hw : q.w = false) (b : Byte) :
    writePpuAddr q b = { q with v := joinBytes (b &&& 0x3F) (loByte q.v), w := true } := by
  rw [writePpuAddr, if_neg (Bool.eq_false_iff.mp hw), zext16_shiftLeft_eight, and_lowMask, joinBytes_or, BitVec.or_zero,
    BitVec.zero_or, joinBytes_and_addrMask]

/-- The second write of PPUADDR is the low byte (60 R549). -/
theorem writePpuAddr_second {q : Ppu} (hw : q.w = true) (b : Byte) :
    writePpuAddr q b = { q with v := joinBytes (hiByte q.v) b, w := false } := by
  rw [writePpuAddr, if_pos hw, and_highMask, zext16_eq_joinBytes, joinBytes_or, BitVec.or_zero, BitVec.zero_or]

/-- Settles O51: each address selects its register, whose rule is the statement's record; PPUADDR's two writes are put together from the
address's bytes. -/
theorem ppuRegisterAccesses : Obligations.PpuRegisterAccesses := by
  intro s b
  refine ⟨rfl, rfl, rfl, rfl, rfl, rfl, fun hw => ?first, fun hw => ?second, rfl⟩
  case first => exact congrArg s.setPpu (writePpuAddr_first hw b)
  case second => exact congrArg s.setPpu (writePpuAddr_second hw b)

/-! ### PPUDATA -/

theorem memRead_ppuData (s : State) : memRead 0x2007 s = ((readPpuData s.ppu).1, s.setPpu (readPpuData s.ppu).2) := rfl

theorem readPpuData_below_palette {q : Ppu} (h : q.v < 0x3F00) :
    readPpuData q = (q.buf, ppuIncrement { q with buf := ppuRead q q.v }) := if_pos h

theorem readPpuData_palette {q : Ppu} (h : 0x3F00 ≤ q.v) :
    readPpuData q = (ppuRead q q.v, ppuIncrement { q with buf := ppuRead q (q.v - 0x1000) }) := if_neg (BitVec.not_lt.mpr h)

/-- A store in the PPU's address space does not change where the increment after it goes. -/
theorem ppuIncrement_ppuWrite (q : Ppu) (p : Word) (x : Byte) :
    ppuIncrement (ppuWrite q p x) = { ppuWrite q p x with v := (ppuIncrement q).v } := by
  obtain h | ⟨hlo, hhi⟩ | h := ppuRegion_cases p
  · rw [ppuWrite_pattern h]
    rfl
  · rw [ppuWrite_nametable hlo hhi]
    rfl
  · rw [ppuWrite_palette h]
    rfl

/-- Settles O52: a read by the region of its address, a write as a store; each followed by one increment. -/
theorem ppuDataPort : Obligations.PpuDataPort := by
  refine fun s b => ⟨fun h => ?below, fun h => ?palette, ?write⟩
  case below =>
    rw [memRead_ppuData, readPpuData_below_palette h]
    rfl
  case palette =>
    rw [memRead_ppuData, readPpuData_palette h]
    rfl
  case write => exact congrArg s.setPpu (ppuIncrement_ppuWrite s.ppu s.ppu.v b)

end Sys2Proof.Machine
end
